-- ==== Sys2Proof/Word.lean ====
section
/-! DEFINITION. The words of the machine: bytes, selectors, 32-bit registers. -/

namespace Sys2Proof

/-- A byte of memory or of an instruction (R30). -/
abbrev Byte := BitVec 8

/-- A 16-bit value: a 16-bit operand, offset or error code. -/
abbrev HalfWord := BitVec 16

/-- A 32-bit value: a general register, EIP, a linear or physical address (R10, R15, R30). -/
abbrev Word := BitVec 32

/-- A segment selector, 16 bits (R13, R39). -/
abbrev Selector := BitVec 16

/-- An 8-byte descriptor read as one little-endian number (R41, R42, R43). -/
abbrev Descriptor := BitVec 64

end Sys2Proof
end

