-- ==== Sys2Proof/Config.lean ====
section
/-!
DEFINITION. What the spec leaves to parameters: the two OPEN parameters `Translate` (R35) and `SwitchTasks` (R93),
which are uninterpreted constants here, the two fixed ones `SetAccessed` (R94) and `AvailableTSSPatterns` (R45), the
maximum instruction length (R63), and the plain register contents the open parameters speak of.
-/

namespace Sys2Proof.Config

/-- The eight 32-bit general registers (R15). -/
structure Regs where
  eax : Word
  ecx : Word
  edx : Word
  ebx : Word
  esp : Word
  ebp : Word
  esi : Word
  edi : Word
deriving DecidableEq, Repr, Inhabited

/-- The code segment register: visible selector and the four hidden fields (R13). -/
structure CodeSeg where
  sel : Selector
  /-- Linear address of offset 0. -/
  base : Word
  /-- Largest valid offset, in bytes. -/
  limit : Word
  /-- The access-rights byte. -/
  ar : Byte
  /-- The default size attribute: true means 32-bit operands and addresses by default. -/
  d : Bool
deriving DecidableEq, Repr, Inhabited

/-- One of the segment registers DS, ES, FS, GS, SS (R14). -/
structure DataSeg where
  sel : Selector
  base : Word
  limit : Word
  ar : Byte
  /-- The B bit of the descriptor last loaded. -/
  b : Bool
  /-- False when the register holds a null selector. -/
  valid : Bool
deriving DecidableEq, Repr, Inhabited

/-- The global descriptor table register: 32-bit base, 16-bit limit (R18). -/
structure TableReg where
  base : Word
  limit : HalfWord
deriving DecidableEq, Repr, Inhabited

/-- The local descriptor table register: a selector with a hidden 32-bit base and limit (R18). -/
structure LdtReg where
  sel : Selector
  base : Word
  limit : Word
deriving DecidableEq, Repr, Inhabited

/-- The task register (R20). PRESUMED, log entry 17, unsafe only for a claim about its fields: the spec gives no shape,
the family's is taken. -/
structure TaskReg where
  sel : Selector
  base : Word
  limit : Word
  ar : Byte
deriving DecidableEq, Repr, Inhabited

/-- The kind of a memory access `Translate` is asked about (R35). -/
inductive Access where
  | fetch
  | read
  | write
deriving DecidableEq, Repr

/-- The level of a memory access `Translate` is asked about (R35). -/
inductive Level where
  | user
  | supervisor
deriving DecidableEq, Repr

/-- Everything a task switch replaces: the whole task context (R93), register by register.
PE and GDTR are not in it: no JMP form writes them (R16, R18). -/
structure TaskContext where
  regs : Regs
  eip : Word
  cs : CodeSeg
  ds : DataSeg
  es : DataSeg
  fs : DataSeg
  gs : DataSeg
  ss : DataSeg
  vm : Bool
  flags : Word
  ldtr : LdtReg
  tr : TaskReg
  paging : Bool
  pagingContext : Word
deriving DecidableEq, Repr, Inhabited

/-- An exception raised inside `SwitchTasks`, with its error code: #TS, or further #GP, #NP, #SS, #PF (R93, R116,
90_conflicts.md C3). -/
inductive SwitchFault where
  | ts (code : HalfWord)
  | gp (code : HalfWord)
  | np (code : HalfWord)
  | ss (code : HalfWord)
  | pf (code : HalfWord)
deriving DecidableEq, Repr, Inhabited

/-- What one call of `SwitchTasks` leaves: the task context, the bytes of memory it wrote (physical address and value, in
order), and the exception it raised, if it raised one (R93, R121). -/
structure SwitchOutcome where
  context : TaskContext
  writes : List (Word × Byte)
  raised : Option SwitchFault
deriving DecidableEq, Repr, Inhabited

/-- `Translate`, the OPEN parameter of R35, where paging is on: a physical address, or the fault code of a #PF.
A free value (log entry 5): nothing constrains it. It may depend on memory and on a context the task switch replaces. -/
opaque translate (pagingContext : Word) (mem : List (Nat × Byte)) (lin : Word) (kind : Access) (level : Level) :
  Except HalfWord Word

/-- `SwitchTasks`, the OPEN parameter of R93, from the state, the TSS selector and its descriptor.
A free value (log entry 6): nothing constrains it. The spec calls it a relation, so it also takes a plain counter `n`
that every call advances. -/
opaque switchTasks (n : Nat) (old : TaskContext) (gdtr : TableReg) (mem : List (Nat × Byte)) (tsel : Selector)
  (td : Descriptor) : SwitchOutcome

/-- `SetAccessed`, at the spec's default (R94, D23; log entry 16). -/
def setAccessed : Bool := true

/-- `AvailableTSSPatterns` (R45, D13; log entry 16). -/
def availableTSSPatterns : List (BitVec 5) := [0b00001#5, 0b01001#5]

/-- The longest instruction the chip takes, in bytes (R63). -/
def maxInstructionLength : Nat := 15

end Sys2Proof.Config
end

