-- ==== Sys2Proof/Syntax.lean ====
section
/-!
DEFINITION. The nine forms of JMP, one constructor per row of the opcode table (R1, R52), and their operands.

An instruction holds no prefix bytes. The sizes they select are part of it: the form (or, for rel8, the field `os`) says
the operand size, a memory operand says its address size and its override. Which prefix bytes stand before the opcode
follows from these and from the default size of the code segment (R3, R4; log entry 21).
-/

namespace Sys2Proof

/-- The general registers, in the order of their numbers 0 to 7 (R15). -/
inductive Reg where
  | eax | ecx | edx | ebx | esp | ebp | esi | edi
deriving DecidableEq, Repr

/-- The segment registers, in the order of their numbers 0 to 5 (R14). -/
inductive SegReg where
  | es | cs | ss | ds | fs | gs
deriving DecidableEq, Repr

/-- An operand-size attribute (R3). -/
inductive OpSize where
  | o16 | o32
deriving DecidableEq, Repr

/-- The register part of a 16-bit addressing form, in the order of `rm` (R58). -/
inductive Base16 where
  | bxSi | bxDi | bpSi | bpDi | si | di | bp | bx
deriving DecidableEq, Repr

/-- The displacement of a 16-bit addressing form: none, disp8 or disp16 (R58). -/
inductive Disp16 where
  | none
  | d8 (v : BitVec 8)
  | d16 (v : BitVec 16)
deriving DecidableEq, Repr

/-- The displacement of a 32-bit addressing form: none, disp8 or disp32 (R59). -/
inductive Disp32 where
  | none
  | d8 (v : BitVec 8)
  | d32 (v : BitVec 32)
deriving DecidableEq, Repr

/-- A 16-bit addressing form (R58). -/
inductive Addr16 where
  /-- `mod = 00`, `rm = 110`: a bare 16-bit displacement. -/
  | direct (disp : BitVec 16)
  | based (base : Base16) (disp : Disp16)
deriving DecidableEq, Repr

/-- A 32-bit addressing form (R59). `index = none` is the SIB index field 100; the scale field is kept beside it. -/
inductive Addr32 where
  /-- `mod = 00`, `rm = 101`: a bare 32-bit displacement. -/
  | direct (disp : BitVec 32)
  | based (base : Reg) (disp : Disp32)
  | sib (scale : BitVec 2) (index : Option Reg) (base : Reg) (disp : Disp32)
  /-- A SIB byte with base 101 under `mod = 00`: no base register, disp32. -/
  | sibNoBase (scale : BitVec 2) (index : Option Reg) (disp : BitVec 32)
deriving DecidableEq, Repr

/-- An addressing form of either address size (R4). -/
inductive Addr where
  | a16 (a : Addr16)
  | a32 (a : Addr32)
deriving DecidableEq, Repr

/-- A memory operand: the addressing form and the segment override, if there is one (R60). -/
structure MemOperand where
  addr : Addr
  override : Option SegReg
deriving DecidableEq, Repr

/-- The operand of `FF /4`: a general register or memory (R56). -/
inductive RegMem where
  | reg (r : Reg)
  | mem (m : MemOperand)
deriving DecidableEq, Repr

/-- JMP, one constructor per row of the opcode table. -/
inductive Instr where
  /-- `EB cb` (R71); `os` is the operand size, which decides the 16-bit masking (R53). -/
  | jmpRel8 (os : OpSize) (rel : BitVec 8)
  /-- `E9 cw` (R72). -/
  | jmpRel16 (rel : BitVec 16)
  /-- `E9 cd` (R73). -/
  | jmpRel32 (rel : BitVec 32)
  /-- `FF /4`, operand size 16 (R74). -/
  | jmpRM16 (rm : RegMem)
  /-- `FF /4`, operand size 32 (R75). -/
  | jmpRM32 (rm : RegMem)
  /-- `EA cd` (R80). -/
  | jmpPtr16_16 (off : BitVec 16) (sel : Selector)
  /-- `EA cp` (R81). -/
  | jmpPtr16_32 (off : BitVec 32) (sel : Selector)
  /-- `FF /5`, operand size 16 (R82). -/
  | jmpM16_16 (m : MemOperand)
  /-- `FF /5`, operand size 32 (R83). -/
  | jmpM16_32 (m : MemOperand)
deriving DecidableEq, Repr

/-- Why a byte sequence at CS:EIP is refused (R8). -/
inductive RejectReason where
  /-- The byte where the opcode stands is not EB, E9, EA or FF (R65). -/
  | notJmpOpcode (opcode : Byte)
  /-- Opcode FF with a `reg` field other than 4 and 5 (R65). -/
  | notJmpGroup (reg : BitVec 3)
  /-- 66H, 67H or F0H twice (R62). -/
  | repeatedPrefix (b : Byte)
  /-- Two segment overrides (R62). -/
  | twoOverrides
  /-- 67H or a segment override on a form without a memory operand (R62). -/
  | prefixWithoutMemory
  /-- F2H or F3H (R62). -/
  | repPrefix (b : Byte)
  /-- More than 15 bytes; never met under R62 (R63). -/
  | tooLong
deriving DecidableEq, Repr

end Sys2Proof
end

