-- ==== Sys2Proof/Machine/State.lean ====
section
/-!
DEFINITION. The machine's state as plain data, the outcomes that stop it, and the state after reset.
-/

namespace Sys2Proof.Machine

/-- Memory: the bytes that differ from 00H, at physical addresses, lowest first (R30; log entry 4). -/
abbrev Memory := List Host.Cell

/-- The exceptions a JMP can raise (R110), with the error code where the source writes one (R112). -/
inductive Exception where
  /-- Interrupt 6, invalid opcode, no error code (R126). -/
  | invalidOpcode
  /-- "Interrupt 13" of real-address and V86 mode (R118, R119). -/
  | interrupt13
  /-- `#GP(code)` (R113). -/
  | gp (code : HalfWord)
  /-- `#NP(code)` (R114). -/
  | np (code : HalfWord)
  /-- `#SS(code)` (R115). -/
  | ss (code : HalfWord)
  /-- `#TS(code)` (R116). -/
  | ts (code : HalfWord)
  /-- `#PF(fault-code)` (R117; log entry 15). -/
  | pf (code : HalfWord)
deriving DecidableEq, Repr

/-- The fault record (R22, R122): vector, error code or none, EIP of the faulting JMP, CS.sel at that time. -/
structure FaultRecord where
  vector : Nat
  code : Option HalfWord
  eip : Word
  csSel : Selector
deriving DecidableEq, Repr

/-- Everything the spec gives the machine (10_state.md). -/
structure State where
  /-- EAX to EDI (R15). -/
  regs : Config.Regs
  /-- EIP (R10, R11). -/
  eip : Word
  /-- CS with its hidden part (R13). -/
  cs : Config.CodeSeg
  ds : Config.DataSeg
  es : Config.DataSeg
  fs : Config.DataSeg
  gs : Config.DataSeg
  ss : Config.DataSeg
  /-- PE (R16). -/
  pe : Bool
  /-- VM (R16). -/
  vm : Bool
  /-- The flags register, one opaque word (R19; log entry 14). -/
  flags : Word
  /-- GDTR (R18). -/
  gdtr : Config.TableReg
  /-- LDTR (R18). -/
  ldtr : Config.LdtReg
  /-- The task register (R20; log entry 17). -/
  tr : Config.TaskReg
  /-- Paging is on (R33, R117; log entry 5). -/
  paging : Bool
  /-- The model's own: what `Translate` depends on besides memory (log entry 5). -/
  pagingContext : Word
  /-- Memory (R30, R47). -/
  mem : Memory
  /-- The fault record (R22). -/
  faultRecord : Option FaultRecord
  /-- The refusal mark, with its reason (R22, R8). -/
  refusalMark : Option RejectReason
  /-- The model's own: calls of `SwitchTasks` so far, the counter of that free value (log entry 6). -/
  taskSwitches : Nat
deriving DecidableEq, Repr

/-- Why the machine stops with a fault. -/
inductive Fault where
  /-- Raised by `step` in a state that holds a fault record: after a raise nothing more executes (R122, R123). Safe: the
  chip goes on in a handler, which the spec does not describe (log entry 1). -/
  | raised (r : FaultRecord)
deriving DecidableEq, Repr

/-- Why the machine refuses. -/
inductive Refusal where
  /-- An instruction without a meaning; no arm of `exec` answers with it. Safe: it stops. -/
  | notModelled (mnemonic : String)
  /-- Raised by `step` in a state whose refusal mark is set: the run says nothing further (R8, R22). Safe: it stops where
  the chip goes on (log entry 2). -/
  | marked (r : RejectReason)
deriving DecidableEq, Repr

/-- A data segment register as the family leaves it at reset (log entry 3); its selector is null (R14, R40). -/
def State.resetSeg : Config.DataSeg :=
  { sel := 0x0000#16, base := 0x00000000#32, limit := 0x0000FFFF#32, ar := 0x93#8, b := false, valid := false }

/-- The state after reset. The spec gives no reset value (R23, R130): these are the family's (93_implementation_defined.md
G21), zero for the general registers but EDX, an empty fault record and a clear refusal mark (R131); log entries 3 to
6. -/
def State.reset : State :=
  { regs := { eax := 0#32, ecx := 0#32, edx := 0x00000300#32, ebx := 0#32, esp := 0#32, ebp := 0#32, esi := 0#32,
              edi := 0#32 }
    eip := 0x0000FFF0#32
    cs := { sel := 0xF000#16, base := 0xFFFF0000#32, limit := 0x0000FFFF#32, ar := 0x93#8, d := false }
    ds := State.resetSeg
    es := State.resetSeg
    fs := State.resetSeg
    gs := State.resetSeg
    ss := State.resetSeg
    pe := false
    vm := false
    flags := 0x00000002#32
    gdtr := { base := 0#32, limit := 0xFFFF#16 }
    ldtr := { sel := 0#16, base := 0#32, limit := 0x0000FFFF#32 }
    tr := { sel := 0#16, base := 0#32, limit := 0x0000FFFF#32, ar := 0x8B#8 }
    paging := false
    pagingContext := 0#32
    mem := []
    faultRecord := none
    refusalMark := none
    taskSwitches := 0 }

end Sys2Proof.Machine
end

