-- ==== Sys2Proof/Machine/Flags.lean ====
section
/-!
DEFINITION. What a JMP reads of the status of the machine: the mode that PE and VM decide (R2, R16), CPL (R17), and the
level of an access (R35). No form of JMP computes a flag: it writes none, or has all replaced by a task switch (R19, R95).
-/

namespace Sys2Proof.Machine

/-- The three modes (R2). -/
inductive Mode where
  | real
  | v86
  /-- Protected mode, not V86 mode. -/
  | prot
deriving DecidableEq, Repr

/-- The mode: VM is consulted only when PE is 1 (R2). -/
def State.mode (s : State) : Mode :=
  match s.pe, s.vm with
  | false, _ => .real
  | true, true => .v86
  | true, false => .prot

/-- CPL, the two low bits of CS.sel (R17). Consulted in protected mode only. -/
def State.cpl (s : State) : BitVec 2 := s.cs.sel.extractLsb' 0 2

/-- The level of the program's own accesses: user at CPL 3, supervisor below (R35). In V86 mode user: PRESUMED, unsafe,
log entry 8. -/
def accessLevel (s : State) : Config.Level :=
  match s.mode with
  | .real => .supervisor
  | .v86 => .user
  | .prot => if s.cpl = 3#2 then .user else .supervisor

/-- The exception of an offset beyond `CS.limit`: `#GP(0)` in protected mode, Interrupt 13 in the other two (R34, R76). -/
def limitException (s : State) : Exception :=
  match s.mode with
  | .prot => .gp 0#16
  | .real => .interrupt13
  | .v86 => .interrupt13

end Sys2Proof.Machine
end

