-- ==== Sys2Proof/Machine/Ops.lean ====
section
/-!
DEFINITION. The named operations over memory and registers: bytes of memory, translation, little-endian reads, the updates
of the state, raising an exception, refusing, and the context a task switch replaces.
-/

namespace Sys2Proof.Machine

/-! ### Memory -/

/-- What an address no cell lists reads as. DESIGN CHOICE, log entry 4. -/
def unlistedByte : Byte := 0#8

/-- The byte at a physical address (R30). -/
def memRead : Memory → Nat → Byte
  | [], _ => unlistedByte
  | (k, b) :: m, a => if k = a then b else memRead m a

/-- Writes one byte, keeping the cells sorted and listing no `unlistedByte`. -/
def memWrite : Memory → Nat → Byte → Memory
  | [], a, v => if v = unlistedByte then [] else [(a, v)]
  | (k, b) :: m, a, v =>
    if k < a then (k, b) :: memWrite m a v
    else if k = a then (if v = unlistedByte then m else (a, v) :: m)
    else if v = unlistedByte then (k, b) :: m
    else (a, v) :: (k, b) :: m

/-- Writes bytes at physical addresses, in order. -/
def memWriteAll (m : Memory) (ws : List (Word × Byte)) : Memory :=
  ws.foldl (fun m w => memWrite m w.1.toNat w.2) m

/-- The cells of `m` stand at addresses from `lo` up, strictly rising, below 2^32, and none is `unlistedByte`. -/
def cellsFrom (lo : Nat) : Memory → Bool
  | [] => true
  | (k, b) :: m => decide (lo ≤ k) && decide (k < 2 ^ 32) && decide (b ≠ unlistedByte) && cellsFrom (k + 1) m

/-- The canonical form of memory. -/
def Memory.wf (m : Memory) : Bool := cellsFrom 0 m

/-! ### Linear addresses -/

/-- `Translate` (R35): in real-address mode there is no paging (R33), and without paging it is the identity; otherwise it
is the open parameter (log entry 5). -/
def translate (s : State) (lin : Word) (kind : Config.Access) (level : Config.Level) : Except HalfWord Word :=
  if s.pe && s.paging then Config.translate s.pagingContext s.mem lin kind level else .ok lin

/-- The bytes at `n` linear addresses from `lin`, in address order, each through `Translate` (R31, R33, R120). The address
wraps modulo 2^32: DEDUCED, log entry 13. -/
def readLinear (s : State) (kind : Config.Access) (level : Config.Level) : Word → Nat → Except Exception (List Byte)
  | _, 0 => .ok []
  | lin, n + 1 =>
    match translate s lin kind level with
    | .error code => .error (.pf code)
    | .ok phys =>
      match readLinear s kind level (lin + 1#32) n with
      | .error e => .error e
      | .ok bs => .ok (memRead s.mem phys.toNat :: bs)

/-- The number some bytes hold, lowest first (R31). -/
def leNat : List Byte → Nat
  | [] => 0
  | b :: bs => b.toNat + 256 * leNat bs

/-- `MemRead(lin, n)` as a `w`-bit number (R31). -/
def leValue (w : Nat) (bs : List Byte) : BitVec w := BitVec.ofNat w (leNat bs)

/-! ### Registers and updates -/

/-- `x[i]` (R15). -/
def readReg (s : State) : Reg → Word
  | .eax => s.regs.eax | .ecx => s.regs.ecx | .edx => s.regs.edx | .ebx => s.regs.ebx
  | .esp => s.regs.esp | .ebp => s.regs.ebp | .esi => s.regs.esi | .edi => s.regs.edi

/-- `x[i][15:0]`, the 16-bit name of a general register (R15). -/
def readReg16 (s : State) (r : Reg) : HalfWord := (readReg s r).extractLsb' 0 16

def setEip (s : State) (t : Word) : State := { s with eip := t }

def setCs (s : State) (cs : Config.CodeSeg) : State := { s with cs := cs }

def setMem (s : State) (m : Memory) : State := { s with mem := m }

/-! ### Raising and refusing -/

/-- The vector of an exception (R111). -/
def vectorOf : Exception → Nat
  | .invalidOpcode => 6
  | .interrupt13 => 13
  | .ts _ => 10
  | .np _ => 11
  | .ss _ => 12
  | .gp _ => 13
  | .pf _ => 14

/-- The error code of an exception (R112); Interrupt 13 has none in real-address mode and 0 in V86 mode (R111). -/
def codeOf (pe : Bool) : Exception → Option HalfWord
  | .invalidOpcode => none
  | .interrupt13 => if pe then some 0#16 else none
  | .ts c => some c
  | .np c => some c
  | .ss c => some c
  | .gp c => some c
  | .pf c => some c

/-- `ErrCode(x) = x AND FFFCH` (R112). -/
def errCode (sel : Selector) : HalfWord := sel &&& 0xFFFC#16

/-- Taking an exception, `raise` (R22, R122): the fault record is set and nothing else changes. `jmpEip` is the EIP of the
JMP; it is `s.eip` but after a task switch (log entry 7). -/
def takeException (s : State) (jmpEip : Word) (e : Exception) : State :=
  { s with faultRecord := some { vector := vectorOf e, code := codeOf s.pe e, eip := jmpEip, csSel := s.cs.sel } }

/-- `refuse` (R8, R22): the refusal mark is set and nothing else changes. -/
def markRefused (s : State) (r : RejectReason) : State := { s with refusalMark := some r }

/-- The outcome of a JMP: its next state, or the exception it raised taken at its own EIP (R121). -/
def finish (s : State) : Except Exception State → Host.Outcome State Fault Refusal
  | .ok t => .next t
  | .error e => .next (takeException s s.eip e)

/-! ### The task context -/

/-- What a task switch replaces, as it stands (R93). -/
def taskContext (s : State) : Config.TaskContext :=
  { regs := s.regs, eip := s.eip, cs := s.cs, ds := s.ds, es := s.es, fs := s.fs, gs := s.gs, ss := s.ss, vm := s.vm,
    flags := s.flags, ldtr := s.ldtr, tr := s.tr, paging := s.paging, pagingContext := s.pagingContext }

/-- The state after `SwitchTasks` left the outcome `r` (R93): the whole context replaced, its bytes written, the counter of
the free value advanced. PE and GDTR stay (R16, R18). -/
def applySwitch (s : State) (r : Config.SwitchOutcome) : State :=
  { s with
    regs := r.context.regs
    eip := r.context.eip
    cs := r.context.cs
    ds := r.context.ds
    es := r.context.es
    fs := r.context.fs
    gs := r.context.gs
    ss := r.context.ss
    vm := r.context.vm
    flags := r.context.flags
    ldtr := r.context.ldtr
    tr := r.context.tr
    paging := r.context.paging
    pagingContext := r.context.pagingContext
    mem := memWriteAll s.mem r.writes
    taskSwitches := s.taskSwitches + 1 }

/-- An exception raised inside `SwitchTasks` (R93, R116). -/
def switchException : Config.SwitchFault → Exception
  | .ts c => .ts c
  | .gp c => .gp c
  | .np c => .np c
  | .ss c => .ss c
  | .pf c => .pf c

end Sys2Proof.Machine
end

