-- ==== Sys2Proof/Machine/Descriptors.lean ====
section
/-!
DEFINITION. Selectors, descriptor tables, segment and gate descriptors (R39 to R46).
-/

namespace Sys2Proof.Machine

/-! ### Selectors (R39, R40) -/

/-- The selector index, bits 15:3 (R39). -/
def selIndex (sel : Selector) : BitVec 13 := sel.extractLsb' 3 13

/-- The local/global bit, bit 2: true is local (R39). -/
def selLocal (sel : Selector) : Bool := sel.getLsbD 2

/-- RPL, bits 1:0 (R39). -/
def selRpl (sel : Selector) : BitVec 2 := sel.extractLsb' 0 2

/-- A null selector: bits 15:2 are zero (R40). -/
def selNull (sel : Selector) : Bool := decide (sel.extractLsb' 2 14 = 0#14)

/-- `sel[15:2] ++ CPL`: the selector with its RPL field set (R89). -/
def setRpl (sel : Selector) (cpl : BitVec 2) : Selector := sel.extractLsb' 2 14 ++ cpl

/-! ### Descriptor tables (R18, R41) -/

/-- The base of the table a selector names. -/
def tableBase (s : State) (sel : Selector) : Word := if selLocal sel then s.ldtr.base else s.gdtr.base

/-- `WithinTable(sel)` (R41): the table is usable and the whole entry lies within its limit. -/
def withinTable (s : State) (sel : Selector) : Bool :=
  if selLocal sel then !selNull s.ldtr.sel && decide ((selIndex sel).toNat * 8 + 7 ≤ s.ldtr.limit.toNat)
  else decide ((selIndex sel).toNat * 8 + 7 ≤ s.gdtr.limit.toNat)

/-- The linear address of the descriptor a selector indexes (R41). -/
def descAddr (s : State) (sel : Selector) : Word := tableBase s sel + (selIndex sel).setWidth 32 * 8#32

/-- `Desc(sel)` (R41): 8 bytes read at supervisor level, checked against no segment. -/
def readDesc (s : State) (sel : Selector) : Except Exception Descriptor :=
  match readLinear s .read .supervisor (descAddr s sel) 8 with
  | .error e => .error e
  | .ok bs => .ok (leValue 64 bs)

/-! ### Fields of a descriptor (R42, R43) -/

/-- The AR byte, byte 5. -/
def descAr (d : Descriptor) : Byte := d.extractLsb' 40 8

/-- P, the present bit: AR bit 7. -/
def arPresent (ar : Byte) : Bool := ar.getLsbD 7

/-- DPL: AR bits 6:5. -/
def arDpl (ar : Byte) : BitVec 2 := ar.extractLsb' 5 2

/-- The accessed bit of a code segment: AR bit 0 (R44, R94). -/
def arAccessed (ar : Byte) : Bool := ar.getLsbD 0

/-- The base address of a segment descriptor. -/
def descBase (d : Descriptor) : Word := d.extractLsb' 56 8 ++ d.extractLsb' 16 24

/-- `limit20`. -/
def descLimit20 (d : Descriptor) : BitVec 20 := d.extractLsb' 48 4 ++ d.extractLsb' 0 16

/-- `Limit(d)`, in bytes: scaled by 4096 when G is set. -/
def descLimit (d : Descriptor) : Word :=
  if d.getLsbD 55 then (descLimit20 d).setWidth 32 * 4096#32 + 4095#32 else (descLimit20 d).setWidth 32

/-- D, the default size. -/
def descD (d : Descriptor) : Bool := d.getLsbD 54

/-- The selector held in a gate (R43). -/
def gateSelector (g : Descriptor) : Selector := g.extractLsb' 16 16

/-- The 32-bit offset held in a call gate (R43). -/
def gateOffset (g : Descriptor) : Word := g.extractLsb' 48 16 ++ g.extractLsb' 0 16

/-! ### Classification (R44, R45) -/

/-- The five targets of a protected-mode far JMP, and the illegal AR byte (R44). -/
inductive DescClass where
  | conforming
  | nonconforming
  | callGate
  | taskGate
  | taskState
  | illegal
deriving DecidableEq, Repr

/-- `S` and bit 3 of the type are set: a code segment (R44, R90). -/
def arCode (ar : Byte) : Bool := ar.getLsbD 4 && ar.getLsbD 3

/-- The conforming bit of a code segment: AR bit 2 (R44). -/
def arConforming (ar : Byte) : Bool := ar.getLsbD 2

/-- `Classify(ar)` (R44). -/
def classify (ar : Byte) : DescClass :=
  if ar.getLsbD 4 then
    if arCode ar then (if arConforming ar then .conforming else .nonconforming) else .illegal
  else
    match (ar.extractLsb' 0 4).toNat with
    | 4 => .callGate
    | 12 => .callGate
    | 5 => .taskGate
    | 1 => .taskState
    | 9 => .taskState
    | 3 => .taskState
    | 11 => .taskState
    | _ => .illegal

/-- An available TSS: `ar[4:0]` is one of `AvailableTSSPatterns` (R45). -/
def arAvailableTss (ar : Byte) : Bool := Config.availableTSSPatterns.contains (ar.extractLsb' 0 5)

end Sys2Proof.Machine
end

