-- ==== Sys2Proof/Machine/Operands.lean ====
section
/-!
DEFINITION. The operands of JMP: effective addresses (R58, R59), the segment of a memory operand (R60), the checked read
through a segment (R33), the register and memory operands of the near indirect forms (R57, R74, R75) and the far pointers
of the far indirect forms (R38).
-/

namespace Sys2Proof.Machine

/-! ### Effective addresses -/

/-- The register sum of a 16-bit addressing form (R58). -/
def base16Value (s : State) : Base16 → HalfWord
  | .bxSi => readReg16 s .ebx + readReg16 s .esi
  | .bxDi => readReg16 s .ebx + readReg16 s .edi
  | .bpSi => readReg16 s .ebp + readReg16 s .esi
  | .bpDi => readReg16 s .ebp + readReg16 s .edi
  | .si => readReg16 s .esi
  | .di => readReg16 s .edi
  | .bp => readReg16 s .ebp
  | .bx => readReg16 s .ebx

def disp16Value : Disp16 → HalfWord
  | .none => 0#16
  | .d8 v => v.signExtend 16
  | .d16 v => v

/-- The effective address of a 16-bit addressing form, modulo 2^16 (R58). -/
def effAddr16 (s : State) : Addr16 → HalfWord
  | .direct disp => disp
  | .based b disp => base16Value s b + disp16Value disp

def disp32Value : Disp32 → Word
  | .none => 0#32
  | .d8 v => v.signExtend 32
  | .d32 v => v

/-- The scaled index: `x[index] * 2^scale`, 0 without an index (R59). -/
def indexValue (s : State) (scale : BitVec 2) : Option Reg → Word
  | none => 0#32
  | some r => readReg s r <<< scale.toNat

/-- The effective address of a 32-bit addressing form, modulo 2^32 (R59). -/
def effAddr32 (s : State) : Addr32 → Word
  | .direct disp => disp
  | .based b disp => readReg s b + disp32Value disp
  | .sib scale index b disp => readReg s b + indexValue s scale index + disp32Value disp
  | .sibNoBase scale index disp => indexValue s scale index + disp

/-- The offset of a memory operand, zero-extended to 32 bits (R30, R33). -/
def effAddr (s : State) : Addr → Word
  | .a16 a => (effAddr16 s a).setWidth 32
  | .a32 a => effAddr32 s a

/-! ### Segments -/

/-- The default segment of a 16-bit form: SS when BP is a base (R58). -/
def defaultSeg16 : Addr16 → SegReg
  | .direct _ => .ds
  | .based .bpSi _ => .ss
  | .based .bpDi _ => .ss
  | .based .bp _ => .ss
  | .based .bxSi _ => .ds
  | .based .bxDi _ => .ds
  | .based .si _ => .ds
  | .based .di _ => .ds
  | .based .bx _ => .ds

/-- SS for the base registers ESP and EBP, DS for the others (R59). -/
def baseSeg (b : Reg) : SegReg := if b = .esp ∨ b = .ebp then .ss else .ds

/-- The default segment of a 32-bit form; an index register never changes it (R59). -/
def defaultSeg32 : Addr32 → SegReg
  | .direct _ => .ds
  | .based b _ => baseSeg b
  | .sib _ _ b _ => baseSeg b
  | .sibNoBase _ _ _ => .ds

def defaultSeg : Addr → SegReg
  | .a16 a => defaultSeg16 a
  | .a32 a => defaultSeg32 a

/-- The segment register of a memory operand: the override, or the default (R60). -/
def operandSeg (m : MemOperand) : SegReg := m.override.getD (defaultSeg m.addr)

/-- A segment register as an operand read sees it. CS has no validity mark (R13): it is never null; DEDUCED, safe or unsafe
as log entry 9 says. -/
def segView (s : State) : SegReg → Config.DataSeg
  | .cs => { sel := s.cs.sel, base := s.cs.base, limit := s.cs.limit, ar := s.cs.ar, b := s.cs.d, valid := true }
  | .ds => s.ds
  | .es => s.es
  | .fs => s.fs
  | .gs => s.gs
  | .ss => s.ss

/-- `Readable(ar)`: a data segment, or a code segment with its readable bit set (R33). -/
def arReadable (ar : Byte) : Bool := !ar.getLsbD 3 || ar.getLsbD 1

/-- `ExpandDown(ar)`: a data segment with AR bit 2 set (R33). -/
def arExpandDown (ar : Byte) : Bool := !ar.getLsbD 3 && ar.getLsbD 2

/-- `Upper(seg)` (R33). -/
def segUpper (seg : Config.DataSeg) : Nat := if seg.b then 0xFFFFFFFF else 0x0000FFFF

/-- `SegOK(seg, off, n)` (R33). The last offset is not truncated, so an operand that would wrap past 2^32 exceeds every
limit. -/
def segOK (seg : Config.DataSeg) (off : Word) (n : Nat) : Bool :=
  seg.valid && arReadable seg.ar &&
    (if arExpandDown seg.ar then decide (seg.limit.toNat < off.toNat) && decide (off.toNat + n - 1 ≤ segUpper seg)
     else decide (off.toNat + n - 1 ≤ seg.limit.toNat))

/-- The check of `SegRead` (R33): the exception it raises, if it raises one. -/
def segCheck (s : State) (seg : SegReg) (off : Word) (n : Nat) : Option Exception :=
  match s.mode with
  | .prot =>
    if segOK (segView s seg) off n then none else if seg = .ss then some (.ss 0#16) else some (.gp 0#16)
  | .real => if 0x0000FFFF < off.toNat + n - 1 then some .interrupt13 else none
  | .v86 => if 0x0000FFFF < off.toNat + n - 1 then some .interrupt13 else none

/-- `SegRead(seg, off, n)` (R33): the check of the whole operand, then its bytes. -/
def segRead (s : State) (seg : SegReg) (off : Word) (n : Nat) : Except Exception (List Byte) :=
  match segCheck s seg off n with
  | some e => .error e
  | none => readLinear s .read (accessLevel s) ((segView s seg).base + off) n

/-- The `n` bytes of a memory operand as a `8 * n`-bit number (R31, R33). -/
def readOperand (s : State) (m : MemOperand) (n : Nat) : Except Exception (BitVec (8 * n)) :=
  match segRead s (operandSeg m) (effAddr s m.addr) n with
  | .error e => .error e
  | .ok bs => .ok (leValue (8 * n) bs)

/-! ### The operands of the near indirect forms -/

/-- The operand of `JMP r/m16`, zero-extended (R57, R74). -/
def readRM16 (s : State) : RegMem → Except Exception Word
  | .reg r => .ok ((readReg16 s r).setWidth 32)
  | .mem m =>
    match readOperand s m 2 with
    | .error e => .error e
    | .ok v => .ok (v.setWidth 32)

/-- The operand of `JMP r/m32` (R57, R75). -/
def readRM32 (s : State) : RegMem → Except Exception Word
  | .reg r => .ok (readReg s r)
  | .mem m => readOperand s m 4

/-! ### Far pointers in memory (R38) -/

/-- A long pointer: selector and 32-bit offset, whose upper half is zero in the 16-bit forms (R84). -/
structure FarPointer where
  sel : Selector
  off : Word
deriving DecidableEq, Repr

/-- `m16:16`: 4 bytes, offset in the low two, selector in the high two (R38, R82). -/
def readFar16 (s : State) (m : MemOperand) : Except Exception FarPointer :=
  match readOperand s m 4 with
  | .error e => .error e
  | .ok p => .ok { sel := p.extractLsb' 16 16, off := (p.extractLsb' 0 16).setWidth 32 }

/-- `m16:32`: 6 bytes, offset in the low four, selector in the high two (R38, R83). -/
def readFar32 (s : State) (m : MemOperand) : Except Exception FarPointer :=
  match readOperand s m 6 with
  | .error e => .error e
  | .ok p => .ok { sel := p.extractLsb' 32 16, off := p.extractLsb' 0 32 }

end Sys2Proof.Machine
end

