-- ==== Sys2Proof/Machine/FarJump.lean ====
section
/-!
DEFINITION. The four far forms of JMP and the procedures they share (R80 to R97).
-/

namespace Sys2Proof.Machine

/-! ### Real-address and V86 mode -/

/-- `RealOrV86(sel, off)` (R85): limit, ar and D of CS keep their values. -/
def realOrV86 (s : State) (sel : Selector) (off : Word) : Except Exception State :=
  if s.cs.limit < off then .error .interrupt13
  else .ok (setEip (setCs s { s.cs with sel := sel, base := sel.setWidth 32 * 16#32 }) off)

/-! ### Loading CS in protected mode -/

/-- The AR byte as it is loaded: with the accessed bit, under `SetAccessed` (R89, R94). -/
def loadedAr (ar : Byte) : Byte := if Config.setAccessed then ar ||| 0x01#8 else ar

/-- The CS register `LoadCS(sel, d)` leaves (R89). -/
def loadedCs (s : State) (sel : Selector) (d : Descriptor) : Config.CodeSeg :=
  { sel := setRpl sel s.cpl, base := descBase d, limit := descLimit d, ar := loadedAr (descAr d), d := descD d }

/-- The accessed-bit write is made: the bit is clear and `SetAccessed` holds (R94). -/
def writesAccessed (d : Descriptor) : Bool := Config.setAccessed && !arAccessed (descAr d)

/-- The linear address of the AR byte of a descriptor (R94). -/
def arAddr (s : State) (sel : Selector) : Word := descAddr s sel + 5#32

/-- `LoadCS(sel, d)` and `EIP <- off` (R89), with the accessed-bit write (R94). The write goes through `Translate` (R117);
when that refuses it nothing is loaded (R121; log entry 23). -/
def loadCs (s : State) (sel : Selector) (d : Descriptor) (off : Word) : Except Exception State :=
  if writesAccessed d then
    match translate s (arAddr s sel) .write .supervisor with
    | .error code => .error (.pf code)
    | .ok phys =>
      .ok (setMem (setEip (setCs s (loadedCs s sel d)) off) (memWrite s.mem phys.toNat (loadedAr (descAr d))))
  else .ok (setEip (setCs s (loadedCs s sel d)) off)

/-! ### Code segments -/

/-- CONFORMING-CODE-SEGMENT (R87). -/
def conforming (s : State) (sel : Selector) (d : Descriptor) (off : Word) : Except Exception State :=
  if s.cpl < arDpl (descAr d) then .error (.gp (errCode sel))
  else if arPresent (descAr d) = false then .error (.np (errCode sel))
  else if descLimit d < off then .error (.gp 0#16)
  else loadCs s sel d off

/-- NONCONFORMING-CODE-SEGMENT (R88). -/
def nonconforming (s : State) (sel : Selector) (d : Descriptor) (off : Word) : Except Exception State :=
  if s.cpl < selRpl sel then .error (.gp (errCode sel))
  else if arDpl (descAr d) ≠ s.cpl then .error (.gp (errCode sel))
  else if arPresent (descAr d) = false then .error (.np (errCode sel))
  else if descLimit d < off then .error (.gp 0#16)
  else loadCs s sel d off

/-! ### Gates -/

/-- The three checks of a gate (R90, R91): DPL against CPL and RPL, present. `none` when all pass. -/
def gateCheck (s : State) (gsel : Selector) (g : Descriptor) : Option Exception :=
  if arDpl (descAr g) < s.cpl then some (.gp (errCode gsel))
  else if arDpl (descAr g) < selRpl gsel then some (.gp (errCode gsel))
  else if arPresent (descAr g) = false then some (.np (errCode gsel))
  else none

/-- The offset a call gate gives: all 32 bits, or the low 16, by the operand size (R90). -/
def gateTarget : OpSize → Descriptor → Word
  | .o32, g => gateOffset g
  | .o16, g => ((gateOffset g).extractLsb' 0 16).setWidth 32

/-- The checks of the code segment `c` that a call gate names by `csel`, and the load (R90). -/
def callGateTarget (s : State) (csel : Selector) (c : Descriptor) (t : Word) : Except Exception State :=
  if arCode (descAr c) = false then .error (.gp (errCode csel))
  else if arConforming (descAr c) = false ∧ arDpl (descAr c) ≠ s.cpl then .error (.gp (errCode csel))
  else if arConforming (descAr c) = true ∧ s.cpl < arDpl (descAr c) then .error (.gp (errCode csel))
  else if arPresent (descAr c) = false then .error (.np (errCode csel))
  else if descLimit c < t then .error (.gp 0#16)
  else loadCs s csel c t

/-- CALL-GATE (R90). -/
def callGate (s : State) (os : OpSize) (gsel : Selector) (g : Descriptor) : Except Exception State :=
  match gateCheck s gsel g with
  | some e => .error e
  | none =>
    if selNull (gateSelector g) then .error (.gp 0#16)
    else if withinTable s (gateSelector g) = false then .error (.gp (errCode (gateSelector g)))
    else match readDesc s (gateSelector g) with
      | .error e => .error e
      | .ok c => callGateTarget s (gateSelector g) c (gateTarget os g)

/-! ### Task switches -/

/-- What `SwitchTasks(tsel, td)` leaves, the free value (R93; log entry 6). -/
def switchOutcome (s : State) (tsel : Selector) (td : Descriptor) : Config.SwitchOutcome :=
  Config.switchTasks s.taskSwitches (taskContext s) s.gdtr s.mem tsel td

/-- `SwitchTasks(tsel, td)`, then the limit check in the new task (R91, R92, R93). An exception from here on leaves what
`SwitchTasks` left (R121) and is recorded with the EIP of the JMP (log entry 7). -/
def enterTask (s : State) (tsel : Selector) (td : Descriptor) : State :=
  let r := switchOutcome s tsel td
  let t := applySwitch s r
  match r.raised with
  | some e => takeException t s.eip (switchException e)
  | none => if t.cs.limit < t.eip then takeException t s.eip (.gp 0#16) else t

/-- The two checks of an available, present TSS (R91, R92), then the switch. -/
def switchToTss (s : State) (tsel : Selector) (td : Descriptor) : Except Exception State :=
  if arAvailableTss (descAr td) = false then .error (.gp (errCode tsel))
  else if arPresent (descAr td) = false then .error (.np (errCode tsel))
  else .ok (enterTask s tsel td)

/-- TASK-GATE (R91). -/
def taskGate (s : State) (gsel : Selector) (g : Descriptor) : Except Exception State :=
  match gateCheck s gsel g with
  | some e => .error e
  | none =>
    if selLocal (gateSelector g) then .error (.gp (errCode (gateSelector g)))
    else if s.gdtr.limit.toNat < (selIndex (gateSelector g)).toNat * 8 + 7 then
      .error (.gp (errCode (gateSelector g)))
    else match readDesc s (gateSelector g) with
      | .error e => .error e
      | .ok td => switchToTss s (gateSelector g) td

/-- TASK-STATE-SEGMENT (R92). -/
def taskStateSegment (s : State) (tsel : Selector) (td : Descriptor) : Except Exception State :=
  if arDpl (descAr td) < s.cpl then .error (.gp (errCode tsel))
  else if arDpl (descAr td) < selRpl tsel then .error (.gp (errCode tsel))
  else switchToTss s tsel td

/-! ### The far jump -/

/-- The five targets by the AR byte of the destination descriptor (R86). -/
def farByClass (s : State) (os : OpSize) (sel : Selector) (off : Word) (d : Descriptor) : Except Exception State :=
  match classify (descAr d) with
  | .conforming => conforming s sel d off
  | .nonconforming => nonconforming s sel d off
  | .callGate => callGate s os sel d
  | .taskGate => taskGate s sel d
  | .taskState => taskStateSegment s sel d
  | .illegal => .error (.gp (errCode sel))

/-- `Protected(sel, off)` (R86). -/
def protectedJump (s : State) (os : OpSize) (sel : Selector) (off : Word) : Except Exception State :=
  if selNull sel then .error (.gp 0#16)
  else if withinTable s sel = false then .error (.gp (errCode sel))
  else match readDesc s sel with
    | .error e => .error e
    | .ok d => farByClass s os sel off d

/-- `FarJump(sel, off)` (R84). -/
def farJump (s : State) (os : OpSize) (sel : Selector) (off : Word) : Except Exception State :=
  match s.mode with
  | .real => realOrV86 s sel off
  | .v86 => realOrV86 s sel off
  | .prot => protectedJump s os sel off

/-- A far jump through a pointer in memory (R82, R83): the operand is read and checked completely first. -/
def farIndirect (s : State) (os : OpSize) (p : Except Exception FarPointer) : Except Exception State :=
  match p with
  | .error e => .error e
  | .ok p => farJump s os p.sel p.off

/-- `JMP ptr16:16` (R80). -/
def execJmpPtr16_16 (off : BitVec 16) (sel : Selector) (s : State) : Host.Outcome State Fault Refusal :=
  finish s (farJump s .o16 sel (off.setWidth 32))

/-- `JMP ptr16:32` (R81). -/
def execJmpPtr16_32 (off : BitVec 32) (sel : Selector) (s : State) : Host.Outcome State Fault Refusal :=
  finish s (farJump s .o32 sel off)

/-- `JMP m16:16` (R82). -/
def execJmpM16_16 (m : MemOperand) (s : State) : Host.Outcome State Fault Refusal :=
  finish s (farIndirect s .o16 (readFar16 s m))

/-- `JMP m16:32` (R83). -/
def execJmpM16_32 (m : MemOperand) (s : State) : Host.Outcome State Fault Refusal :=
  finish s (farIndirect s .o32 (readFar32 s m))

end Sys2Proof.Machine
end

