-- ==== Sys2Proof/WellFormed.lean ====
section
/-!
DEFINITION. Which terms of `Instr` are instructions: those some encoding of R52 gives. The checks rule out exactly the
addressing forms whose ModR/M or SIB field values mean something else (R58, R59).
-/

namespace Sys2Proof

/-- BP alone has no `mod = 00` form: that field value is the bare disp16 (R58). -/
def Addr16.wellFormed : Addr16 → Bool
  | .direct _ => true
  | .based b disp => !(decide (b = .bp) && decide (disp = .none))

/-- Index 100 means no index, so ESP is no index register (R59). -/
def indexWellFormed (index : Option Reg) : Bool := !decide (index = some .esp)

/-- `rm = 100` announces a SIB byte, and EBP alone has no `mod = 00` form (R59). -/
def Addr32.wellFormed : Addr32 → Bool
  | .direct _ => true
  | .based b disp => !decide (b = .esp) && !(decide (b = .ebp) && decide (disp = .none))
  | .sib _ index b disp => indexWellFormed index && !(decide (b = .ebp) && decide (disp = .none))
  | .sibNoBase _ index _ => indexWellFormed index

def Addr.wellFormed : Addr → Bool
  | .a16 a => a.wellFormed
  | .a32 a => a.wellFormed

def RegMem.wellFormed : RegMem → Bool
  | .reg _ => true
  | .mem m => m.addr.wellFormed

def Instr.wellFormed : Instr → Bool
  | .jmpRel8 _ _ => true
  | .jmpRel16 _ => true
  | .jmpRel32 _ => true
  | .jmpRM16 rm => rm.wellFormed
  | .jmpRM32 rm => rm.wellFormed
  | .jmpPtr16_16 _ _ => true
  | .jmpPtr16_32 _ _ => true
  | .jmpM16_16 m => m.addr.wellFormed
  | .jmpM16_32 m => m.addr.wellFormed

end Sys2Proof
end

