-- ==== Sys2Proof/Decode.lean ====
section
/-!
DEFINITION. The decoder, total on any bytes (R51 to R66), the encoder written from the same tables, and the length of an
instruction (R61). Both take `d`, the default size `CS.D` of the code segment, because the operand size and the address
size are that default toggled by 66H and 67H (R3, R4, R53).
-/

namespace Sys2Proof

/-! ### Fields -/

/-- The general register of a 3-bit register number (R15). -/
def regOf (n : BitVec 3) : Reg :=
  match n.toNat with
  | 0 => .eax | 1 => .ecx | 2 => .edx | 3 => .ebx | 4 => .esp | 5 => .ebp | 6 => .esi | _ => .edi

/-- The number of a general register (R15). -/
def regNum : Reg → BitVec 3
  | .eax => 0 | .ecx => 1 | .edx => 2 | .ebx => 3 | .esp => 4 | .ebp => 5 | .esi => 6 | .edi => 7

/-- The register part of a 16-bit addressing form, by `rm` (R58). -/
def base16Of (rm : BitVec 3) : Base16 :=
  match rm.toNat with
  | 0 => .bxSi | 1 => .bxDi | 2 => .bpSi | 3 => .bpDi | 4 => .si | 5 => .di | 6 => .bp | _ => .bx

def base16Num : Base16 → BitVec 3
  | .bxSi => 0 | .bxDi => 1 | .bpSi => 2 | .bpDi => 3 | .si => 4 | .di => 5 | .bp => 6 | .bx => 7

/-- The SIB index register; field 100 is no index (R59). -/
def indexOf (n : BitVec 3) : Option Reg := if n = 0b100#3 then none else some (regOf n)

def indexNum : Option Reg → BitVec 3
  | none => 0b100#3
  | some r => regNum r

/-- The segment register a prefix byte names, if it is a segment override (R60). -/
def overrideOf (b : Byte) : Option SegReg :=
  if b = 0x26#8 then some .es
  else if b = 0x2E#8 then some .cs
  else if b = 0x36#8 then some .ss
  else if b = 0x3E#8 then some .ds
  else if b = 0x64#8 then some .fs
  else if b = 0x65#8 then some .gs
  else none

def overrideByte : SegReg → Byte
  | .es => 0x26#8 | .cs => 0x2E#8 | .ss => 0x36#8 | .ds => 0x3E#8 | .fs => 0x64#8 | .gs => 0x65#8

/-- `mod` and SIB scale: bits 7:6 (R56, R59). -/
def field76 (b : Byte) : BitVec 2 := b.extractLsb' 6 2

/-- `reg` and SIB index: bits 5:3 (R56, R59). -/
def field53 (b : Byte) : BitVec 3 := b.extractLsb' 3 3

/-- `rm` and SIB base: bits 2:0 (R56, R59). -/
def field20 (b : Byte) : BitVec 3 := b.extractLsb' 0 3

/-- A ModR/M or SIB byte from its three fields. -/
def packFields (hi : BitVec 2) (mid lo : BitVec 3) : Byte := hi ++ mid ++ lo

/-! ### Little-endian fields of the instruction stream (R31, R54, R55) -/

def take8 : List Byte → Option (BitVec 8 × List Byte)
  | b :: rest => some (b, rest)
  | _ => none

def take16 : List Byte → Option (BitVec 16 × List Byte)
  | b1 :: b2 :: rest => some (b2 ++ b1, rest)
  | _ => none

def take32 : List Byte → Option (BitVec 32 × List Byte)
  | b1 :: b2 :: b3 :: b4 :: rest => some (b4 ++ b3 ++ b2 ++ b1, rest)
  | _ => none

def bytes16 (v : BitVec 16) : List Byte := [v.extractLsb' 0 8, v.extractLsb' 8 8]

def bytes32 (v : BitVec 32) : List Byte :=
  [v.extractLsb' 0 8, v.extractLsb' 8 8, v.extractLsb' 16 8, v.extractLsb' 24 8]

/-! ### Addressing forms (R58, R59): `none` where more bytes are needed -/

/-- The 16-bit addressing forms (R58); `mod` is not 11. -/
def decodeAddr16 (mod : BitVec 2) (rm : BitVec 3) (bs : List Byte) : Option (Addr16 × List Byte) :=
  if mod = 0b00#2 then
    if rm = 0b110#3 then (take16 bs).map fun r => (.direct r.1, r.2)
    else some (.based (base16Of rm) .none, bs)
  else if mod = 0b01#2 then (take8 bs).map fun r => (.based (base16Of rm) (.d8 r.1), r.2)
  else (take16 bs).map fun r => (.based (base16Of rm) (.d16 r.1), r.2)

/-- The displacement of a 32-bit addressing form, by `mod` (R59). -/
def decodeDisp32 (mod : BitVec 2) (bs : List Byte) : Option (Disp32 × List Byte) :=
  if mod = 0b00#2 then some (.none, bs)
  else if mod = 0b01#2 then (take8 bs).map fun r => (.d8 r.1, r.2)
  else (take32 bs).map fun r => (.d32 r.1, r.2)

/-- What follows a ModR/M byte with `rm = 100`: the SIB byte and the displacement (R59). -/
def decodeSib (mod : BitVec 2) (s : Byte) (bs : List Byte) : Option (Addr32 × List Byte) :=
  if field20 s = 0b101#3 ∧ mod = 0b00#2 then
    (take32 bs).map fun r => (.sibNoBase (field76 s) (indexOf (field53 s)) r.1, r.2)
  else
    (decodeDisp32 mod bs).map fun r =>
      (.sib (field76 s) (indexOf (field53 s)) (regOf (field20 s)) r.1, r.2)

/-- The 32-bit addressing forms (R59); `mod` is not 11. -/
def decodeAddr32 (mod : BitVec 2) (rm : BitVec 3) (bs : List Byte) : Option (Addr32 × List Byte) :=
  if rm = 0b100#3 then
    match bs with
    | [] => none
    | s :: rest => decodeSib mod s rest
  else if rm = 0b101#3 ∧ mod = 0b00#2 then (take32 bs).map fun r => (.direct r.1, r.2)
  else (decodeDisp32 mod bs).map fun r => (.based (regOf rm) r.1, r.2)

/-- The addressing form of either address size (R4); `wide` says that the address size is 32. -/
def decodeAddr (wide : Bool) (mod : BitVec 2) (rm : BitVec 3) (bs : List Byte) : Option (Addr × List Byte) :=
  if wide then (decodeAddr32 mod rm bs).map fun r => (.a32 r.1, r.2)
  else (decodeAddr16 mod rm bs).map fun r => (.a16 r.1, r.2)

/-! ### The decoder -/

/-- The bytes before the opcode read so far (R62); `lock` is F0H (R64). -/
structure Prefixes where
  opSize : Bool
  addrSize : Bool
  seg : Option SegReg
  lock : Bool
deriving DecidableEq, Repr

/-- What a byte sequence decodes to. -/
inductive Decoded where
  /-- An instruction, and the bytes after it. -/
  | instr (i : Instr) (rest : List Byte)
  /-- The bytes are the beginning of an instruction: at least one more is needed. -/
  | incomplete
  /-- One of the two illegal encodings that raise Interrupt 6 (R64, R126). -/
  | invalidOpcode
  /-- Refused, and why (R8, R62, R65). -/
  | refused (r : RejectReason)
deriving DecidableEq, Repr

def Prefixes.empty : Prefixes := ⟨false, false, none, false⟩

/-- 67H or a segment override is present: admitted only with a memory operand (R62). -/
def needsMemory (p : Prefixes) : Bool := p.addrSize || p.seg.isSome

/-- `OperandSize = (CS.D XOR has66) ? 32 : 16` (R3). -/
def operandSize (d : Bool) (p : Prefixes) : OpSize := if d ^^ p.opSize then .o32 else .o16

/-- `AddressSize = (CS.D XOR has67) ? 32 : 16` (R4); true is 32. -/
def wideAddress (d : Bool) (p : Prefixes) : Bool := d ^^ p.addrSize

/-- A complete JMP: Interrupt 6 if F0H stands before it (R64; log entry 10). -/
def accept (p : Prefixes) (i : Instr) (rest : List Byte) : Decoded :=
  if p.lock then .invalidOpcode else .instr i rest

/-- A form without a memory operand: 67H and overrides are not admitted (R62); otherwise its immediate field. -/
def decodeImmediate {α : Type} (p : Prefixes) (field : Option (α × List Byte)) (form : α → Instr) : Decoded :=
  if needsMemory p then .refused .prefixWithoutMemory
  else match field with
    | none => .incomplete
    | some (v, rest) => accept p (form v) rest

/-- The immediate far pointer: offset first, selector last (R55). -/
def takeFar16 (bs : List Byte) : Option ((BitVec 16 × Selector) × List Byte) :=
  (take16 bs).bind fun o => (take16 o.2).map fun s => ((o.1, s.1), s.2)

def takeFar32 (bs : List Byte) : Option ((BitVec 32 × Selector) × List Byte) :=
  (take32 bs).bind fun o => (take16 o.2).map fun s => ((o.1, s.1), s.2)

/-- A memory operand after the ModR/M byte `m` (R58 to R60). -/
def decodeMem (d : Bool) (p : Prefixes) (m : Byte) (bs : List Byte) : Option (MemOperand × List Byte) :=
  (decodeAddr (wideAddress d p) (field76 m) (field20 m) bs).map fun r => (⟨r.1, p.seg⟩, r.2)

/-- A form with a memory operand, complete once the operand is. -/
def decodeMemForm (d : Bool) (p : Prefixes) (m : Byte) (bs : List Byte) (form : MemOperand → Instr) : Decoded :=
  match decodeMem d p m bs with
  | none => .incomplete
  | some (mem, rest) => accept p (form mem) rest

/-- The form of `FF /4` by operand size (R53). -/
def nearIndirectForm : OpSize → RegMem → Instr
  | .o16, rm => .jmpRM16 rm
  | .o32, rm => .jmpRM32 rm

/-- The form of `FF /5` by operand size (R53). -/
def farIndirectForm : OpSize → MemOperand → Instr
  | .o16, m => .jmpM16_16 m
  | .o32, m => .jmpM16_32 m

/-- Opcode FF after its ModR/M byte `m` (R52, R56, R57, R64, R65). The illegal register form of `/5` is Interrupt 6 whatever
stands before the opcode (log entry 11). -/
def decodeGroup (d : Bool) (p : Prefixes) (m : Byte) (bs : List Byte) : Decoded :=
  if field53 m = 0b100#3 then
    if field76 m = 0b11#2 then
      decodeImmediate p (some (regOf (field20 m), bs)) fun r => nearIndirectForm (operandSize d p) (.reg r)
    else decodeMemForm d p m bs fun mem => nearIndirectForm (operandSize d p) (.mem mem)
  else if field53 m = 0b101#3 then
    if field76 m = 0b11#2 then .invalidOpcode
    else decodeMemForm d p m bs (farIndirectForm (operandSize d p))
  else .refused (.notJmpGroup (field53 m))

/-- The opcode byte `op` and what follows it (R52, R53, R65). -/
def decodeOpcode (d : Bool) (p : Prefixes) (op : Byte) (bs : List Byte) : Decoded :=
  if op = 0xEB#8 then decodeImmediate p (take8 bs) (.jmpRel8 (operandSize d p))
  else if op = 0xE9#8 then
    match operandSize d p with
    | .o16 => decodeImmediate p (take16 bs) .jmpRel16
    | .o32 => decodeImmediate p (take32 bs) .jmpRel32
  else if op = 0xEA#8 then
    match operandSize d p with
    | .o16 => decodeImmediate p (takeFar16 bs) fun v => .jmpPtr16_16 v.1 v.2
    | .o32 => decodeImmediate p (takeFar32 bs) fun v => .jmpPtr16_32 v.1 v.2
  else if op = 0xFF#8 then
    match bs with
    | [] => .incomplete
    | m :: rest => decodeGroup d p m rest
  else .refused (.notJmpOpcode op)

/-- The bytes before the opcode, in any order, each at most once (R62), then the opcode. -/
def decodeFrom (d : Bool) (p : Prefixes) : List Byte → Decoded
  | [] => .incomplete
  | b :: rest =>
    if b = 0x66#8 then
      if p.opSize then .refused (.repeatedPrefix b) else decodeFrom d { p with opSize := true } rest
    else if b = 0x67#8 then
      if p.addrSize then .refused (.repeatedPrefix b) else decodeFrom d { p with addrSize := true } rest
    else if b = 0xF0#8 then
      if p.lock then .refused (.repeatedPrefix b) else decodeFrom d { p with lock := true } rest
    else if b = 0xF2#8 ∨ b = 0xF3#8 then .refused (.repPrefix b)
    else match overrideOf b with
      | some seg =>
        if p.seg.isSome then .refused .twoOverrides else decodeFrom d { p with seg := some seg } rest
      | none => decodeOpcode d p b rest

/-- The decoder: the instruction at the head of `bs` in a code segment whose default size is `d`. -/
def decode (d : Bool) (bs : List Byte) : Decoded := decodeFrom d .empty bs

/-! ### The encoder -/

/-- `mod` and `rm` of an addressing form, and the bytes after the ModR/M byte. -/
structure ModRM where
  mod : BitVec 2
  rm : BitVec 3
  tail : List Byte
deriving DecidableEq, Repr

def encodeAddr16 : Addr16 → ModRM
  | .direct disp => ⟨0b00#2, 0b110#3, bytes16 disp⟩
  | .based b .none => ⟨0b00#2, base16Num b, []⟩
  | .based b (.d8 v) => ⟨0b01#2, base16Num b, [v]⟩
  | .based b (.d16 v) => ⟨0b10#2, base16Num b, bytes16 v⟩

/-- `mod` and the displacement bytes of a 32-bit addressing form. -/
def encodeDisp32 : Disp32 → BitVec 2 × List Byte
  | .none => (0b00#2, [])
  | .d8 v => (0b01#2, [v])
  | .d32 v => (0b10#2, bytes32 v)

def encodeAddr32 : Addr32 → ModRM
  | .direct disp => ⟨0b00#2, 0b101#3, bytes32 disp⟩
  | .based b disp => ⟨(encodeDisp32 disp).1, regNum b, (encodeDisp32 disp).2⟩
  | .sib scale index b disp =>
    ⟨(encodeDisp32 disp).1, 0b100#3, packFields scale (indexNum index) (regNum b) :: (encodeDisp32 disp).2⟩
  | .sibNoBase scale index disp =>
    ⟨0b00#2, 0b100#3, packFields scale (indexNum index) 0b101#3 :: bytes32 disp⟩

def encodeAddr : Addr → ModRM
  | .a16 a => encodeAddr16 a
  | .a32 a => encodeAddr32 a

/-- The address size of an addressing form is 32. -/
def Addr.wide : Addr → Bool
  | .a16 _ => false
  | .a32 _ => true

/-- 66H where the operand size is not the default (R3). -/
def sizeBytes (d : Bool) (os : OpSize) : List Byte := if d = decide (os = .o32) then [] else [0x66#8]

/-- 67H where the address size is not the default (R4), and the override byte (R60). -/
def memBytes (d : Bool) (m : MemOperand) : List Byte :=
  (if d = m.addr.wide then [] else [0x67#8]) ++
    match m.override with
    | none => []
    | some seg => [overrideByte seg]

/-- Opcode FF, the ModR/M byte with opcode extension `reg`, and the rest of a memory operand. -/
def encodeMem (reg : BitVec 3) (m : MemOperand) : List Byte :=
  0xFF#8 :: packFields (encodeAddr m.addr).mod reg (encodeAddr m.addr).rm :: (encodeAddr m.addr).tail

/-- `FF /4` (R56, R57). -/
def encodeRegMem (d : Bool) (os : OpSize) : RegMem → List Byte
  | .reg r => sizeBytes d os ++ [0xFF#8, packFields 0b11#2 0b100#3 (regNum r)]
  | .mem m => sizeBytes d os ++ memBytes d m ++ encodeMem 0b100#3 m

/-- The bytes of an instruction in a code segment whose default size is `d`: 66H, 67H, override, opcode, the rest (R51,
R52). Other orders of the bytes before the opcode decode to the same instruction (R62). -/
def encode (d : Bool) : Instr → List Byte
  | .jmpRel8 os rel => sizeBytes d os ++ [0xEB#8, rel]
  | .jmpRel16 rel => sizeBytes d .o16 ++ 0xE9#8 :: bytes16 rel
  | .jmpRel32 rel => sizeBytes d .o32 ++ 0xE9#8 :: bytes32 rel
  | .jmpRM16 rm => encodeRegMem d .o16 rm
  | .jmpRM32 rm => encodeRegMem d .o32 rm
  | .jmpPtr16_16 off sel => sizeBytes d .o16 ++ 0xEA#8 :: (bytes16 off ++ bytes16 sel)
  | .jmpPtr16_32 off sel => sizeBytes d .o32 ++ 0xEA#8 :: (bytes32 off ++ bytes16 sel)
  | .jmpM16_16 m => sizeBytes d .o16 ++ memBytes d m ++ encodeMem 0b101#3 m
  | .jmpM16_32 m => sizeBytes d .o32 ++ memBytes d m ++ encodeMem 0b101#3 m

/-! ### Length (R61) -/

/-- One byte for 66H where it is needed. -/
def sizeLength (d : Bool) (os : OpSize) : Nat := if d = decide (os = .o32) then 0 else 1

/-- The displacement bytes, and the SIB byte if there is one (R58, R59). -/
def addrLength : Addr → Nat
  | .a16 (.direct _) => 2
  | .a16 (.based _ .none) => 0
  | .a16 (.based _ (.d8 _)) => 1
  | .a16 (.based _ (.d16 _)) => 2
  | .a32 (.direct _) => 4
  | .a32 (.based _ .none) => 0
  | .a32 (.based _ (.d8 _)) => 1
  | .a32 (.based _ (.d32 _)) => 4
  | .a32 (.sib _ _ _ .none) => 1
  | .a32 (.sib _ _ _ (.d8 _)) => 2
  | .a32 (.sib _ _ _ (.d32 _)) => 5
  | .a32 (.sibNoBase _ _ _) => 5

/-- The bytes 67H and override before the opcode, and opcode, ModR/M, SIB and displacement. -/
def memLength (d : Bool) (m : MemOperand) : Nat :=
  (if d = m.addr.wide then 0 else 1) + (if m.override.isSome then 1 else 0) + 2 + addrLength m.addr

def regMemLength (d : Bool) : RegMem → Nat
  | .reg _ => 2
  | .mem m => memLength d m

/-- The length of an instruction in bytes, those before the opcode included (R61; log entry 21). -/
def instrLength (d : Bool) : Instr → Nat
  | .jmpRel8 os _ => sizeLength d os + 2
  | .jmpRel16 _ => sizeLength d .o16 + 3
  | .jmpRel32 _ => sizeLength d .o32 + 5
  | .jmpRM16 rm => sizeLength d .o16 + regMemLength d rm
  | .jmpRM32 rm => sizeLength d .o32 + regMemLength d rm
  | .jmpPtr16_16 _ _ => sizeLength d .o16 + 5
  | .jmpPtr16_32 _ _ => sizeLength d .o32 + 7
  | .jmpM16_16 m => sizeLength d .o16 + memLength d m
  | .jmpM16_32 m => sizeLength d .o32 + memLength d m

/-! ### Words of the opcode table -/

/-- The bytes of a table word of `nbits` bits, byte 0 the most significant as the table's `match` has it (R52; log entry
12), with zeros after it up to the longest instruction. -/
def tableBytes (nbits w : Nat) : List Byte :=
  (((List.range (nbits / 8)).map fun k => BitVec.ofNat 8 (w >>> (8 * (nbits / 8 - 1 - k))))
    ++ List.replicate Config.maxInstructionLength 0#8).take Config.maxInstructionLength

/-- The instruction the decoder reads from a table word in a code segment of default size 16, as at reset (log entry
12). -/
def decodeTableWord (nbits w : Nat) : Option Instr :=
  match decode false (tableBytes nbits w) with
  | .instr i _ => some i
  | _ => none

end Sys2Proof
end

