-- ==== Sys2Proof/Machine/NearJump.lean ====
section
/-!
DEFINITION. The five near forms of JMP (R70 to R77).
-/

namespace Sys2Proof.Machine

/-- `next`, the address of the instruction following the JMP: EIP plus its length, modulo 2^32 (R70, R61). -/
def nextEip (s : State) (i : Instr) : Word := s.eip + BitVec.ofNat 32 (instrLength s.cs.d i)

/-- The 16-bit masking of a new EIP (R12, R71). -/
def maskEip : OpSize → Word → Word
  | .o16, t => t &&& 0x0000FFFF#32
  | .o32, t => t

/-- `NearTarget(t)` (R76): the target check, then EIP. -/
def nearTarget (s : State) (t : Word) : Except Exception State :=
  if s.cs.limit < t then .error (limitException s) else .ok (setEip s t)

/-- A near indirect jump to an operand (R74, R75): the operand is read before the target is checked. -/
def nearIndirect (s : State) (v : Except Exception Word) : Except Exception State :=
  match v with
  | .error e => .error e
  | .ok t => nearTarget s t

/-- `JMP rel8` (R71). -/
def execJmpRel8 (os : OpSize) (rel : BitVec 8) (s : State) : Host.Outcome State Fault Refusal :=
  finish s (nearTarget s (maskEip os (nextEip s (.jmpRel8 os rel) + rel.signExtend 32)))

/-- `JMP rel16` (R72). -/
def execJmpRel16 (rel : BitVec 16) (s : State) : Host.Outcome State Fault Refusal :=
  finish s (nearTarget s (maskEip .o16 (nextEip s (.jmpRel16 rel) + rel.signExtend 32)))

/-- `JMP rel32` (R73). -/
def execJmpRel32 (rel : BitVec 32) (s : State) : Host.Outcome State Fault Refusal :=
  finish s (nearTarget s (maskEip .o32 (nextEip s (.jmpRel32 rel) + rel)))

/-- `JMP r/m16` (R74). -/
def execJmpRM16 (rm : RegMem) (s : State) : Host.Outcome State Fault Refusal :=
  finish s (nearIndirect s (readRM16 s rm))

/-- `JMP r/m32` (R75). -/
def execJmpRM32 (rm : RegMem) (s : State) : Host.Outcome State Fault Refusal :=
  finish s (nearIndirect s (readRM32 s rm))

end Sys2Proof.Machine
end

