-- ==== Sys2Proof/Machine/Dispatch.lean ====
section
/-!
DEFINITION. The dispatch: one arm per form of JMP.
-/

namespace Sys2Proof.Machine

/-- The meaning of an instruction, one direct call per form. -/
def exec (i : Instr) (s : State) : Host.Outcome State Fault Refusal :=
  match i with
  | .jmpRel8 os rel => Sys2Proof.Machine.execJmpRel8 os rel s
  | .jmpRel16 rel => Sys2Proof.Machine.execJmpRel16 rel s
  | .jmpRel32 rel => Sys2Proof.Machine.execJmpRel32 rel s
  | .jmpRM16 rm => Sys2Proof.Machine.execJmpRM16 rm s
  | .jmpRM32 rm => Sys2Proof.Machine.execJmpRM32 rm s
  | .jmpPtr16_16 off sel => Sys2Proof.Machine.execJmpPtr16_16 off sel s
  | .jmpPtr16_32 off sel => Sys2Proof.Machine.execJmpPtr16_32 off sel s
  | .jmpM16_16 m => Sys2Proof.Machine.execJmpM16_16 m s
  | .jmpM16_32 m => Sys2Proof.Machine.execJmpM16_32 m s

end Sys2Proof.Machine
end

