-- ==== Sys2Proof/Machine/Fetch.lean ====
section
/-!
DEFINITION. Fetching an instruction: one byte at a time, each checked against `CS.limit` and translated (R34), until the
bytes decode (R120). Placing the bytes of an instruction where the next fetch reads.
-/

namespace Sys2Proof.Machine

/-- The offset of byte `k` of the instruction (R34). -/
def fetchOffset (s : State) (k : Nat) : Word := s.eip + BitVec.ofNat 32 k

/-- The linear address of byte `k` of the instruction (R34). -/
def fetchLinear (s : State) (k : Nat) : Word := s.cs.base + fetchOffset s k

/-- `FetchByte(k)` (R34). -/
def fetchByte (s : State) (k : Nat) : Except Exception Byte :=
  if s.cs.limit < fetchOffset s k then .error (limitException s)
  else match translate s (fetchLinear s k) .fetch (accessLevel s) with
    | .error code => .error (.pf code)
    | .ok phys => .ok (memRead s.mem phys.toNat)

/-- What the fetch at CS:EIP gives. -/
inductive Fetched where
  | instr (i : Instr)
  | raised (e : Exception)
  | refused (r : RejectReason)
deriving DecidableEq, Repr

/-- Fetches byte after byte until those read so far, `acc`, decode; at most `fuel` more (R120, R63; log entry 20). -/
def fetchFrom (s : State) : Nat → List Byte → Fetched
  | fuel, acc =>
    match decode s.cs.d acc with
    | .instr i _ => .instr i
    | .invalidOpcode => .raised .invalidOpcode
    | .refused r => .refused r
    | .incomplete =>
      match fuel with
      | 0 => .refused .tooLong
      | n + 1 =>
        match fetchByte s acc.length with
        | .error e => .raised e
        | .ok b => fetchFrom s n (acc ++ [b])

/-- The instruction at CS:EIP (R34, R51, R120). -/
def fetchInstr (s : State) : Fetched := fetchFrom s Config.maxInstructionLength []

/-- The bytes `bs` written where the fetch reads bytes `k`, `k + 1`, ... of the instruction; a byte whose address does not
translate is left out. -/
def placeBytes (s : State) : Nat → List Byte → Memory → Memory
  | _, [], m => m
  | k, b :: bs, m =>
    match translate s (fetchLinear s k) .fetch (accessLevel s) with
    | .error _ => placeBytes s (k + 1) bs m
    | .ok phys => placeBytes s (k + 1) bs (memWrite m phys.toNat b)

end Sys2Proof.Machine
end

