-- ==== Sys2Proof/Machine/Step.lean ====
section
/-!
DEFINITION. One step of the machine, and the placing of a table word where the next step fetches.
-/

namespace Sys2Proof.Machine

/-- One step: nothing more executes once the fault record is set (R122, R123) or the refusal mark is (R8, R22); otherwise
the instruction at CS:EIP is fetched and executed, a fetch exception is taken at its EIP (R121), and bytes that are no
instruction of the spec set the refusal mark (R8). -/
def step (s : State) : Host.Outcome State Fault Refusal :=
  match s.faultRecord with
  | some r => .fault (.raised r)
  | none =>
    match s.refusalMark with
    | some r => .refused (.marked r)
    | none =>
      match fetchInstr s with
      | .instr i => exec i s
      | .raised e => .next (takeException s s.eip e)
      | .refused r => .next (markRefused s r)

/-- `s` with the bytes of a table word, zeros after them, at CS:EIP (log entries 12, 18). -/
def State.withFetchWord (s : State) (nbits w : Nat) : State :=
  setMem s (placeBytes s 0 (tableBytes nbits w) s.mem)

end Sys2Proof.Machine
end

