-- ==== Sys2Proof/Safety.lean ====
section
/-!
DEFINITION. The terms claims are stated in: a running state, the invariants, what raising leaves, and the operands of the
forms of JMP under one name each, so that a claim can speak of every form of one shape at once.
-/

namespace Sys2Proof.Machine

/-- The machine is running: the fault record is empty and the refusal mark is clear (R22, R131). -/
def State.running (s : State) : Prop := s.faultRecord = none ∧ s.refusalMark = none

/-- EIP lies within the code segment as long as nothing was raised (R46). -/
def State.eipWithinLimit (s : State) : Prop := s.faultRecord = none → s.eip ≤ s.cs.limit

/-- `s` with the fault record set to this vector and code, its own EIP and CS.sel, and nothing else changed (R22, R121). -/
def State.recorded (s : State) (vector : Nat) (code : Option HalfWord) : State :=
  { s with faultRecord := some { vector := vector, code := code, eip := s.eip, csSel := s.cs.sel } }

/-- `s` with the record of a limit violation of CS: vector 13, and error code 0 but in real-address mode (R76, R111). -/
def State.limitRecorded (s : State) : State := s.recorded 13 (if s.pe then some 0#16 else none)

/-- The first bytes a fetch at CS:EIP reads are `bs` (R34). -/
def fetches (s : State) (bs : List Byte) : Prop := ∀ (k : Nat) (h : k < bs.length), fetchByte s k = .ok bs[k]

/-- The segment override prefixes (R60). -/
def overrideBytes : List Byte := [0x26#8, 0x2E#8, 0x36#8, 0x3E#8, 0x64#8, 0x65#8]

/-- Bytes that may stand before an opcode in one instruction: 66H, 67H, F0H and one override, each at most once (R62, R64). -/
def leading (lead : List Byte) : Prop :=
  (∀ b ∈ lead, b ∈ [0x66#8, 0x67#8, 0xF0#8] ∨ b ∈ overrideBytes) ∧ lead.count 0x66#8 ≤ 1 ∧ lead.count 0x67#8 ≤ 1 ∧
    lead.count 0xF0#8 ≤ 1 ∧ lead.countP (fun b => overrideBytes.contains b) ≤ 1

/-- A near form of JMP (R5). -/
def isNear : Instr → Bool
  | .jmpRel8 _ _ => true
  | .jmpRel16 _ => true
  | .jmpRel32 _ => true
  | .jmpRM16 _ => true
  | .jmpRM32 _ => true
  | .jmpPtr16_16 _ _ => false
  | .jmpPtr16_32 _ _ => false
  | .jmpM16_16 _ => false
  | .jmpM16_32 _ => false

/-- The operand size of a form (R3, R52). -/
def opSizeOf : Instr → OpSize
  | .jmpRel8 os _ => os
  | .jmpRel16 _ => .o16
  | .jmpRel32 _ => .o32
  | .jmpRM16 _ => .o16
  | .jmpRM32 _ => .o32
  | .jmpPtr16_16 _ _ => .o16
  | .jmpPtr16_32 _ _ => .o32
  | .jmpM16_16 _ => .o16
  | .jmpM16_32 _ => .o32

/-- The memory operand of a form and its width in bytes (R37). -/
def memOperandOf : Instr → Option (MemOperand × Nat)
  | .jmpRM16 (.mem m) => some (m, 2)
  | .jmpRM32 (.mem m) => some (m, 4)
  | .jmpM16_16 m => some (m, 4)
  | .jmpM16_32 m => some (m, 6)
  | .jmpRM16 (.reg _) => none
  | .jmpRM32 (.reg _) => none
  | .jmpRel8 _ _ => none
  | .jmpRel16 _ => none
  | .jmpRel32 _ => none
  | .jmpPtr16_16 _ _ => none
  | .jmpPtr16_32 _ _ => none

/-- The linear address of byte `j` of a memory operand (R32, R38). -/
def operandLinear (s : State) (m : MemOperand) (j : Nat) : Word :=
  (segView s (operandSeg m)).base + effAddr s m.addr + BitVec.ofNat 32 j

/-- The code with which `Translate` refuses a linear address, if it does (R35). -/
def translateCode (s : State) (lin : Word) (kind : Config.Access) (level : Config.Level) : Option HalfWord :=
  match translate s lin kind level with
  | .error code => some code
  | .ok _ => none

/-- The code of the first byte of the descriptor of a selector, in address order, that `Translate` refuses to read (R41, R117). -/
def firstPageFault (s : State) (sel : Selector) : Option HalfWord :=
  (List.range 8).findSome? fun j => translateCode s (descAddr s sel + BitVec.ofNat 32 j) .read .supervisor

/-- The operand of a far form: its operand size, and its long pointer or the exception its read raises (R80 to R83). -/
def farOperand (s : State) : Instr → Option (OpSize × Except Exception FarPointer)
  | .jmpPtr16_16 off sel => some (.o16, .ok ⟨sel, off.setWidth 32⟩)
  | .jmpPtr16_32 off sel => some (.o32, .ok ⟨sel, off⟩)
  | .jmpM16_16 m => some (.o16, readFar16 s m)
  | .jmpM16_32 m => some (.o32, readFar32 s m)
  | .jmpRel8 _ _ => none
  | .jmpRel16 _ => none
  | .jmpRel32 _ => none
  | .jmpRM16 _ => none
  | .jmpRM32 _ => none

/-- A far JMP of operand size `os` with the pointer `p` finds the descriptor `d` in protected mode: the selector is not
null, lies within its table, and `d` is what its entry holds (R86). -/
def farFinds (s : State) (i : Instr) (os : OpSize) (p : FarPointer) (d : Descriptor) : Prop :=
  farOperand s i = some (os, .ok p) ∧ s.mode = .prot ∧ selNull p.sel = false ∧ withinTable s p.sel = true ∧
    readDesc s p.sel = .ok d

/-- The accessed-bit write of a descriptor can be made at `phys`, or is not needed (R94). -/
def accessedReady (s : State) (sel : Selector) (d : Descriptor) (phys : Word) : Prop :=
  arAccessed (descAr d) = true ∨ translate s (descAddr s sel + 5#32) .write .supervisor = .ok phys

/-- The state after a code segment is loaded (R89, R94): CS with its RPL field CPL, EIP, and the accessed bit set in memory
where it was clear; nothing else changed. -/
def State.jumpedTo (s : State) (sel : Selector) (d : Descriptor) (off phys : Word) : State :=
  { s with
    eip := off
    cs := { sel := sel.extractLsb' 2 14 ++ s.cs.sel.extractLsb' 0 2, base := descBase d, limit := descLimit d,
            ar := descAr d ||| 0x01#8, d := descD d }
    mem := if arAccessed (descAr d) then s.mem else memWrite s.mem phys.toNat (descAr d ||| 0x01#8) }

/-- The registers whose sum is the base of a 16-bit addressing form (R58). -/
def base16Regs : Base16 → List Reg
  | .bxSi => [.ebx, .esi]
  | .bxDi => [.ebx, .edi]
  | .bpSi => [.ebp, .esi]
  | .bpDi => [.ebp, .edi]
  | .si => [.esi]
  | .di => [.edi]
  | .bp => [.ebp]
  | .bx => [.ebx]

/-- The displacement of a 16-bit addressing form as a signed number (R58). -/
def disp16Int : Disp16 → Int
  | .none => 0
  | .d8 v => v.toInt
  | .d16 v => v.toInt

/-- The displacement of a 32-bit addressing form as a signed number (R59). -/
def disp32Int : Disp32 → Int
  | .none => 0
  | .d8 v => v.toInt
  | .d32 v => v.toInt

/-- The scaled index of a SIB byte as a number (R59). -/
def indexNat (s : State) (scale : BitVec 2) : Option Reg → Nat
  | none => 0
  | some r => (readReg s r).toNat * 2 ^ scale.toNat

end Sys2Proof.Machine
end

