-- ==== Sys2Proof/Certificates/Slice0/Obligations.lean ====
section
/-!
DEFINITION. The statements for the provers, from the numbered rules of spec/. Each docstring names its rules; a clause that
rests on a choice of the spec (D<n> of 92_eei_decisions.md) or of the model (log entry <n>) says so.
-/

open Sys2Proof Sys2Proof.Machine

/-! ### Encoding -/

/-- R51 to R62 (derived). Decoding the encoding of a well-formed instruction gives it back, whatever follows, in a code
segment of either default size: no bit of an operand is dropped. -/
def Obligations.EncodedInstructionDecodesBack : Prop :=
  ∀ (d : Bool) (i : Instr) (rest : List Byte), i.wellFormed = true → decode d (encode d i ++ rest) = .instr i rest

/-- R52, R58, R59, R61 (derived). What the decoder answers is well-formed, and the bytes it took are the length R61
gives. -/
def Obligations.DecodedIsWellFormedOfItsLength : Prop :=
  ∀ (d : Bool) (bs rest : List Byte) (i : Instr), decode d bs = .instr i rest →
    i.wellFormed = true ∧ bs.length = instrLength d i + rest.length

/-- R62 (derived: D20). The admitted bytes before the opcode stand in any order. -/
def Obligations.OrderOfLeadingBytesIsFree : Prop :=
  ∀ (d : Bool) (lead lead' bs rest : List Byte) (i : Instr),
    (∀ b ∈ lead, b ∈ [0x66#8, 0x67#8, 0x26#8, 0x2E#8, 0x36#8, 0x3E#8, 0x64#8, 0x65#8]) → lead.Perm lead' →
    decode d (lead ++ bs) = .instr i rest → decode d (lead' ++ bs) = .instr i rest

/-- R64, R126 (derived: D26; log entry 10). F0H before the encoding of any JMP, and F0H at any place among the bytes before the
opcode of bytes that are a JMP without it, is an invalid opcode; a step that fetches such bytes raises Interrupt 6 without an
error code, in every mode, and changes nothing else. -/
def Obligations.LockedJumpIsInvalid : Prop :=
  (∀ (d : Bool) (i : Instr) (rest : List Byte), i.wellFormed = true →
    decode d (0xF0#8 :: (encode d i ++ rest)) = .invalidOpcode) ∧
  ∀ (d : Bool) (lead bs rest : List Byte) (i : Instr),
    (∀ b ∈ lead, b ∈ [0x66#8, 0x67#8, 0x26#8, 0x2E#8, 0x36#8, 0x3E#8, 0x64#8, 0x65#8]) →
    decode d (lead ++ bs) = .instr i rest →
    decode d (lead ++ 0xF0#8 :: bs) = .invalidOpcode ∧
      ∀ s : State, s.running → s.cs.d = d → fetches s (lead ++ 0xF0#8 :: bs) → step s = .next (s.recorded 6 none)

/-- R62, R64, R65 (derived: D20, D32; log entries 10, 11; the reasons are the model's own, log entry 2). What is refused, after
any admitted bytes before the opcode, F0H among them: an opcode that is no JMP, opcode FF with another `reg`, F2H and F3H, a
second 66H, 67H or F0H, a second segment override, and 67H or an override before a form without a memory operand. -/
def Obligations.NotAdmittedBytesAreRefused : Prop :=
  ∀ (d : Bool) (lead rest : List Byte), leading lead →
    (∀ op : Byte, op ∉ [0xEB#8, 0xE9#8, 0xEA#8, 0xFF#8, 0x66#8, 0x67#8, 0xF0#8, 0xF2#8, 0xF3#8] → op ∉ overrideBytes →
      decode d (lead ++ op :: rest) = .refused (.notJmpOpcode op)) ∧
    (∀ m : Byte, field53 m ≠ 4#3 → field53 m ≠ 5#3 →
      decode d (lead ++ 0xFF#8 :: m :: rest) = .refused (.notJmpGroup (field53 m))) ∧
    (∀ b ∈ [0xF2#8, 0xF3#8], decode d (lead ++ b :: rest) = .refused (.repPrefix b)) ∧
    (∀ b ∈ [0x66#8, 0x67#8, 0xF0#8], b ∈ lead → decode d (lead ++ b :: rest) = .refused (.repeatedPrefix b)) ∧
    ((∃ g ∈ lead, g ∈ overrideBytes) → ∀ b ∈ overrideBytes, decode d (lead ++ b :: rest) = .refused .twoOverrides) ∧
    ((∃ g ∈ lead, g = 0x67#8 ∨ g ∈ overrideBytes) →
      (∀ op ∈ [0xEB#8, 0xE9#8, 0xEA#8], decode d (lead ++ op :: rest) = .refused .prefixWithoutMemory) ∧
      (∀ m : Byte, field53 m = 4#3 → field76 m = 3#2 →
        decode d (lead ++ 0xFF#8 :: m :: rest) = .refused .prefixWithoutMemory))

/-- R52, R54, R55, R58, R59 (derived). A few words of the encoding, written out. -/
def Obligations.SpecWordsDecode : Prop :=
  decode true [0xEB#8, 0x05#8] = .instr (.jmpRel8 .o32 5) [] ∧
  decode false [0xE9#8, 0x00#8, 0x80#8] = .instr (.jmpRel16 0x8000) [] ∧
  decode true [0xE9#8, 0xFB#8, 0xFF#8, 0xFF#8, 0xFF#8] = .instr (.jmpRel32 0xFFFFFFFB) [] ∧
  decode false [0xFF#8, 0x66#8, 0x02#8] = .instr (.jmpRM16 (.mem ⟨.a16 (.based .bp (.d8 2)), none⟩)) [] ∧
  decode true [0xFF#8, 0xE4#8] = .instr (.jmpRM32 (.reg .esp)) [] ∧
  decode false [0xEA#8, 0x78#8, 0x56#8, 0x34#8, 0x12#8] = .instr (.jmpPtr16_16 0x5678 0x1234) [] ∧
  decode true [0xEA#8, 0x00#8, 0x00#8, 0x10#8, 0x00#8, 0x08#8, 0x00#8] = .instr (.jmpPtr16_32 0x00100000 0x0008) [] ∧
  decode false [0xFF#8, 0x2E#8, 0x00#8, 0x30#8] = .instr (.jmpM16_16 ⟨.a16 (.direct 0x3000), none⟩) [] ∧
  decode true [0x36#8, 0xFF#8, 0x2C#8, 0x8D#8, 0x00#8, 0x40#8, 0x00#8, 0x00#8] =
    .instr (.jmpM16_32 ⟨.a32 (.sibNoBase 2 (some .ecx) 0x4000), some .ss⟩) []

/-! ### Fetch and step -/

/-- R7, R8, R22, R123 (derived: log entries 1, 2). One step: a machine with a fault record or a refusal mark stops; otherwise
the fetched instruction is executed by `exec` with nothing around it, a fetch exception is taken at EIP, and refused bytes set
the refusal mark. -/
def Obligations.StepRunsTheFetchedInstruction : Prop :=
  ∀ s : State,
    (∀ r, s.faultRecord = some r → step s = .fault (.raised r)) ∧
    (∀ r, s.faultRecord = none → s.refusalMark = some r → step s = .refused (.marked r)) ∧
    (s.running → ∀ i, fetchInstr s = .instr i → step s = exec i s) ∧
    (s.running → ∀ e, fetchInstr s = .raised e → step s = .next (takeException s s.eip e)) ∧
    (s.running → ∀ r, fetchInstr s = .refused r → step s = .next (markRefused s r))

/-- R11, R34, R51, R120 (derived). Whenever the bytes at CS:EIP decode to an instruction, the step is the execution of
exactly that instruction. -/
def Obligations.StepRunsTheDecodedBytes : Prop :=
  ∀ (s : State) (bs : List Byte) (i : Instr), s.running → decode s.cs.d bs = .instr i [] → fetches s bs →
    step s = exec i s

/-- R34, R35 (derived: D15, D37; log entry 5: `Translate` is a free value with paging on). Which byte a fetch reads, in natural
numbers: byte `k` stands at offset EIP plus `k` modulo 2^32 of CS; beyond `CS.limit` it raises `#GP(0)` in protected mode and
Interrupt 13 otherwise; within it, it is the byte at the address `Translate` gives for its linear address as an instruction
fetch, which is that linear address itself in real-address mode and without paging. The level in protected mode is user at CPL
3 and supervisor below. -/
def Obligations.FetchByteReadsTheCodeSegment : Prop :=
  ∀ (s : State) (k : Nat) (lin : Word),
    lin.toNat = (s.cs.base.toNat + (s.eip.toNat + k) % 4294967296) % 4294967296 →
    (s.cs.limit.toNat < (s.eip.toNat + k) % 4294967296 →
      fetchByte s k = .error (if s.mode = .prot then .gp 0#16 else .interrupt13)) ∧
    ((s.eip.toNat + k) % 4294967296 ≤ s.cs.limit.toNat →
      fetchByte s k = match translate s lin .fetch (accessLevel s) with
        | .error code => .error (.pf code)
        | .ok phys => .ok (memRead s.mem phys.toNat)) ∧
    (s.mode = .prot → accessLevel s = if s.cs.sel.toNat % 4 = 3 then .user else .supervisor) ∧
    (s.pe = false ∨ s.paging = false → translate s lin .fetch (accessLevel s) = .ok lin)

/-- R34, R120 (derived: D34; log entries 10, 20). While the bytes fetched are only the beginning of an instruction, an exception
of fetching the next byte is taken at EIP. That bytes are read only until they decide what the instruction is, and that such an
exception comes before the Interrupt 6 of F0H, is the model's reading (log entries 20, 10). -/
def Obligations.FetchExceptionIsTakenByteByByte : Prop :=
  ∀ (s : State) (bs : List Byte) (e : Exception), s.running → decode s.cs.d bs = .incomplete →
    fetches s bs → fetchByte s bs.length = .error e → step s = .next (takeException s s.eip e)

/-- R34, R111, R118 (derived: D37). An instruction whose first byte lies beyond `CS.limit` is not executed: Interrupt 13
without a code in real-address mode, with code 0 in V86 mode, `#GP(0)` in protected mode. -/
def Obligations.FetchBeyondLimitRaises : Prop :=
  ∀ s : State, s.running → s.cs.limit < s.eip → step s = .next s.limitRecorded

/-- R64, R126 (derived: D25, D26; log entries 10, 11, 20). Fetched bytes that decode to an invalid opcode raise Interrupt 6
without an error code, in every mode, and nothing else changes; `FF /5` with a register operand does, whatever admitted bytes
stand before the opcode. -/
def Obligations.FarRegisterFormRaisesInterrupt6 : Prop :=
  ∀ s : State, s.running →
    (∀ bs : List Byte, fetches s bs → decode s.cs.d bs = .invalidOpcode → step s = .next (s.recorded 6 none)) ∧
    (∀ (lead : List Byte) (m : Byte), leading lead → fetches s (lead ++ [0xFF#8, m]) → field53 m = 5#3 →
      field76 m = 3#2 → step s = .next (s.recorded 6 none))

/-- R8, R62, R65 (derived: D20, D32; log entries 2, 20). Fetched bytes that decode to a refusal set the refusal mark and change
nothing else: whatever the refused bytes are, and, written out, for each kind of them after any admitted bytes before the opcode.
The reason kept in the mark is the model's own (log entry 2), and no byte after the deciding one is fetched (log entry 20). -/
def Obligations.OutOfScopeBytesSetTheMark : Prop :=
  ∀ s : State, s.running →
    (∀ (bs : List Byte) (r : RejectReason), fetches s bs → decode s.cs.d bs = .refused r →
      step s = .next { s with refusalMark := some r }) ∧
    ∀ lead : List Byte, leading lead →
    (∀ op : Byte, fetches s (lead ++ [op]) →
      op ∉ [0xEB#8, 0xE9#8, 0xEA#8, 0xFF#8, 0x66#8, 0x67#8, 0xF0#8, 0xF2#8, 0xF3#8] → op ∉ overrideBytes →
      step s = .next { s with refusalMark := some (.notJmpOpcode op) }) ∧
    (∀ m : Byte, fetches s (lead ++ [0xFF#8, m]) → field53 m ≠ 4#3 → field53 m ≠ 5#3 →
      step s = .next { s with refusalMark := some (.notJmpGroup (field53 m)) }) ∧
    (∀ b ∈ [0xF2#8, 0xF3#8], fetches s (lead ++ [b]) → step s = .next { s with refusalMark := some (.repPrefix b) }) ∧
    (∀ b ∈ [0x66#8, 0x67#8, 0xF0#8], b ∈ lead → fetches s (lead ++ [b]) →
      step s = .next { s with refusalMark := some (.repeatedPrefix b) }) ∧
    ((∃ g ∈ lead, g ∈ overrideBytes) → ∀ b ∈ overrideBytes, fetches s (lead ++ [b]) →
      step s = .next { s with refusalMark := some .twoOverrides }) ∧
    ((∃ g ∈ lead, g = 0x67#8 ∨ g ∈ overrideBytes) →
      (∀ op ∈ [0xEB#8, 0xE9#8, 0xEA#8], fetches s (lead ++ [op]) →
        step s = .next { s with refusalMark := some .prefixWithoutMemory }) ∧
      (∀ m : Byte, fetches s (lead ++ [0xFF#8, m]) → field53 m = 4#3 → field76 m = 3#2 →
        step s = .next { s with refusalMark := some .prefixWithoutMemory }))

/-- R71, R127 (derived: the corner case `FEH`). `EB FE` is an endless loop: the step leaves the very same state, in every
mode (with operand size 16, where EIP has no upper half). -/
def Obligations.JumpToItselfKeepsTheState : Prop :=
  ∀ s : State, s.running → fetches s [0xEB#8, 0xFE#8] → (s.cs.d = true ∨ s.eip ≤ 0x0000FFFF#32) → step s = .next s

/-! ### Near jumps -/

/-- R70, R71, R76. `JMP rel8` completes (jmpRel8): EIP is the address of the next instruction plus the sign-extended
displacement, its upper half cleared with operand size 16, when that target is within `CS.limit`; nothing else changes. -/
def Obligations.ShortJumpReachesItsTarget : Prop :=
  ∀ (rel : BitVec 8) (s : State),
    (let next := s.eip + (if s.cs.d then 3#32 else 2#32)
     let t := (next + rel.signExtend 32) &&& 0x0000FFFF#32
     t ≤ s.cs.limit → exec (.jmpRel8 .o16 rel) s = .next { s with eip := t }) ∧
    (let next := s.eip + (if s.cs.d then 2#32 else 3#32)
     let t := next + rel.signExtend 32
     t ≤ s.cs.limit → exec (.jmpRel8 .o32 rel) s = .next { s with eip := t })

/-- R72. `JMP rel16` completes (jmpRel16): the target as an integer is EIP plus length plus the signed displacement, modulo
2^16. -/
def Obligations.Rel16JumpReachesItsTarget : Prop :=
  ∀ (rel : BitVec 16) (s : State) (t : Word),
    (t.toNat : Int) = ((s.eip.toNat : Int) + (if s.cs.d then 4 else 3) + rel.toInt) % 65536 →
    t ≤ s.cs.limit → exec (.jmpRel16 rel) s = .next { s with eip := t }

/-- R73. `JMP rel32` completes (jmpRel32): the target as an integer is EIP plus length plus the signed displacement, modulo
2^32. -/
def Obligations.Rel32JumpReachesItsTarget : Prop :=
  ∀ (rel : BitVec 32) (s : State) (t : Word),
    (t.toNat : Int) = ((s.eip.toNat : Int) + (if s.cs.d then 5 else 6) + rel.toInt) % 4294967296 →
    t ≤ s.cs.limit → exec (.jmpRel32 rel) s = .next { s with eip := t }

/-- R57, R74, R75. The near indirect forms with a register operand complete (jmpRM16, jmpRM32): `r/m16` takes the low half of
the register, zero-extended, `r/m32` the whole register. -/
def Obligations.RegisterOperandIsTheTarget : Prop :=
  ∀ (r : Reg) (s : State),
    (∀ t : Word, t.toNat = (readReg s r).toNat % 65536 → t ≤ s.cs.limit →
      exec (.jmpRM16 (.reg r)) s = .next { s with eip := t }) ∧
    (readReg s r ≤ s.cs.limit → exec (.jmpRM32 (.reg r)) s = .next { s with eip := readReg s r })

/-- R31, R33, R37, R74 (derived: log entry 13). `JMP r/m16` with a memory operand completes (jmpRM16): the operand passes its segment check, its two
bytes translate to `p 0` and `p 1`, and the target is those bytes, the lower first, zero-extended. -/
def Obligations.MemoryWordIsTheTarget : Prop :=
  ∀ (m : MemOperand) (s : State) (p : Nat → Word),
    segCheck s (operandSeg m) (effAddr s m.addr) 2 = none →
    (∀ j < 2, translate s (operandLinear s m j) .read (accessLevel s) = .ok (p j)) →
    ∀ t : Word, t.toNat = (memRead s.mem (p 0).toNat).toNat + 256 * (memRead s.mem (p 1).toNat).toNat →
    t ≤ s.cs.limit → exec (.jmpRM16 (.mem m)) s = .next { s with eip := t }

/-- R31, R33, R37, R75 (derived: log entry 13). `JMP r/m32` with a memory operand completes (jmpRM32): the target is the four bytes, lowest first. -/
def Obligations.MemoryDwordIsTheTarget : Prop :=
  ∀ (m : MemOperand) (s : State) (p : Nat → Word),
    segCheck s (operandSeg m) (effAddr s m.addr) 4 = none →
    (∀ j < 4, translate s (operandLinear s m j) .read (accessLevel s) = .ok (p j)) →
    let t : Word := memRead s.mem (p 3).toNat ++ memRead s.mem (p 2).toNat ++ memRead s.mem (p 1).toNat ++
      memRead s.mem (p 0).toNat
    t ≤ s.cs.limit → exec (.jmpRM32 (.mem m)) s = .next { s with eip := t }

/-- R76, R113 (derived: D7, D8). A near jump whose target is beyond `CS.limit` raises `#GP(0)` in protected mode and
Interrupt 13 in the other modes, and EIP keeps the offset of the JMP. -/
def Obligations.NearTargetBeyondLimitRaises : Prop :=
  ∀ s : State,
    (∀ rel : BitVec 8, s.cs.limit < (s.eip + (if s.cs.d then 3#32 else 2#32) + rel.signExtend 32) &&& 0x0000FFFF#32 →
      exec (.jmpRel8 .o16 rel) s = .next s.limitRecorded) ∧
    (∀ rel : BitVec 8, s.cs.limit < s.eip + (if s.cs.d then 2#32 else 3#32) + rel.signExtend 32 →
      exec (.jmpRel8 .o32 rel) s = .next s.limitRecorded) ∧
    (∀ rel : BitVec 16, s.cs.limit < (s.eip + (if s.cs.d then 4#32 else 3#32) + rel.signExtend 32) &&& 0x0000FFFF#32 →
      exec (.jmpRel16 rel) s = .next s.limitRecorded) ∧
    (∀ rel : BitVec 32, s.cs.limit < s.eip + (if s.cs.d then 5#32 else 6#32) + rel →
      exec (.jmpRel32 rel) s = .next s.limitRecorded) ∧
    (∀ (rm : RegMem) (t : Word), readRM16 s rm = .ok t → s.cs.limit < t →
      exec (.jmpRM16 rm) s = .next s.limitRecorded) ∧
    (∀ (rm : RegMem) (t : Word), readRM32 s rm = .ok t → s.cs.limit < t →
      exec (.jmpRM32 rm) s = .next s.limitRecorded)

/-- R77. The frame of the five near forms (jmpRel8, jmpRel16, jmpRel32, jmpRM16, jmpRM32): no flag, no general register, no
segment register, no byte of memory is written, no flag is read, and CS, CPL, PE and VM do not change. -/
def Obligations.NearJumpWritesOnlyEip : Prop :=
  ∀ (i : Instr) (s t : State), isNear i = true → exec i s = .next t →
    t.flags = s.flags ∧ t.regs = s.regs ∧ t.cs = s.cs ∧ t.ds = s.ds ∧ t.es = s.es ∧ t.fs = s.fs ∧ t.gs = s.gs ∧
    t.ss = s.ss ∧ t.pe = s.pe ∧ t.vm = s.vm ∧ t.cpl = s.cpl ∧ t.gdtr = s.gdtr ∧ t.ldtr = s.ldtr ∧ t.tr = s.tr ∧
    t.paging = s.paging ∧ t.pagingContext = s.pagingContext ∧ t.taskSwitches = s.taskSwitches ∧
    t.refusalMark = s.refusalMark ∧ (t.eip = s.eip ∨ t.faultRecord = s.faultRecord) ∧
    (∀ a, memRead t.mem a = memRead s.mem a) ∧
    ∀ f : Word, exec i { s with flags := f } = .next { t with flags := f }

/-! ### Memory operands -/

/-- R33, R111, R118, R119 (derived: D42). In real-address and V86 mode a memory operand any part of which lies beyond offset 0FFFFH raises
Interrupt 13, for each of the four forms with a memory operand, before anything else; without an error code in real-address
mode. -/
def Obligations.OperandBeyondRealSegmentRaises : Prop :=
  ∀ (i : Instr) (m : MemOperand) (n : Nat) (s : State), memOperandOf i = some (m, n) → s.mode ≠ .prot →
    0x0000FFFF < (effAddr s m.addr).toNat + n - 1 → exec i s = .next (s.recorded 13 (if s.pe then some 0#16 else none))

/-- R33, R113, R115 (derived: D29, D38; log entry 9). In protected mode an illegal memory operand raises `#SS(0)` through SS and `#GP(0)` through any other
segment register, for each of the four forms with a memory operand. -/
def Obligations.IllegalOperandRaises : Prop :=
  ∀ (i : Instr) (m : MemOperand) (n : Nat) (s : State), memOperandOf i = some (m, n) → s.mode = .prot →
    segOK (segView s (operandSeg m)) (effAddr s m.addr) n = false →
    exec i s = .next (s.recorded (if operandSeg m = .ss then 12 else 13) (some 0#16))

/-- R33 (derived: D29, D38). What makes an operand legal in protected mode, in natural numbers: not a null segment, readable,
and all of it within the limit, which an expand-down segment reverses. -/
def Obligations.LegalOperandMeaning : Prop :=
  ∀ (seg : Config.DataSeg) (off : Word) (n : Nat),
    segOK seg off n = true ↔
      seg.valid = true ∧ (seg.ar.toNat / 8 % 2 = 0 ∨ seg.ar.toNat / 2 % 2 = 1) ∧
      (if seg.ar.toNat / 4 % 4 = 1 then
        seg.limit.toNat < off.toNat ∧ off.toNat + n - 1 ≤ (if seg.b then 0xFFFFFFFF else 0xFFFF)
       else off.toNat + n - 1 ≤ seg.limit.toNat)

/-- R33, R117, R120 (derived: C10, D34; log entry 13; log entry 5: `Translate` is a free value with paging on; the statement holds for every
one). When the segment check passes, the first byte of the operand, in address order, that `Translate` refuses raises `#PF` with
the code `Translate` gives; when it refuses none, the operand is read. -/
def Obligations.OperandPageFaultRaises : Prop :=
  ∀ (i : Instr) (m : MemOperand) (n : Nat) (s : State), memOperandOf i = some (m, n) →
    segCheck s (operandSeg m) (effAddr s m.addr) n = none →
    match (List.range n).findSome? (fun j => translateCode s (operandLinear s m j) .read (accessLevel s)) with
    | some code => exec i s = .next (s.recorded 14 (some code))
    | none => ∃ v, readOperand s m n = .ok v

/-- R38, R82, R83 (derived: C2; log entry 13). The far indirect forms are the direct ones with the pointer their memory operand holds, offset in the
lower bytes and selector in the last two (jmpM16_16, jmpM16_32). -/
def Obligations.FarIndirectIsFarDirectWithThePointer : Prop :=
  ∀ (m : MemOperand) (s : State) (p : Nat → Word),
    (segCheck s (operandSeg m) (effAddr s m.addr) 4 = none →
      (∀ j < 4, translate s (operandLinear s m j) .read (accessLevel s) = .ok (p j)) →
      exec (.jmpM16_16 m) s =
        exec (.jmpPtr16_16 (memRead s.mem (p 1).toNat ++ memRead s.mem (p 0).toNat)
          (memRead s.mem (p 3).toNat ++ memRead s.mem (p 2).toNat)) s) ∧
    (segCheck s (operandSeg m) (effAddr s m.addr) 6 = none →
      (∀ j < 6, translate s (operandLinear s m j) .read (accessLevel s) = .ok (p j)) →
      exec (.jmpM16_32 m) s =
        exec (.jmpPtr16_32 (memRead s.mem (p 3).toNat ++ memRead s.mem (p 2).toNat ++ memRead s.mem (p 1).toNat ++
          memRead s.mem (p 0).toNat) (memRead s.mem (p 5).toNat ++ memRead s.mem (p 4).toNat)) s)

/-- R58 (derived: D45). The 16-bit effective address is the sum of its registers' low halves and its signed displacement,
modulo 2^16. -/
def Obligations.EffectiveAddress16 : Prop :=
  ∀ (s : State) (b : Base16) (disp : Disp16) (v : BitVec 16),
    ((effAddr s (.a16 (.based b disp))).toNat : Int) =
      ((((base16Regs b).map fun r => (readReg s r).toNat).sum : Nat) + disp16Int disp) % 65536 ∧
    (effAddr s (.a16 (.direct v))).toNat = v.toNat

/-- R59 (derived: D45). The 32-bit effective address is base plus scaled index plus signed displacement, modulo 2^32. -/
def Obligations.EffectiveAddress32 : Prop :=
  ∀ (s : State) (scale : BitVec 2) (index : Option Reg) (b : Reg) (disp : Disp32) (v : BitVec 32),
    ((effAddr s (.a32 (.sib scale index b disp))).toNat : Int) =
      ((readReg s b).toNat + indexNat s scale index + disp32Int disp) % 4294967296 ∧
    ((effAddr s (.a32 (.based b disp))).toNat : Int) = ((readReg s b).toNat + disp32Int disp) % 4294967296 ∧
    (effAddr s (.a32 (.sibNoBase scale index v))).toNat = (indexNat s scale index + v.toNat) % 4294967296 ∧
    (effAddr s (.a32 (.direct v))).toNat = v.toNat

/-- R58, R59, R60 (derived: D44). The segment of a memory operand: the override if there is one; else SS exactly when BP,
EBP or ESP is a base. -/
def Obligations.OperandSegment : Prop :=
  (∀ (a : Addr) (g : SegReg), operandSeg ⟨a, some g⟩ = g) ∧
  (∀ (b : Base16) (disp : Disp16), operandSeg ⟨.a16 (.based b disp), none⟩ =
    if .ebp ∈ base16Regs b then .ss else .ds) ∧
  (∀ v : BitVec 16, operandSeg ⟨.a16 (.direct v), none⟩ = .ds) ∧
  (∀ (b : Reg) (disp : Disp32), operandSeg ⟨.a32 (.based b disp), none⟩ = if b ∈ [.esp, .ebp] then .ss else .ds) ∧
  (∀ (scale : BitVec 2) (index : Option Reg) (b : Reg) (disp : Disp32),
    operandSeg ⟨.a32 (.sib scale index b disp), none⟩ = if b ∈ [.esp, .ebp] then .ss else .ds) ∧
  (∀ (scale : BitVec 2) (index : Option Reg) (v : BitVec 32),
    operandSeg ⟨.a32 (.sibNoBase scale index v), none⟩ = .ds) ∧
  ∀ v : BitVec 32, operandSeg ⟨.a32 (.direct v), none⟩ = .ds

/-! ### Far jumps in real-address and V86 mode -/

/-- R80 to R85 (derived: D8, D28). A far jump in real-address or V86 mode completes (jmpPtr16_16, jmpPtr16_32, jmpM16_16,
jmpM16_32): CS takes the selector and 16 times it as base, EIP the offset, and nothing else changes, the other hidden fields of
CS included. An offset beyond `CS.limit` raises Interrupt 13 and loads nothing. -/
def Obligations.UnprotectedFarJump : Prop :=
  ∀ (i : Instr) (os : OpSize) (p : FarPointer) (s : State), farOperand s i = some (os, .ok p) → s.mode ≠ .prot →
    (p.off ≤ s.cs.limit → ∀ base : Word, base.toNat = p.sel.toNat * 16 →
      exec i s = .next { s with eip := p.off, cs := { s.cs with sel := p.sel, base := base } }) ∧
    (s.cs.limit < p.off → exec i s = .next s.limitRecorded)

/-- R85, R119. In real-address and V86 mode no JMP consults a descriptor table: with other GDT and LDT registers it does the
same. -/
def Obligations.UnprotectedModesIgnoreTheTables : Prop :=
  ∀ (i : Instr) (s t : State) (g : Config.TableReg) (l : Config.LdtReg), s.mode ≠ .prot → exec i s = .next t →
    exec i { s with gdtr := g, ldtr := l } = .next { t with gdtr := g, ldtr := l }

/-! ### Descriptors -/

/-- R39, R40, R41 (derived: D11, D39; log entry 24: R41 says the LDT is usable only if its selector is not null, the model takes
exactly then). When a selector lies within its table, when it is null, and at which linear address its descriptor stands (modulo
2^32: log entry 13), in natural numbers. -/
def Obligations.WithinTableMeaning : Prop :=
  ∀ (s : State) (sel : Selector),
    (sel.toNat / 4 % 2 = 0 → (withinTable s sel = true ↔ sel.toNat / 8 * 8 + 7 ≤ s.gdtr.limit.toNat)) ∧
    (sel.toNat / 4 % 2 = 1 → (withinTable s sel = true ↔
      4 ≤ s.ldtr.sel.toNat ∧ sel.toNat / 8 * 8 + 7 ≤ s.ldtr.limit.toNat)) ∧
    (selNull sel = true ↔ sel.toNat ≤ 3) ∧
    (descAddr s sel).toNat =
      ((if sel.toNat / 4 % 2 = 1 then s.ldtr.base else s.gdtr.base).toNat + sel.toNat / 8 * 8) % 4294967296

/-- R31, R41, R42, R43 (derived: D12, D39; log entry 13). The fields of a descriptor, from its eight bytes `b 0` to `b 7` in memory. -/
def Obligations.DescriptorFields : Prop :=
  ∀ (s : State) (sel : Selector) (p : Nat → Word),
    (∀ j < 8, translate s (descAddr s sel + BitVec.ofNat 32 j) .read .supervisor = .ok (p j)) →
    let b := fun j => memRead s.mem (p j).toNat
    let limit20 := (b 6).toNat % 16 * 65536 + (b 1).toNat * 256 + (b 0).toNat
    ∃ d, readDesc s sel = .ok d ∧ descAr d = b 5 ∧ descBase d = b 7 ++ b 4 ++ b 3 ++ b 2 ∧
      (descLimit d).toNat = (if (b 6).toNat / 128 = 1 then limit20 * 4096 + 4095 else limit20) ∧
      (descD d = true ↔ (b 6).toNat / 64 % 2 = 1) ∧ gateSelector d = b 3 ++ b 2 ∧
      gateOffset d = b 7 ++ b 6 ++ b 1 ++ b 0

/-- R44, R45 (derived: C4, D12, D13). The classification of an AR byte by its S bit and type, and the available TSS. -/
def Obligations.ArClassification : Prop :=
  ∀ ar : Byte,
    classify ar =
      (if ar.toNat / 16 % 2 = 1 then
        (if ar.toNat % 16 ∈ [8, 9, 10, 11] then .nonconforming
         else if ar.toNat % 16 ∈ [12, 13, 14, 15] then .conforming else .illegal)
       else if ar.toNat % 16 ∈ [4, 12] then .callGate
       else if ar.toNat % 16 = 5 then .taskGate
       else if ar.toNat % 16 ∈ [1, 3, 9, 11] then .taskState
       else .illegal) ∧
    (arAvailableTss ar = true ↔ ar.toNat % 32 ∈ [1, 9])

/-! ### Far jumps in protected mode -/

/-- R86, R112, R113 (derived: D24). The prologue of a protected-mode far jump: a null selector raises `#GP(0)`; one outside its
table, and one whose descriptor has an illegal AR byte, raises `#GP(selector)`; a page fault of the descriptor read is taken. -/
def Obligations.ProtectedPrologueRaises : Prop :=
  ∀ (i : Instr) (os : OpSize) (p : FarPointer) (s : State), farOperand s i = some (os, .ok p) → s.mode = .prot →
    (p.sel.toNat ≤ 3 → exec i s = .next (s.recorded 13 (some 0#16))) ∧
    (3 < p.sel.toNat → withinTable s p.sel = false → exec i s = .next (s.recorded 13 (some (p.sel &&& 0xFFFC#16)))) ∧
    (3 < p.sel.toNat → withinTable s p.sel = true →
      match readDesc s p.sel with
      | .error e => exec i s = .next (takeException s s.eip e)
      | .ok d => classify (descAr d) = .illegal → exec i s = .next (s.recorded 13 (some (p.sel &&& 0xFFFC#16))))

/-- R88, R89, R94 (derived: D12, D23, D40; log entry 16). A far jump to a nonconforming code segment: the checks in order, each with its exception; when all pass
(and the accessed-bit write, where it is needed, translates) it completes (jmpPtr16_16, jmpPtr16_32, jmpM16_16, jmpM16_32):
CS:EIP is loaded from the pointer, CS gets the new descriptor and the RPL field of CS is CPL. -/
def Obligations.NonconformingSegmentJump : Prop :=
  ∀ (i : Instr) (os : OpSize) (p : FarPointer) (s : State) (d : Descriptor), farFinds s i os p d →
    classify (descAr d) = .nonconforming →
    (s.cpl < selRpl p.sel → exec i s = .next (s.recorded 13 (some (p.sel &&& 0xFFFC#16)))) ∧
    (selRpl p.sel ≤ s.cpl → arDpl (descAr d) ≠ s.cpl → exec i s = .next (s.recorded 13 (some (p.sel &&& 0xFFFC#16)))) ∧
    (selRpl p.sel ≤ s.cpl → arDpl (descAr d) = s.cpl →
      (arPresent (descAr d) = false → exec i s = .next (s.recorded 11 (some (p.sel &&& 0xFFFC#16)))) ∧
      (arPresent (descAr d) = true → descLimit d < p.off → exec i s = .next (s.recorded 13 (some 0#16))) ∧
      (arPresent (descAr d) = true → p.off ≤ descLimit d → ∀ phys, accessedReady s p.sel d phys →
        exec i s = .next (s.jumpedTo p.sel d p.off phys)))

/-- R87, R89, R94 (derived: D9, C11, D23). A far jump to a conforming code segment: the selector's RPL is not checked; when the
checks pass it completes (jmpPtr16_16, jmpPtr16_32, jmpM16_16, jmpM16_32) with the RPL field of CS set to CPL. -/
def Obligations.ConformingSegmentJump : Prop :=
  ∀ (i : Instr) (os : OpSize) (p : FarPointer) (s : State) (d : Descriptor), farFinds s i os p d →
    classify (descAr d) = .conforming →
    (s.cpl < arDpl (descAr d) → exec i s = .next (s.recorded 13 (some (p.sel &&& 0xFFFC#16)))) ∧
    (arDpl (descAr d) ≤ s.cpl →
      (arPresent (descAr d) = false → exec i s = .next (s.recorded 11 (some (p.sel &&& 0xFFFC#16)))) ∧
      (arPresent (descAr d) = true → descLimit d < p.off → exec i s = .next (s.recorded 13 (some 0#16))) ∧
      (arPresent (descAr d) = true → p.off ≤ descLimit d → ∀ phys, accessedReady s p.sel d phys →
        exec i s = .next (s.jumpedTo p.sel d p.off phys)))

/-- R90, R112, R114 (derived: D24). The checks of a call gate before the code segment it names is read. -/
def Obligations.CallGateChecks : Prop :=
  ∀ (i : Instr) (os : OpSize) (p : FarPointer) (s : State) (g : Descriptor), farFinds s i os p g →
    classify (descAr g) = .callGate →
    (arDpl (descAr g) < s.cpl ∨ arDpl (descAr g) < selRpl p.sel →
      exec i s = .next (s.recorded 13 (some (p.sel &&& 0xFFFC#16)))) ∧
    (s.cpl ≤ arDpl (descAr g) → selRpl p.sel ≤ arDpl (descAr g) →
      (arPresent (descAr g) = false → exec i s = .next (s.recorded 11 (some (p.sel &&& 0xFFFC#16)))) ∧
      (arPresent (descAr g) = true → selNull (gateSelector g) = true → exec i s = .next (s.recorded 13 (some 0#16))) ∧
      (arPresent (descAr g) = true → selNull (gateSelector g) = false → withinTable s (gateSelector g) = false →
        exec i s = .next (s.recorded 13 (some (gateSelector g &&& 0xFFFC#16)))))

/-- R89, R90, R94 (derived: C9, D23, D33). A call gate that passes its own checks: the checks of the code segment it names, in
order; when all pass the jump completes (jmpPtr16_16, jmpPtr16_32, jmpM16_16, jmpM16_32) at the gate's offset, of which operand
size 16 takes the low 16 bits. -/
def Obligations.CallGateJump : Prop :=
  ∀ (i : Instr) (os : OpSize) (p : FarPointer) (s : State) (g c : Descriptor), farFinds s i os p g →
    classify (descAr g) = .callGate → s.cpl ≤ arDpl (descAr g) → selRpl p.sel ≤ arDpl (descAr g) →
    arPresent (descAr g) = true → selNull (gateSelector g) = false → withinTable s (gateSelector g) = true →
    readDesc s (gateSelector g) = .ok c →
    ∀ t : Word, (t.toNat = if os = .o32 then (gateOffset g).toNat else (gateOffset g).toNat % 65536) →
    (classify (descAr c) ≠ .conforming → classify (descAr c) ≠ .nonconforming →
      exec i s = .next (s.recorded 13 (some (gateSelector g &&& 0xFFFC#16)))) ∧
    (classify (descAr c) = .nonconforming → arDpl (descAr c) ≠ s.cpl →
      exec i s = .next (s.recorded 13 (some (gateSelector g &&& 0xFFFC#16)))) ∧
    (classify (descAr c) = .conforming → s.cpl < arDpl (descAr c) →
      exec i s = .next (s.recorded 13 (some (gateSelector g &&& 0xFFFC#16)))) ∧
    (classify (descAr c) = .nonconforming ∧ arDpl (descAr c) = s.cpl ∨
        classify (descAr c) = .conforming ∧ arDpl (descAr c) ≤ s.cpl →
      (arPresent (descAr c) = false → exec i s = .next (s.recorded 11 (some (gateSelector g &&& 0xFFFC#16)))) ∧
      (arPresent (descAr c) = true → descLimit c < t → exec i s = .next (s.recorded 13 (some 0#16))) ∧
      (arPresent (descAr c) = true → t ≤ descLimit c → ∀ phys, accessedReady s (gateSelector g) c phys →
        exec i s = .next (s.jumpedTo (gateSelector g) c t phys)))

/-- R97. When the selector names a call gate, a task gate or a TSS, the offset part of the pointer is not used, nor does it
matter whether the pointer came from the instruction or from memory. -/
def Obligations.GateIgnoresThePointerOffset : Prop :=
  ∀ (i j : Instr) (os : OpSize) (p q : FarPointer) (s : State) (d : Descriptor), farFinds s i os p d →
    farOperand s j = some (os, .ok q) → q.sel = p.sel → classify (descAr d) ∈ [.callGate, .taskGate, .taskState] →
    exec j s = exec i s

/-- R91, R112, R114. A far jump through a task gate: the checks in order, each with its exception; when all pass,
`SwitchTasks` is called and the new task's EIP is checked (log entries 6, 7: `SwitchTasks` is a free value; the statement holds
for every one). The jump completes (jmpPtr16_16, jmpPtr16_32, jmpM16_16, jmpM16_32) where `SwitchTasks` raises nothing. -/
def Obligations.TaskGateJump : Prop :=
  ∀ (i : Instr) (os : OpSize) (p : FarPointer) (s : State) (g : Descriptor), farFinds s i os p g →
    classify (descAr g) = .taskGate →
    (arDpl (descAr g) < s.cpl ∨ arDpl (descAr g) < selRpl p.sel →
      exec i s = .next (s.recorded 13 (some (p.sel &&& 0xFFFC#16)))) ∧
    (s.cpl ≤ arDpl (descAr g) → selRpl p.sel ≤ arDpl (descAr g) →
      (arPresent (descAr g) = false → exec i s = .next (s.recorded 11 (some (p.sel &&& 0xFFFC#16)))) ∧
      (arPresent (descAr g) = true →
        (selLocal (gateSelector g) = true → exec i s = .next (s.recorded 13 (some (gateSelector g &&& 0xFFFC#16)))) ∧
        (selLocal (gateSelector g) = false →
          s.gdtr.limit.toNat < (selIndex (gateSelector g)).toNat * 8 + 7 →
          exec i s = .next (s.recorded 13 (some (gateSelector g &&& 0xFFFC#16)))) ∧
        (selLocal (gateSelector g) = false →
          (selIndex (gateSelector g)).toNat * 8 + 7 ≤ s.gdtr.limit.toNat →
          ∀ td, readDesc s (gateSelector g) = .ok td →
          (arAvailableTss (descAr td) = false →
            exec i s = .next (s.recorded 13 (some (gateSelector g &&& 0xFFFC#16)))) ∧
          (arAvailableTss (descAr td) = true → arPresent (descAr td) = false →
            exec i s = .next (s.recorded 11 (some (gateSelector g &&& 0xFFFC#16)))) ∧
          (arAvailableTss (descAr td) = true → arPresent (descAr td) = true →
            let r := Config.switchTasks s.taskSwitches (taskContext s) s.gdtr s.mem (gateSelector g) td
            exec i s = .next (match r.raised with
              | some e => takeException (applySwitch s r) s.eip (switchException e)
              | none =>
                if r.context.cs.limit < r.context.eip then takeException (applySwitch s r) s.eip (.gp 0#16)
                else applySwitch s r)))))

/-- R92, R112, R114. A far jump to a task state segment: the checks in order, each with its exception; when all pass,
`SwitchTasks` is called and the new task's EIP is checked (log entries 6, 7: `SwitchTasks` is a free value; the statement holds
for every one). The jump completes (jmpPtr16_16, jmpPtr16_32, jmpM16_16, jmpM16_32) where `SwitchTasks` raises nothing. -/
def Obligations.TaskStateSegmentJump : Prop :=
  ∀ (i : Instr) (os : OpSize) (p : FarPointer) (s : State) (td : Descriptor), farFinds s i os p td →
    classify (descAr td) = .taskState →
    (arDpl (descAr td) < s.cpl ∨ arDpl (descAr td) < selRpl p.sel →
      exec i s = .next (s.recorded 13 (some (p.sel &&& 0xFFFC#16)))) ∧
    (s.cpl ≤ arDpl (descAr td) → selRpl p.sel ≤ arDpl (descAr td) →
      (arAvailableTss (descAr td) = false → exec i s = .next (s.recorded 13 (some (p.sel &&& 0xFFFC#16)))) ∧
      (arAvailableTss (descAr td) = true → arPresent (descAr td) = false →
        exec i s = .next (s.recorded 11 (some (p.sel &&& 0xFFFC#16)))) ∧
      (arAvailableTss (descAr td) = true → arPresent (descAr td) = true →
        let r := Config.switchTasks s.taskSwitches (taskContext s) s.gdtr s.mem p.sel td
        exec i s = .next (match r.raised with
          | some e => takeException (applySwitch s r) s.eip (switchException e)
          | none =>
            if r.context.cs.limit < r.context.eip then takeException (applySwitch s r) s.eip (.gp 0#16)
            else applySwitch s r)))

/-- R41, R86, R90, R91, R117, R120 (derived: C10, D34, D39; log entries 5, 13: `Translate` is a free value with paging on; the
statement holds for every one). Every descriptor read of a protected far jump can page-fault: the destination descriptor, the code
segment a call gate names, the TSS a task gate names. The first of its eight bytes, in address order, that `Translate` refuses
raises `#PF` with the code `Translate` gives; when it refuses none, the descriptor is read. -/
def Obligations.DescriptorPageFaultRaises : Prop :=
  (∀ (i : Instr) (os : OpSize) (p : FarPointer) (s : State), farOperand s i = some (os, .ok p) → s.mode = .prot →
    selNull p.sel = false → withinTable s p.sel = true →
    match firstPageFault s p.sel with
    | some code => exec i s = .next (s.recorded 14 (some code))
    | none => ∃ d, farFinds s i os p d) ∧
  (∀ (i : Instr) (os : OpSize) (p : FarPointer) (s : State) (g : Descriptor), farFinds s i os p g →
    classify (descAr g) = .callGate → s.cpl ≤ arDpl (descAr g) → selRpl p.sel ≤ arDpl (descAr g) →
    arPresent (descAr g) = true → selNull (gateSelector g) = false → withinTable s (gateSelector g) = true →
    match firstPageFault s (gateSelector g) with
    | some code => exec i s = .next (s.recorded 14 (some code))
    | none => ∃ c, readDesc s (gateSelector g) = .ok c) ∧
  (∀ (i : Instr) (os : OpSize) (p : FarPointer) (s : State) (g : Descriptor), farFinds s i os p g →
    classify (descAr g) = .taskGate → s.cpl ≤ arDpl (descAr g) → selRpl p.sel ≤ arDpl (descAr g) →
    arPresent (descAr g) = true → selLocal (gateSelector g) = false →
    (selIndex (gateSelector g)).toNat * 8 + 7 ≤ s.gdtr.limit.toNat →
    match firstPageFault s (gateSelector g) with
    | some code => exec i s = .next (s.recorded 14 (some code))
    | none => ∃ td, readDesc s (gateSelector g) = .ok td)

/-- R94, R117, R121 (derived: D23; log entry 23; log entry 5: `Translate` is a free value with paging on; the statement holds for
every one). The accessed-bit write of a code segment that passed every check, named by the pointer or by a call gate: when
`Translate` refuses the write of its AR byte, `#PF` with the code `Translate` gives and nothing is loaded; otherwise the jump
completes with the bit set. -/
def Obligations.AccessedBitPageFaultRaises : Prop :=
  (∀ (i : Instr) (os : OpSize) (p : FarPointer) (s : State) (d : Descriptor), farFinds s i os p d →
    (classify (descAr d) = .nonconforming ∧ selRpl p.sel ≤ s.cpl ∧ arDpl (descAr d) = s.cpl ∨
      classify (descAr d) = .conforming ∧ arDpl (descAr d) ≤ s.cpl) →
    arPresent (descAr d) = true → p.off ≤ descLimit d → arAccessed (descAr d) = false →
    match translate s (descAddr s p.sel + 5#32) .write .supervisor with
    | .error code => exec i s = .next (s.recorded 14 (some code))
    | .ok phys => exec i s = .next (s.jumpedTo p.sel d p.off phys)) ∧
  (∀ (i : Instr) (os : OpSize) (p : FarPointer) (s : State) (g c : Descriptor), farFinds s i os p g →
    classify (descAr g) = .callGate → s.cpl ≤ arDpl (descAr g) → selRpl p.sel ≤ arDpl (descAr g) →
    arPresent (descAr g) = true → selNull (gateSelector g) = false → withinTable s (gateSelector g) = true →
    readDesc s (gateSelector g) = .ok c →
    (classify (descAr c) = .nonconforming ∧ arDpl (descAr c) = s.cpl ∨
      classify (descAr c) = .conforming ∧ arDpl (descAr c) ≤ s.cpl) →
    ∀ t : Word, (t.toNat = if os = .o32 then (gateOffset g).toNat else (gateOffset g).toNat % 65536) →
    arPresent (descAr c) = true → t ≤ descLimit c → arAccessed (descAr c) = false →
    match translate s (descAddr s (gateSelector g) + 5#32) .write .supervisor with
    | .error code => exec i s = .next (s.recorded 14 (some code))
    | .ok phys => exec i s = .next (s.jumpedTo (gateSelector g) c t phys))

/-- R87, R88, R90, R96, R125 (derived: D12, D30). Whatever path loads CS in protected mode without a task switch, the code
segment loaded was read from within its table, is a present code segment of DPL equal to CPL (at most CPL if conforming), holds
the new EIP within its limit, and CPL is kept. -/
def Obligations.LoadedCodeSegmentWasChecked : Prop :=
  ∀ (i : Instr) (s t : State), exec i s = .next t → isNear i = false → s.mode = .prot →
    s.faultRecord = none → t.faultRecord = none → t.taskSwitches = s.taskSwitches →
    t.cpl = s.cpl ∧ t.mode = .prot ∧
    ∃ sel d, withinTable s sel = true ∧ selNull sel = false ∧ readDesc s sel = .ok d ∧ arPresent (descAr d) = true ∧
      (classify (descAr d) = .nonconforming ∧ arDpl (descAr d) = s.cpl ∨
        classify (descAr d) = .conforming ∧ arDpl (descAr d) ≤ s.cpl) ∧
      t.eip ≤ descLimit d ∧ t.cs.sel = setRpl sel s.cpl ∧ t.cs.base = descBase d ∧ t.cs.limit = descLimit d ∧
      t.cs.d = descD d

/-- R94 (derived: D23, log entry 16). Without paging, after a far jump to a code segment the AR byte of its descriptor in
memory is the one CS holds, with the accessed bit set. -/
def Obligations.AccessedBitIsSetInMemory : Prop :=
  ∀ (i : Instr) (s t : State), exec i s = .next t → isNear i = false → s.mode = .prot → s.paging = false →
    Memory.wf s.mem = true → s.faultRecord = none → t.faultRecord = none → t.taskSwitches = s.taskSwitches →
    memRead t.mem (descAddr s t.cs.sel + 5#32).toNat = t.cs.ar ∧ arAccessed t.cs.ar = true

/-! ### Frames and whole-machine rules -/

/-- R21 (derived: D23). The frame of the four far forms (jmpPtr16_16, jmpPtr16_32, jmpM16_16, jmpM16_32) without a task switch:
no general register, no other segment register, no flag, no table register, no mode bit is written; CS and EIP and the fault
record may be; and every byte of memory is unchanged but, in protected mode, the one at the translated address of the AR byte of
the descriptor CS now holds. -/
def Obligations.FarJumpFrame : Prop :=
  ∀ (i : Instr) (s t : State), exec i s = .next t → isNear i = false → t.taskSwitches = s.taskSwitches →
    t.regs = s.regs ∧ t.ds = s.ds ∧ t.es = s.es ∧ t.fs = s.fs ∧ t.gs = s.gs ∧ t.ss = s.ss ∧ t.pe = s.pe ∧ t.vm = s.vm ∧
    t.flags = s.flags ∧ t.gdtr = s.gdtr ∧ t.ldtr = s.ldtr ∧ t.tr = s.tr ∧ t.paging = s.paging ∧
    t.pagingContext = s.pagingContext ∧ t.refusalMark = s.refusalMark ∧
    (s.mode ≠ .prot → t.mem = s.mem) ∧
    (∀ a, (∀ phys, translate s (descAddr s t.cs.sel + 5#32) .write .supervisor = .ok phys → a ≠ phys.toNat) →
      memRead t.mem a = memRead s.mem a)

/-- R121, R22 (derived: D6). A JMP that raises without a task switch changes nothing but the fault record, which holds its own
EIP and CS.sel; one that raises nothing leaves the record empty. -/
def Obligations.RaisingChangesNothingElse : Prop :=
  ∀ (i : Instr) (s t : State), exec i s = .next t → t.taskSwitches = s.taskSwitches → s.faultRecord = none →
    t.faultRecord = none ∨ ∃ vector code, t = s.recorded vector code

/-- R110, R111, R115, R116, R118, R119 (derived: D42; log entry 6). The exceptions by mode. In real-address mode vector 13 or 6, never with
an error code; in V86 mode 13 with code 0, 14 with a code, or 6; in protected mode 6 without a code or 11 to 14 with one, #SS
only with code 0; anything else, #TS among it, only from a task switch. That a task switch raises
one of five exceptions, each with a code, #TS included, is the model's choice (log entry 6; R116: the codes of #TS are not in the
source). -/
def Obligations.ExceptionsOfEachMode : Prop :=
  ∀ (s t : State), step s = .next t →
    (s.mode = .real → ∀ r, t.faultRecord = some r → r.vector ∈ [6, 13] ∧ r.code = none) ∧
    (s.mode = .v86 → ∀ r, t.faultRecord = some r →
      r.vector = 6 ∧ r.code = none ∨ r.vector = 13 ∧ r.code = some 0#16 ∨ r.vector = 14 ∧ r.code.isSome = true) ∧
    (s.mode = .prot → t.taskSwitches = s.taskSwitches → ∀ r, t.faultRecord = some r →
      r.vector = 6 ∧ r.code = none ∨ r.vector ∈ [11, 13, 14] ∧ r.code.isSome = true ∨
        r.vector = 12 ∧ r.code = some 0#16) ∧
    (t.taskSwitches ≠ s.taskSwitches → t.faultRecord = none ∨
      ∃ r, t.faultRecord = some r ∧ r.vector ∈ [10, 11, 12, 13, 14] ∧ r.code.isSome = true)

/-- R95 (derived: log entry 6). Flags: a JMP that switches no task leaves every flag; one that does has the whole register replaced by the new
task's; and no flag is read, neither for what a JMP does without a task switch nor for whether it switches tasks. (That the
new flags are what the free value `SwitchTasks` answers, which is handed the old task's context with its flags, is log entry 6; the
statement holds for every such value.) -/
def Obligations.FlagsChangeOnlyByTaskSwitch : Prop :=
  ∀ (i : Instr) (s t : State), exec i s = .next t →
    (t.taskSwitches = s.taskSwitches → t.flags = s.flags ∧
      ∀ f : Word, exec i { s with flags := f } = .next { t with flags := f }) ∧
    (t.taskSwitches ≠ s.taskSwitches → (∃ tsel td,
      t.flags = (Config.switchTasks s.taskSwitches (taskContext s) s.gdtr s.mem tsel td).context.flags) ∧
      ∀ f : Word, ∃ t', exec i { s with flags := f } = .next t' ∧ t'.taskSwitches ≠ s.taskSwitches)

/-- R2. The three modes by PE and VM; with PE = 0 the value of VM is not consulted: a step with another VM does the same and
keeps that VM. -/
def Obligations.RealModeIgnoresVm : Prop :=
  (∀ s : State, (s.mode = .real ↔ s.pe = false) ∧ (s.mode = .v86 ↔ s.pe = true ∧ s.vm = true) ∧
    (s.mode = .prot ↔ s.pe = true ∧ s.vm = false)) ∧
  ∀ (s t : State) (v : Bool), s.pe = false → step s = .next t → step { s with vm := v } = .next { t with vm := v }

/-- R12 (derived: D22, D36). With operand size 16 every EIP a JMP writes without a task switch has its upper 16 bits zero. -/
def Obligations.SixteenBitFormsClearTheUpperHalf : Prop :=
  ∀ (i : Instr) (s t : State), exec i s = .next t → opSizeOf i = .o16 → t.taskSwitches = s.taskSwitches →
    s.faultRecord = none → t.faultRecord = none → t.eip.toNat < 65536

/-- R2, R16, R18, R125 (derived: log entry 6). No step writes PE or the GDT register; VM, the flags, the general registers and
the LDT register change only by a task switch, and a task switch happens only in protected mode. -/
def Obligations.OnlyTaskSwitchesChangeTheContext : Prop :=
  ∀ s t : State, step s = .next t →
    t.pe = s.pe ∧ t.gdtr = s.gdtr ∧
    (t.taskSwitches ≠ s.taskSwitches → s.mode = .prot ∧ t.taskSwitches = s.taskSwitches + 1) ∧
    (t.taskSwitches = s.taskSwitches → t.vm = s.vm ∧ t.flags = s.flags ∧ t.regs = s.regs ∧ t.ldtr = s.ldtr ∧
      t.tr = s.tr ∧ t.mode = s.mode)

/-- R17, R96. A step in protected mode that switches no task keeps CPL, whatever it executes. -/
def Obligations.StepKeepsPrivilege : Prop :=
  ∀ s t : State, step s = .next t → s.mode = .prot → t.taskSwitches = s.taskSwitches → t.cpl = s.cpl

/-! ### Memory -/

/-- R30 (derived: log entry 4). Canonical memories that read alike are the same data. -/
def Obligations.CanonicalMemoryIsUnique : Prop :=
  ∀ m m' : Memory, Memory.wf m = true → Memory.wf m' = true → (∀ a, memRead m a = memRead m' a) → m = m'

/-- The invariant (derived: R30, log entry 4): every step keeps the canonical form of memory, a task switch included. -/
def Obligations.StepKeepsMemoryCanonical : Prop :=
  ∀ s t : State, Memory.wf s.mem = true → step s = .next t → Memory.wf t.mem = true

/-- The invariant (derived: R46, R76, R85, R87 to R92; D8, D30; log entry 22): as long as nothing was raised, EIP lies within the
limit of CS. In real-address and V86 mode it rests on the spec's own choice D8, that a target beyond the limit raises there too;
"within" is D30, the first byte only. -/
def Obligations.StepKeepsEipWithinLimit : Prop :=
  ∀ s t : State, s.eipWithinLimit → step s = .next t → t.eipWithinLimit

/-- The state after reset has both invariants, runs, and is in real-address mode at the family's EIP and CS (derived: R130,
G21, log entries 3, 4; the spec gives no reset value). -/
def Obligations.ResetState : Prop :=
  Memory.wf State.reset.mem = true ∧ State.reset.eipWithinLimit ∧ State.reset.running ∧ State.reset.mode = .real ∧
    State.reset.eip = 0x0000FFF0#32 ∧ State.reset.cs.sel = 0xF000#16 ∧ State.reset.cs.base = 0xFFFF0000#32 ∧
    State.reset.cs.limit = 0x0000FFFF#32 ∧ ∀ a, memRead State.reset.mem a = 0#8
end

