-- ==== Sys2Proof/Laws/Decode.lean ====
section
/-!
SUPPORT. Small laws of the fields and of the encoder, and the law that more bytes never change what the bytes read so far
decode to (`decode_append`).
-/

namespace Sys2Proof

/-! ### Fields -/

@[simp] theorem regOf_regNum (r : Reg) : regOf (regNum r) = r := by cases r <;> rfl

@[simp] theorem base16Of_base16Num (b : Base16) : base16Of (base16Num b) = b := by cases b <;> rfl

theorem indexOf_indexNum (index : Option Reg) (h : indexWellFormed index = true) : indexOf (indexNum index) = index := by
  revert h
  rcases index with _ | r
  · decide
  · cases r <;> decide

@[simp] theorem overrideOf_overrideByte (g : SegReg) : overrideOf (overrideByte g) = some g := by cases g <;> rfl

@[simp] theorem field76_packFields (a : BitVec 2) (b c : BitVec 3) : field76 (packFields a b c) = a := by
  revert a b c; decide

@[simp] theorem field53_packFields (a : BitVec 2) (b c : BitVec 3) : field53 (packFields a b c) = b := by
  revert a b c; decide

@[simp] theorem field20_packFields (a : BitVec 2) (b c : BitVec 3) : field20 (packFields a b c) = c := by
  revert a b c; decide

@[simp] theorem take8_cons (b : Byte) (rest : List Byte) : take8 (b :: rest) = some (b, rest) := rfl

@[simp] theorem take16_bytes16 (v : BitVec 16) (rest : List Byte) : take16 (bytes16 v ++ rest) = some (v, rest) := by
  have h : (v.extractLsb' 8 8 ++ v.extractLsb' 0 8 : BitVec 16) = v := by
    apply BitVec.eq_of_getLsbD_eq
    intro i hi
    simp only [BitVec.getLsbD_append, BitVec.getLsbD_extractLsb']
    split
    · simp [*]
    · have : i - 8 < 8 := by omega
      simp only [this, decide_true, Bool.true_and]
      congr 1
      omega
  simp only [bytes16, take16, List.cons_append, List.nil_append, h]

@[simp] theorem take32_bytes32 (v : BitVec 32) (rest : List Byte) : take32 (bytes32 v ++ rest) = some (v, rest) := by
  have h : (v.extractLsb' 24 8 ++ v.extractLsb' 16 8 ++ v.extractLsb' 8 8 ++ v.extractLsb' 0 8 : BitVec 32) = v := by
    apply BitVec.eq_of_getLsbD_eq
    intro i hi
    simp only [BitVec.getLsbD_append, BitVec.getLsbD_extractLsb']
    split
    · simp [*]
    · split
      · have : i - 8 < 8 := by omega
        simp only [this, decide_true, Bool.true_and]
        congr 1
        omega
      · split
        · have : i - 8 - 8 < 8 := by omega
          simp only [this, decide_true, Bool.true_and]
          congr 1
          omega
        · have : i - 8 - 8 - 8 < 8 := by omega
          simp only [this, decide_true, Bool.true_and]
          congr 1
          omega
  simp only [bytes32, take32, List.cons_append, List.nil_append, h]

@[simp] theorem nearIndirectForm_o16 (rm : RegMem) : nearIndirectForm .o16 rm = .jmpRM16 rm := rfl

@[simp] theorem nearIndirectForm_o32 (rm : RegMem) : nearIndirectForm .o32 rm = .jmpRM32 rm := rfl

@[simp] theorem farIndirectForm_o16 (m : MemOperand) : farIndirectForm .o16 m = .jmpM16_16 m := rfl

@[simp] theorem farIndirectForm_o32 (m : MemOperand) : farIndirectForm .o32 m = .jmpM16_32 m := rfl

/-! ### The parts of an encoding -/

/-- Reading the encoder's 66H, or its absence (R3). -/
theorem decodeFrom_sizeBytes (d lock : Bool) (os : OpSize) (bs : List Byte) :
    decodeFrom d ⟨false, false, none, lock⟩ (sizeBytes d os ++ bs) =
      decodeFrom d ⟨d != decide (os = .o32), false, none, lock⟩ bs := by
  cases d <;> cases os <;> simp [sizeBytes, decodeFrom]

/-- Reading the encoder's 67H and override, or their absence (R4, R60). -/
theorem decodeFrom_memBytes (d op lock : Bool) (m : MemOperand) (bs : List Byte) :
    decodeFrom d ⟨op, false, none, lock⟩ (memBytes d m ++ bs) =
      decodeFrom d ⟨op, d != m.addr.wide, m.override, lock⟩ bs := by
  obtain ⟨a, ov⟩ := m
  generalize hw : a.wide = w
  rcases ov with _ | g
  · cases d <;> cases w <;> simp [memBytes, hw, decodeFrom]
  · cases d <;> cases w <;> cases g <;> simp [memBytes, hw, decodeFrom, overrideByte, overrideOf]

/-- A memory operand's `mod` is never 11. -/
theorem encodeAddr_mod (a : Addr) : (encodeAddr a).mod ≠ 0b11#2 := by
  rcases a with (v | ⟨b, _ | v | v⟩) | (v | ⟨b, _ | v | v⟩ | ⟨sc, ix, b, _ | v | v⟩ | ⟨sc, ix, v⟩) <;>
    simp [encodeAddr, encodeAddr16, encodeAddr32, encodeDisp32]

/-- A 16-bit addressing form is read back from its encoding (R58). -/
theorem decodeAddr16_encodeAddr16 (a : Addr16) (rest : List Byte) (h : a.wellFormed = true) :
    decodeAddr16 (encodeAddr16 a).mod (encodeAddr16 a).rm ((encodeAddr16 a).tail ++ rest) = some (a, rest) := by
  rcases a with v | ⟨b, _ | v | v⟩
  · simp [encodeAddr16, decodeAddr16]
  · cases b <;> first | rfl | (exfalso; revert h; decide)
  · simp [encodeAddr16, decodeAddr16]
  · simp [encodeAddr16, decodeAddr16]

/-- A 32-bit addressing form is read back from its encoding (R59). -/
theorem decodeAddr32_encodeAddr32 (a : Addr32) (rest : List Byte) (h : a.wellFormed = true) :
    decodeAddr32 (encodeAddr32 a).mod (encodeAddr32 a).rm ((encodeAddr32 a).tail ++ rest) = some (a, rest) := by
  rcases a with v | ⟨b, disp⟩ | ⟨sc, ix, b, disp⟩ | ⟨sc, ix, v⟩
  · simp [encodeAddr32, decodeAddr32]
  · rcases disp with _ | v | v <;> cases b <;>
      first
      | (exfalso; revert h; simp [Addr32.wellFormed]; done)
      | simp [encodeAddr32, encodeDisp32, decodeAddr32, decodeDisp32, regNum, regOf]
  · simp only [Addr32.wellFormed, Bool.and_eq_true] at h
    have hi := indexOf_indexNum ix h.1
    rcases disp with _ | v | v
    · have hb : regNum b ≠ 0b101#3 := by
        cases b <;> first | decide | (exfalso; revert h; simp)
      simp [encodeAddr32, encodeDisp32, decodeAddr32, decodeSib, decodeDisp32, hi, hb]
    · simp [encodeAddr32, encodeDisp32, decodeAddr32, decodeSib, decodeDisp32, hi]
    · simp [encodeAddr32, encodeDisp32, decodeAddr32, decodeSib, decodeDisp32, hi]
  · have hi := indexOf_indexNum ix h
    simp [encodeAddr32, decodeAddr32, decodeSib, hi]

/-! ### More bytes change nothing that is decided -/

/-- A field reader that, once it answers, answers the same with more bytes after it. -/
def Extends {α : Type} (f : List Byte → Option (α × List Byte)) : Prop :=
  ∀ bs v r x, f bs = some (v, r) → f (bs ++ x) = some (v, r ++ x)

theorem take8_extends : Extends take8 := by
  intro bs v r x h
  unfold take8 at h
  split at h <;> cases h
  rfl

theorem take16_extends : Extends take16 := by
  intro bs v r x h
  unfold take16 at h
  split at h <;> cases h
  rfl

theorem take32_extends : Extends take32 := by
  intro bs v r x h
  unfold take32 at h
  split at h <;> cases h
  rfl

theorem map_extends {α β : Type} {f : List Byte → Option (α × List Byte)} (hf : Extends f) (g : α → β) :
    Extends fun bs => (f bs).map fun r => (g r.1, r.2) := by
  intro bs v r x h
  simp only [Option.map_eq_some_iff] at h
  obtain ⟨⟨a, r'⟩, ha, hg⟩ := h
  cases hg
  simp [hf bs a r' x ha]

theorem bind_map_extends {α β γ : Type} {f : List Byte → Option (α × List Byte)} {g : List Byte → Option (β × List Byte)}
    (hf : Extends f) (hg : Extends g) (h : α → β → γ) :
    Extends fun bs => (f bs).bind fun o => (g o.2).map fun s => (h o.1 s.1, s.2) := by
  intro bs v r x hv
  simp only [Option.bind_eq_some_iff, Option.map_eq_some_iff] at hv
  obtain ⟨⟨a, r1⟩, ha, ⟨b, r2⟩, hb, he⟩ := hv
  cases he
  simp [hf bs a r1 x ha, hg r1 b r2 x hb]

theorem some_extends {α : Type} (v : α) : Extends fun bs => some (v, bs) := by
  intro bs v' r x h
  cases h
  rfl

theorem ite_extends {α : Type} {f g : List Byte → Option (α × List Byte)} (c : Prop) [Decidable c] (hf : Extends f)
    (hg : Extends g) : Extends fun bs => if c then f bs else g bs := by
  intro bs v r x h
  by_cases hc : c
  · simp only [hc, if_true] at h ⊢
    exact hf bs v r x h
  · simp only [hc, if_false] at h ⊢
    exact hg bs v r x h

theorem decodeAddr16_extends (mod : BitVec 2) (rm : BitVec 3) : Extends (decodeAddr16 mod rm) :=
  ite_extends _ (ite_extends _ (map_extends take16_extends Addr16.direct) (some_extends _))
    (ite_extends _ (map_extends take8_extends fun v => Addr16.based (base16Of rm) (.d8 v))
      (map_extends take16_extends fun v => Addr16.based (base16Of rm) (.d16 v)))

theorem decodeDisp32_extends (mod : BitVec 2) : Extends (decodeDisp32 mod) :=
  ite_extends _ (some_extends _) (ite_extends _ (map_extends take8_extends _) (map_extends take32_extends _))

theorem decodeSib_extends (mod : BitVec 2) (s : Byte) : Extends (decodeSib mod s) :=
  ite_extends _ (map_extends take32_extends _) (map_extends (decodeDisp32_extends mod) _)

theorem decodeAddr32_extends (mod : BitVec 2) (rm : BitVec 3) : Extends (decodeAddr32 mod rm) := by
  refine ite_extends _ ?_ (ite_extends _ (map_extends take32_extends _) (map_extends (decodeDisp32_extends mod) _))
  intro bs v r x h
  cases bs with
  | nil => cases h
  | cons b bs => exact decodeSib_extends mod b bs v r x h

theorem decodeAddr_extends (wide : Bool) (mod : BitVec 2) (rm : BitVec 3) : Extends (decodeAddr wide mod rm) :=
  ite_extends _ (map_extends (decodeAddr32_extends mod rm) _) (map_extends (decodeAddr16_extends mod rm) _)

theorem decodeMem_extends (d : Bool) (p : Prefixes) (m : Byte) : Extends (decodeMem d p m) :=
  map_extends (decodeAddr_extends _ _ _) fun a => (⟨a, p.seg⟩ : MemOperand)

/-- What is decoded of `bs`, with `x` after it. -/
def Decoded.extend (x : List Byte) : Decoded → Decoded
  | .instr i rest => .instr i (rest ++ x)
  | .incomplete => .incomplete
  | .invalidOpcode => .invalidOpcode
  | .refused r => .refused r

theorem accept_extend (p : Prefixes) (i : Instr) (rest x : List Byte) :
    accept p i (rest ++ x) = (accept p i rest).extend x := by
  unfold accept
  split <;> rfl

/-- A decoder that, once it decides, decides the same with more bytes. -/
def Decides (f : List Byte → Decoded) : Prop :=
  ∀ bs x, f bs ≠ .incomplete → f (bs ++ x) = (f bs).extend x

theorem decodeImmediate_decides {α : Type} (p : Prefixes) {field : List Byte → Option (α × List Byte)}
    (hf : Extends field) (form : α → Instr) : Decides fun bs => decodeImmediate p (field bs) form := by
  intro bs x h
  simp only [decodeImmediate] at h ⊢
  split
  · rfl
  · rename_i hn
    simp only [hn] at h
    cases hv : field bs with
    | none => simp [hv] at h
    | some v =>
      obtain ⟨v, r⟩ := v
      simp only [hf bs v r x hv]
      exact accept_extend p _ r x

theorem decodeMemForm_decides (d : Bool) (p : Prefixes) (m : Byte) (form : MemOperand → Instr) :
    Decides fun bs => decodeMemForm d p m bs form := by
  intro bs x h
  simp only [decodeMemForm] at h ⊢
  cases hv : decodeMem d p m bs with
  | none => simp [hv] at h
  | some v =>
    obtain ⟨v, r⟩ := v
    simp only [decodeMem_extends d p m bs v r x hv]
    exact accept_extend p _ r x

theorem decodeGroup_decides (d : Bool) (p : Prefixes) (m : Byte) : Decides (decodeGroup d p m) := by
  intro bs x h
  unfold decodeGroup at h ⊢
  split
  · rename_i h4
    simp only [h4, if_true] at h
    split
    · rename_i h3
      simp only [h3, if_true] at h
      exact decodeImmediate_decides p (some_extends (regOf (field20 m))) _ bs x h
    · rename_i h3
      simp only [h3, if_false] at h
      exact decodeMemForm_decides d p m _ bs x h
  · rename_i h4
    simp only [h4, if_false] at h
    split
    · rename_i h5
      simp only [h5, if_true] at h
      split
      · rfl
      · rename_i h3
        simp only [h3, if_false] at h
        exact decodeMemForm_decides d p m _ bs x h
    · rfl

theorem decodeOpcode_decides (d : Bool) (p : Prefixes) (op : Byte) : Decides (decodeOpcode d p op) := by
  intro bs x h
  unfold decodeOpcode at h ⊢
  split
  · rename_i h1
    simp only [h1, if_true] at h
    exact decodeImmediate_decides p take8_extends _ bs x h
  · rename_i h1
    simp only [h1, if_false] at h
    split
    · rename_i h2
      simp only [h2, if_true] at h
      cases ho : operandSize d p with
      | o16 =>
        simp only [ho] at h
        exact decodeImmediate_decides p take16_extends _ bs x h
      | o32 =>
        simp only [ho] at h
        exact decodeImmediate_decides p take32_extends _ bs x h
    · rename_i h2
      simp only [h2, if_false] at h
      split
      · rename_i h3
        simp only [h3, if_true] at h
        cases ho : operandSize d p with
        | o16 =>
          simp only [ho] at h
          exact decodeImmediate_decides p (bind_map_extends take16_extends take16_extends Prod.mk) _ bs x h
        | o32 =>
          simp only [ho] at h
          exact decodeImmediate_decides p (bind_map_extends take32_extends take16_extends Prod.mk) _ bs x h
      · rename_i h3
        simp only [h3, if_false] at h
        split
        · rename_i h4
          simp only [h4, if_true] at h
          cases bs with
          | nil => simp at h
          | cons m bs => exact decodeGroup_decides d p m bs x h
        · rfl

theorem decodeFrom_decides (d : Bool) (p : Prefixes) : Decides (decodeFrom d p) := by
  intro bs
  induction bs generalizing p with
  | nil => intro x h; simp [decodeFrom] at h
  | cons b bs ih =>
    intro x h
    simp only [List.cons_append, decodeFrom] at h ⊢
    split
    · rename_i h1
      simp only [h1, if_true] at h
      split
      · rfl
      · rename_i h2
        simp only [h2] at h
        exact ih _ x h
    · rename_i h1
      simp only [h1, if_false] at h
      split
      · rename_i h2
        simp only [h2, if_true] at h
        split
        · rfl
        · rename_i h3
          simp only [h3] at h
          exact ih _ x h
      · rename_i h2
        simp only [h2, if_false] at h
        split
        · rename_i h3
          simp only [h3, if_true] at h
          split
          · rfl
          · rename_i h4
            simp only [h4] at h
            exact ih _ x h
        · rename_i h3
          simp only [h3, if_false] at h
          split
          · rfl
          · rename_i h4
            simp only [h4, if_false] at h
            cases ho : overrideOf b with
            | none =>
              simp only [ho] at h
              exact decodeOpcode_decides d p b bs x h
            | some seg =>
              simp only [ho] at h
              simp only
              split
              · rfl
              · rename_i h5
                simp only [h5] at h
                exact ih _ x h

/-- More bytes never change what is decided: an instruction keeps, with the new bytes after its rest. -/
theorem decode_append (d : Bool) (bs x : List Byte) (h : decode d bs ≠ .incomplete) :
    decode d (bs ++ x) = (decode d bs).extend x :=
  decodeFrom_decides d .empty bs x h

/-- Bytes with undecided bytes after them are undecided. -/
theorem decode_incomplete_of_append (d : Bool) (bs x : List Byte) (h : decode d (bs ++ x) = .incomplete) :
    decode d bs = .incomplete := by
  by_contra hne
  rw [decode_append d bs x hne] at h
  revert h hne
  cases decode d bs <;> simp [Decoded.extend]

/-- An instruction with no byte to spare: any shorter beginning is undecided. -/
theorem decode_take_incomplete (d : Bool) (bs : List Byte) (i : Instr) (h : decode d bs = .instr i []) (k : Nat)
    (hk : k < bs.length) : decode d (bs.take k) = .incomplete := by
  by_contra hne
  have h' := decode_append d (bs.take k) (bs.drop k) hne
  rw [List.take_append_drop, h] at h'
  have hx : bs.drop k ≠ [] := by simpa using hk
  revert h'
  cases decode d (bs.take k) <;> simp [Decoded.extend, hk]

/-! ### How long undecided bytes can be -/

theorem take8_none (bs : List Byte) (h : take8 bs = none) : bs.length ≤ 0 := by
  rcases bs with _ | ⟨a, bs⟩ <;> simp_all [take8]

theorem take16_none (bs : List Byte) (h : take16 bs = none) : bs.length ≤ 1 := by
  rcases bs with _ | ⟨a, _ | ⟨b, bs⟩⟩ <;> simp_all [take16]

theorem take32_none (bs : List Byte) (h : take32 bs = none) : bs.length ≤ 3 := by
  rcases bs with _ | ⟨a, _ | ⟨b, _ | ⟨c, _ | ⟨e, bs⟩⟩⟩⟩ <;> simp_all [take32]

theorem take16_some_length {bs rest : List Byte} {v} (h : take16 bs = some (v, rest)) : bs.length = rest.length + 2 := by
  rcases bs with _ | ⟨a, _ | ⟨b, bs⟩⟩ <;> simp_all [take16]

theorem take32_some_length {bs rest : List Byte} {v} (h : take32 bs = some (v, rest)) : bs.length = rest.length + 4 := by
  rcases bs with _ | ⟨a, _ | ⟨b, _ | ⟨c, _ | ⟨e, bs⟩⟩⟩⟩ <;> simp_all [take32]

theorem takeFar16_none (bs : List Byte) (h : takeFar16 bs = none) : bs.length ≤ 5 := by
  unfold takeFar16 at h
  cases h1 : take16 bs with
  | none => have := take16_none bs h1; omega
  | some o =>
    have := take16_some_length h1
    rw [h1] at h
    have := take16_none o.2 (by simpa using h)
    omega

theorem takeFar32_none (bs : List Byte) (h : takeFar32 bs = none) : bs.length ≤ 5 := by
  unfold takeFar32 at h
  cases h1 : take32 bs with
  | none => have := take32_none bs h1; omega
  | some o =>
    have := take32_some_length h1
    rw [h1] at h
    have := take16_none o.2 (by simpa using h)
    omega

theorem decodeDisp32_none (mod : BitVec 2) (bs : List Byte) (h : decodeDisp32 mod bs = none) : bs.length ≤ 3 := by
  unfold decodeDisp32 at h
  split at h
  · cases h
  · split at h
    · have := take8_none bs (by simpa using h); omega
    · exact take32_none bs (by simpa using h)

theorem decodeAddr_none (wide : Bool) (mod : BitVec 2) (rm : BitVec 3) (bs : List Byte)
    (h : decodeAddr wide mod rm bs = none) : bs.length ≤ 4 := by
  cases wide
  · have h' : decodeAddr16 mod rm bs = none := by simpa [decodeAddr] using h
    unfold decodeAddr16 at h'
    split at h'
    · split at h'
      · have := take16_none bs (by simpa using h'); omega
      · cases h'
    · split at h'
      · have := take8_none bs (by simpa using h'); omega
      · have := take16_none bs (by simpa using h'); omega
  · have h' : decodeAddr32 mod rm bs = none := by simpa [decodeAddr] using h
    unfold decodeAddr32 at h'
    split at h'
    · rcases bs with _ | ⟨b, bs⟩
      · simp
      · simp only [decodeSib] at h'
        split at h'
        · have := take32_none bs (by simpa using h'); simp; omega
        · have := decodeDisp32_none mod bs (by simpa using h'); simp; omega
    · split at h'
      · have := take32_none bs (by simpa using h'); omega
      · have := decodeDisp32_none mod bs (by simpa using h'); omega

theorem accept_ne_incomplete (p : Prefixes) (i : Instr) (rest : List Byte) : accept p i rest ≠ .incomplete := by
  unfold accept; split <;> simp

theorem decodeImmediate_incomplete {α : Type} (p : Prefixes) (field : Option (α × List Byte)) (form : α → Instr)
    (h : decodeImmediate p field form = .incomplete) : field = none := by
  unfold decodeImmediate at h
  split at h
  · cases h
  · cases field with
    | none => rfl
    | some v => exact absurd h (accept_ne_incomplete _ _ _)

theorem decodeMemForm_incomplete (d : Bool) (p : Prefixes) (m : Byte) (bs : List Byte) (form : MemOperand → Instr)
    (h : decodeMemForm d p m bs form = .incomplete) : bs.length ≤ 4 := by
  unfold decodeMemForm at h
  split at h
  · rename_i hm
    exact decodeAddr_none _ _ _ _ (by simpa [decodeMem] using hm)
  · exact absurd h (accept_ne_incomplete _ _ _)

/-- An opcode with six bytes after it is decided (R52, R59). -/

theorem decodeOpcode_incomplete (d : Bool) (p : Prefixes) (op : Byte) (bs : List Byte)
    (h : decodeOpcode d p op bs = .incomplete) : bs.length ≤ 5 := by
  unfold decodeOpcode at h
  split at h
  · have := take8_none bs (decodeImmediate_incomplete _ _ _ h); omega
  split at h
  · split at h
    · have := take16_none bs (decodeImmediate_incomplete _ _ _ h); omega
    · have := take32_none bs (decodeImmediate_incomplete _ _ _ h); omega
  split at h
  · split at h
    · exact takeFar16_none bs (decodeImmediate_incomplete _ _ _ h)
    · exact takeFar32_none bs (decodeImmediate_incomplete _ _ _ h)
  split at h
  · rcases bs with _ | ⟨m, rest⟩
    · simp
    · simp only [decodeGroup] at h
      simp only [List.length_cons]
      split at h
      · split at h
        · exact absurd (decodeImmediate_incomplete _ _ _ h) (by simp)
        · have := decodeMemForm_incomplete _ _ _ _ _ h; omega
      · split at h
        · split at h
          · cases h
          · have := decodeMemForm_incomplete _ _ _ _ _ h; omega
        · cases h
  · cases h

/-- How many more leading bytes are admitted. -/
def Prefixes.room (p : Prefixes) : Nat :=
  (if p.opSize then 0 else 1) + (if p.addrSize then 0 else 1) + (if p.seg.isSome then 0 else 1) + (if p.lock then 0 else 1)

/-- Undecided bytes are at most the admitted leading bytes and six more. -/

theorem decodeFrom_incomplete (d : Bool) (p : Prefixes) (bs : List Byte) (h : decodeFrom d p bs = .incomplete) :
    bs.length ≤ p.room + 6 := by
  induction bs generalizing p with
  | nil => simp
  | cons b bs ih =>
    simp only [decodeFrom] at h
    simp only [List.length_cons]
    split at h
    · split at h
      · cases h
      · rename_i hp
        have := ih _ h
        simp [Prefixes.room, hp] at this ⊢; omega
    split at h
    · split at h
      · cases h
      · rename_i hp
        have := ih _ h
        simp [Prefixes.room, hp] at this ⊢; omega
    split at h
    · split at h
      · cases h
      · rename_i hp
        have := ih _ h
        simp [Prefixes.room, hp] at this ⊢; omega
    split at h
    · cases h
    split at h
    · split at h
      · cases h
      · rename_i hp
        have := ih _ h
        simp [Prefixes.room, hp] at this ⊢; omega
    · have := decodeOpcode_incomplete _ _ _ _ h
      omega

/-- Undecided bytes are at most ten (R62, R63). -/

theorem decode_incomplete_length (d : Bool) (bs : List Byte) (h : decode d bs = .incomplete) : bs.length ≤ 10 :=
  decodeFrom_incomplete d .empty bs h

/-! ### Lengths of the encoder's parts -/

@[simp] theorem length_bytes16 (v : BitVec 16) : (bytes16 v).length = 2 := rfl

@[simp] theorem length_bytes32 (v : BitVec 32) : (bytes32 v).length = 4 := rfl

@[simp] theorem length_sizeBytes (d : Bool) (os : OpSize) : (sizeBytes d os).length = sizeLength d os := by
  unfold sizeBytes sizeLength
  split <;> rfl

theorem length_encodeAddr (a : Addr) : (encodeAddr a).tail.length = addrLength a := by
  rcases a with (v | ⟨b, _ | v | v⟩) | (v | ⟨b, _ | v | v⟩ | ⟨sc, ix, b, _ | v | v⟩ | ⟨sc, ix, v⟩) <;> rfl

theorem length_memBytes (d : Bool) (m : MemOperand) :
    (memBytes d m).length = (if d = m.addr.wide then 0 else 1) + (if m.override.isSome then 1 else 0) := by
  unfold memBytes
  cases m.override <;> split <;> simp

theorem length_encodeRegMem (d : Bool) (os : OpSize) (rm : RegMem) :
    (encodeRegMem d os rm).length = sizeLength d os + regMemLength d rm := by
  cases rm with
  | reg r => simp [encodeRegMem, regMemLength]
  | mem m =>
    simp only [encodeRegMem, regMemLength, memLength, encodeMem, List.length_append, length_sizeBytes, length_memBytes,
      List.length_cons, length_encodeAddr]
    omega

theorem length_encodeFarMem (d : Bool) (os : OpSize) (m : MemOperand) :
    (sizeBytes d os ++ memBytes d m ++ encodeMem 0b101#3 m).length = sizeLength d os + memLength d m := by
  simp only [memLength, encodeMem, List.length_append, length_sizeBytes, length_memBytes, List.length_cons,
    length_encodeAddr]
  omega

end Sys2Proof
end

