-- ==== Sys2Proof/Laws/Descriptors.lean ====
section
/-!
SUPPORT. What setting the RPL field of a selector does to its other fields, and the bytes of a descriptor.
-/

namespace Sys2Proof.Machine

theorem getLsbD_setRpl (sel : Selector) (cpl : BitVec 2) (j : Nat) :
    (setRpl sel cpl).getLsbD j = if j < 2 then cpl.getLsbD j else sel.getLsbD j := by
  refine (BitVec.getLsbD_append (x := sel.extractLsb' 2 14) (y := cpl) (i := j)).trans ?_
  by_cases h : j < 2
  · simp [h]
  · have hj : 2 + (j - 2) = j := by omega
    simp only [h, if_false, BitVec.getLsbD_extractLsb', hj]
    by_cases h' : j - 2 < 14
    · simp [h']
    · simp only [h', decide_false, Bool.false_and]
      exact (BitVec.getLsbD_of_ge sel j (by omega)).symm

/-- The RPL field is the one set (R89). -/
@[simp] theorem selRpl_setRpl (sel : Selector) (cpl : BitVec 2) : selRpl (setRpl sel cpl) = cpl := by
  apply BitVec.eq_of_getLsbD_eq
  intro j hj
  simp [selRpl, getLsbD_setRpl, hj]

/-- The index stays. -/
@[simp] theorem selIndex_setRpl (sel : Selector) (cpl : BitVec 2) : selIndex (setRpl sel cpl) = selIndex sel := by
  apply BitVec.eq_of_getLsbD_eq
  intro j hj
  have h : ¬ 3 + j < 2 := by omega
  simp only [selIndex, BitVec.getLsbD_extractLsb', getLsbD_setRpl, h, if_false]

/-- The local/global bit stays. -/
@[simp] theorem selLocal_setRpl (sel : Selector) (cpl : BitVec 2) : selLocal (setRpl sel cpl) = selLocal sel := by
  exact getLsbD_setRpl sel cpl 2

/-- A selector with another RPL names the same table. -/
@[simp] theorem tableBase_setRpl (s : State) (sel : Selector) (cpl : BitVec 2) :
    tableBase s (setRpl sel cpl) = tableBase s sel := by
  simp [tableBase]

/-- A selector with another RPL names the same descriptor (R41). -/
@[simp] theorem descAddr_setRpl (s : State) (sel : Selector) (cpl : BitVec 2) :
    descAddr s (setRpl sel cpl) = descAddr s sel := by
  simp [descAddr]

end Sys2Proof.Machine
end

