-- ==== Sys2Proof/Laws/Fetch.lean ====
section
/-!
SUPPORT. What the fetch does with bytes that are the beginning of an instruction, byte after byte (R34, R120).
-/

namespace Sys2Proof.Machine

/-- One byte of a fetch: while the bytes read so far are undecided, the next one is read. -/
theorem fetchFrom_next (s : State) (n : Nat) (acc : List Byte) (b : Byte) (h : decode s.cs.d acc = .incomplete)
    (hb : fetchByte s acc.length = .ok b) : fetchFrom s (n + 1) acc = fetchFrom s n (acc ++ [b]) := by
  rw [fetchFrom]
  simp only [h, hb]

/-- The fetch reads the bytes `bs` after `acc` as long as every shorter beginning is undecided. -/
theorem fetchFrom_bytes (s : State) (bs acc : List Byte) (n : Nat)
    (hd : ∀ k < bs.length, decode s.cs.d (acc ++ bs.take k) = .incomplete)
    (hf : ∀ (k : Nat) (h : k < bs.length), fetchByte s (acc.length + k) = .ok bs[k]) :
    fetchFrom s (n + bs.length) acc = fetchFrom s n (acc ++ bs) := by
  induction bs generalizing acc with
  | nil => simp
  | cons b bs ih =>
    have h0 : decode s.cs.d acc = .incomplete := by simpa using hd 0 (by simp)
    have hb : fetchByte s acc.length = .ok b := hf 0 (Nat.succ_pos _)
    rw [show n + (b :: bs).length = n + bs.length + 1 by simp; omega, fetchFrom_next s _ acc b h0 hb, ih (acc ++ [b])]
    · simp
    · intro k hk
      simpa using hd (k + 1) (by simpa using hk)
    · intro k hk
      have := hf (k + 1) (by simpa using hk)
      simpa [Nat.add_assoc, Nat.add_comm 1 k] using this

/-- The fetch at CS:EIP reads `bs` first, when every shorter beginning of it is undecided and it is no longer than 15
bytes. -/
theorem fetchInstr_bytes (s : State) (bs : List Byte) (hl : bs.length ≤ Config.maxInstructionLength)
    (hd : ∀ k < bs.length, decode s.cs.d (bs.take k) = .incomplete)
    (hf : ∀ (k : Nat) (h : k < bs.length), fetchByte s k = .ok bs[k]) :
    fetchInstr s = fetchFrom s (Config.maxInstructionLength - bs.length) bs := by
  have h := fetchFrom_bytes s bs [] (Config.maxInstructionLength - bs.length) (by simpa using hd) (by simpa using hf)
  rw [Nat.sub_add_cancel hl] at h
  simpa [fetchInstr] using h

/-- What the fetch answers once the bytes read decide it. -/
theorem fetchFrom_decided (s : State) (n : Nat) (acc : List Byte) :
    (∀ i rest, decode s.cs.d acc = .instr i rest → fetchFrom s n acc = .instr i) ∧
    (decode s.cs.d acc = .invalidOpcode → fetchFrom s n acc = .raised .invalidOpcode) ∧
    (∀ r, decode s.cs.d acc = .refused r → fetchFrom s n acc = .refused r) := by
  refine ⟨fun i rest h => ?_, fun h => ?_, fun r h => ?_⟩ <;> cases n <;> simp [fetchFrom, h]

/-- The fetch stops at a beginning of any fetched bytes that are decided (R120). -/
theorem fetchInstr_take (s : State) (bs : List Byte) (hf : ∀ (k : Nat) (h : k < bs.length), fetchByte s k = .ok bs[k])
    (hd : decode s.cs.d bs ≠ .incomplete) :
    ∃ k n, fetchInstr s = fetchFrom s n (bs.take k) ∧ decode s.cs.d (bs.take k) ≠ .incomplete := by
  classical
  obtain ⟨k, hk, hmin⟩ : ∃ k, decode s.cs.d (bs.take k) ≠ .incomplete ∧ ∀ j < k, decode s.cs.d (bs.take j) = .incomplete :=
    have hex : ∃ k, decode s.cs.d (bs.take k) ≠ .incomplete := ⟨bs.length, by simpa using hd⟩
    ⟨Nat.find hex, Nat.find_spec hex, fun j hj => not_not.mp (Nat.find_min hex hj)⟩
  have hkl : k ≤ bs.length := by
    by_contra hgt
    exact hd (by simpa using hmin bs.length (by omega))
  have hl : (bs.take k).length = k := by simpa using hkl
  have h15 : k ≤ Config.maxInstructionLength := by
    by_contra hgt
    have hgt' : 15 < k := by simpa [Config.maxInstructionLength] using hgt
    have h := decode_incomplete_length _ _ (hmin 11 (by omega))
    rw [List.length_take, Nat.min_eq_left (by omega)] at h
    omega
  have h := fetchInstr_bytes s (bs.take k) (by rw [hl]; exact h15)
    (fun j hj => by rw [hl] at hj; rw [List.take_take, Nat.min_eq_left hj.le]; exact hmin j hj)
    (fun j hj => by rw [hl] at hj; rw [List.getElem_take]; exact hf j (by omega))
  exact ⟨k, _, h, hk⟩

/-- Fetched bytes that are decided are what the fetch answers, however long they are (R34, R120). -/
theorem fetchInstr_of_decode (s : State) (bs : List Byte)
    (hf : ∀ (k : Nat) (h : k < bs.length), fetchByte s k = .ok bs[k]) :
    (∀ i rest, decode s.cs.d bs = .instr i rest → fetchInstr s = .instr i) ∧
    (decode s.cs.d bs = .invalidOpcode → fetchInstr s = .raised .invalidOpcode) ∧
    (∀ r, decode s.cs.d bs = .refused r → fetchInstr s = .refused r) := by
  have key : decode s.cs.d bs ≠ .incomplete → ∃ k n, fetchInstr s = fetchFrom s n (bs.take k) ∧
      decode s.cs.d bs = (decode s.cs.d (bs.take k)).extend (bs.drop k) := fun hd => by
    obtain ⟨k, n, h, hk⟩ := fetchInstr_take s bs hf hd
    exact ⟨k, n, h, by rw [← decode_append _ _ _ hk, List.take_append_drop]⟩
  refine ⟨fun i rest h => ?_, fun h => ?_, fun r h => ?_⟩ <;>
  · obtain ⟨k, n, hfe, he⟩ := key (by rw [h]; simp)
    have hfd := fetchFrom_decided s n (bs.take k)
    rw [h] at he
    rw [hfe]
    cases hk : decode s.cs.d (bs.take k) with
    | instr j x => rw [hk] at he; simp [Decoded.extend] at he <;> first | exact (by rw [he.1]; exact hfd.1 j x hk)
    | incomplete => rw [hk] at he; simp [Decoded.extend] at he
    | invalidOpcode => rw [hk] at he; simp [Decoded.extend] at he <;> exact hfd.2.1 hk
    | refused r' => rw [hk] at he; simp [Decoded.extend] at he <;> (rw [he]; exact hfd.2.2 r' hk)

end Sys2Proof.Machine
end

