-- ==== Sys2Proof/Laws/Leading.lean ====
section
/-!
SUPPORT. What the decoder has read after bytes that may stand before an opcode (R62, R64).
-/

namespace Sys2Proof

/-- The segment register the override among some bytes names. -/
def overrideIn (lead : List Byte) : Option SegReg := lead.findSome? overrideOf

theorem overrideOf_isSome (b : Byte) : (overrideOf b).isSome = Machine.overrideBytes.contains b := by
  revert b
  decide

/-- The decoder after leading bytes, from any prefixes that leave room for them. -/
theorem decodeFrom_leading (d : Bool) (p : Prefixes) (lead x : List Byte)
    (hb : ∀ b ∈ lead, b ∈ [0x66#8, 0x67#8, 0xF0#8] ∨ b ∈ Machine.overrideBytes)
    (h66 : lead.count 0x66#8 + p.opSize.toNat ≤ 1) (h67 : lead.count 0x67#8 + p.addrSize.toNat ≤ 1)
    (hF0 : lead.count 0xF0#8 + p.lock.toNat ≤ 1)
    (hseg : lead.countP (fun b => Machine.overrideBytes.contains b) + p.seg.isSome.toNat ≤ 1) :
    decodeFrom d p (lead ++ x) =
      decodeFrom d ⟨p.opSize || lead.contains 0x66#8, p.addrSize || lead.contains 0x67#8, p.seg.or (overrideIn lead),
        p.lock || lead.contains 0xF0#8⟩ x := by
  induction lead generalizing p with
  | nil => cases p; simp [overrideIn]
  | cons b lead ih =>
    have hb' : ∀ b ∈ lead, b ∈ [0x66#8, 0x67#8, 0xF0#8] ∨ b ∈ Machine.overrideBytes := fun c hc => hb c (by simp [hc])
    obtain ⟨op, ad, sg, lk⟩ := p
    simp only [List.count_cons, List.countP_cons] at h66 h67 hF0 hseg
    rcases hb b (by simp) with h | h
    · simp only [List.mem_cons, List.not_mem_nil, or_false] at h
      rcases h with rfl | rfl | rfl
      · cases op <;> simp at h66
        have := ih ⟨true, ad, sg, lk⟩ hb' (by simpa using h66) (by simpa using h67) (by simpa using hF0)
          (by simpa [Machine.overrideBytes] using hseg)
        simpa [decodeFrom, overrideIn, overrideOf] using this
      · cases ad <;> simp at h67
        have := ih ⟨op, true, sg, lk⟩ hb' (by simpa using h66) (by simpa using h67) (by simpa using hF0)
          (by simpa [Machine.overrideBytes] using hseg)
        simpa [decodeFrom, overrideIn, overrideOf] using this
      · cases lk <;> simp at hF0
        have := ih ⟨op, ad, sg, true⟩ hb' (by simpa using h66) (by simpa using h67) (by simpa using hF0)
          (by simpa [Machine.overrideBytes] using hseg)
        simpa [decodeFrom, overrideIn, overrideOf] using this
    · have hc : Machine.overrideBytes.contains b = true := by simpa using h
      rw [hc] at hseg
      cases sg with
      | some g => simp at hseg
      | none =>
        have hs : (overrideOf b).isSome = true := by rw [overrideOf_isSome, hc]
        obtain ⟨g, hg⟩ := Option.isSome_iff_exists.mp hs
        simp only [Machine.overrideBytes, List.mem_cons, List.not_mem_nil, or_false] at h
        have := ih ⟨op, ad, some g, lk⟩ hb' (by rcases h with rfl | rfl | rfl | rfl | rfl | rfl <;> simpa using h66)
          (by rcases h with rfl | rfl | rfl | rfl | rfl | rfl <;> simpa using h67)
          (by rcases h with rfl | rfl | rfl | rfl | rfl | rfl <;> simpa using hF0) (by simpa using hseg)
        rcases h with rfl | rfl | rfl | rfl | rfl | rfl <;> simpa [decodeFrom, overrideIn, hg] using this

/-- The decoder after leading bytes (R62, R64). -/
theorem decode_leading (d : Bool) (lead x : List Byte) (h : Machine.leading lead) :
    decode d (lead ++ x) =
      decodeFrom d ⟨lead.contains 0x66#8, lead.contains 0x67#8, overrideIn lead, lead.contains 0xF0#8⟩ x := by
  obtain ⟨hb, h66, h67, hF0, hseg⟩ := h
  simpa [decode, Prefixes.empty] using
    decodeFrom_leading d .empty lead x hb (by simpa [Prefixes.empty] using h66) (by simpa [Prefixes.empty] using h67)
      (by simpa [Prefixes.empty] using hF0) (by simpa [Prefixes.empty] using hseg)

/-- There is an override among some bytes exactly when one of them is one (R60). -/
theorem overrideIn_isSome (lead : List Byte) :
    (overrideIn lead).isSome = true ↔ ∃ g ∈ lead, g ∈ Machine.overrideBytes := by
  simp only [overrideIn, List.findSome?_isSome_iff, overrideOf_isSome, List.contains_iff_mem]

end Sys2Proof
end

