-- ==== Sys2Proof/Laws/State.lean ====
section
/-!
SUPPORT. What each update of the state leaves in each field, one lemma per field per update.
-/

namespace Sys2Proof.Machine

/-! ### `setEip` -/

@[simp] theorem setEip_regs (s : State) (t : Word) : (setEip s t).regs = s.regs := rfl
@[simp] theorem setEip_eip (s : State) (t : Word) : (setEip s t).eip = t := rfl
@[simp] theorem setEip_cs (s : State) (t : Word) : (setEip s t).cs = s.cs := rfl
@[simp] theorem setEip_ds (s : State) (t : Word) : (setEip s t).ds = s.ds := rfl
@[simp] theorem setEip_es (s : State) (t : Word) : (setEip s t).es = s.es := rfl
@[simp] theorem setEip_fs (s : State) (t : Word) : (setEip s t).fs = s.fs := rfl
@[simp] theorem setEip_gs (s : State) (t : Word) : (setEip s t).gs = s.gs := rfl
@[simp] theorem setEip_ss (s : State) (t : Word) : (setEip s t).ss = s.ss := rfl
@[simp] theorem setEip_pe (s : State) (t : Word) : (setEip s t).pe = s.pe := rfl
@[simp] theorem setEip_vm (s : State) (t : Word) : (setEip s t).vm = s.vm := rfl
@[simp] theorem setEip_flags (s : State) (t : Word) : (setEip s t).flags = s.flags := rfl
@[simp] theorem setEip_gdtr (s : State) (t : Word) : (setEip s t).gdtr = s.gdtr := rfl
@[simp] theorem setEip_ldtr (s : State) (t : Word) : (setEip s t).ldtr = s.ldtr := rfl
@[simp] theorem setEip_tr (s : State) (t : Word) : (setEip s t).tr = s.tr := rfl
@[simp] theorem setEip_paging (s : State) (t : Word) : (setEip s t).paging = s.paging := rfl
@[simp] theorem setEip_pagingContext (s : State) (t : Word) : (setEip s t).pagingContext = s.pagingContext := rfl
@[simp] theorem setEip_mem (s : State) (t : Word) : (setEip s t).mem = s.mem := rfl
@[simp] theorem setEip_faultRecord (s : State) (t : Word) : (setEip s t).faultRecord = s.faultRecord := rfl
@[simp] theorem setEip_refusalMark (s : State) (t : Word) : (setEip s t).refusalMark = s.refusalMark := rfl
@[simp] theorem setEip_taskSwitches (s : State) (t : Word) : (setEip s t).taskSwitches = s.taskSwitches := rfl

@[simp] theorem setEip_mode (s : State) (t : Word) : (setEip s t).mode = s.mode := rfl
@[simp] theorem setEip_cpl (s : State) (t : Word) : (setEip s t).cpl = s.cpl := rfl

/-! ### `setCs` -/

@[simp] theorem setCs_regs (s : State) (c : Config.CodeSeg) : (setCs s c).regs = s.regs := rfl
@[simp] theorem setCs_eip (s : State) (c : Config.CodeSeg) : (setCs s c).eip = s.eip := rfl
@[simp] theorem setCs_cs (s : State) (c : Config.CodeSeg) : (setCs s c).cs = c := rfl
@[simp] theorem setCs_ds (s : State) (c : Config.CodeSeg) : (setCs s c).ds = s.ds := rfl
@[simp] theorem setCs_es (s : State) (c : Config.CodeSeg) : (setCs s c).es = s.es := rfl
@[simp] theorem setCs_fs (s : State) (c : Config.CodeSeg) : (setCs s c).fs = s.fs := rfl
@[simp] theorem setCs_gs (s : State) (c : Config.CodeSeg) : (setCs s c).gs = s.gs := rfl
@[simp] theorem setCs_ss (s : State) (c : Config.CodeSeg) : (setCs s c).ss = s.ss := rfl
@[simp] theorem setCs_pe (s : State) (c : Config.CodeSeg) : (setCs s c).pe = s.pe := rfl
@[simp] theorem setCs_vm (s : State) (c : Config.CodeSeg) : (setCs s c).vm = s.vm := rfl
@[simp] theorem setCs_flags (s : State) (c : Config.CodeSeg) : (setCs s c).flags = s.flags := rfl
@[simp] theorem setCs_gdtr (s : State) (c : Config.CodeSeg) : (setCs s c).gdtr = s.gdtr := rfl
@[simp] theorem setCs_ldtr (s : State) (c : Config.CodeSeg) : (setCs s c).ldtr = s.ldtr := rfl
@[simp] theorem setCs_tr (s : State) (c : Config.CodeSeg) : (setCs s c).tr = s.tr := rfl
@[simp] theorem setCs_paging (s : State) (c : Config.CodeSeg) : (setCs s c).paging = s.paging := rfl
@[simp] theorem setCs_pagingContext (s : State) (c : Config.CodeSeg) :
    (setCs s c).pagingContext = s.pagingContext := rfl
@[simp] theorem setCs_mem (s : State) (c : Config.CodeSeg) : (setCs s c).mem = s.mem := rfl
@[simp] theorem setCs_faultRecord (s : State) (c : Config.CodeSeg) : (setCs s c).faultRecord = s.faultRecord := rfl
@[simp] theorem setCs_refusalMark (s : State) (c : Config.CodeSeg) : (setCs s c).refusalMark = s.refusalMark := rfl
@[simp] theorem setCs_taskSwitches (s : State) (c : Config.CodeSeg) : (setCs s c).taskSwitches = s.taskSwitches := rfl

@[simp] theorem setCs_mode (s : State) (c : Config.CodeSeg) : (setCs s c).mode = s.mode := rfl

/-! ### `setMem` -/

@[simp] theorem setMem_regs (s : State) (m : Memory) : (setMem s m).regs = s.regs := rfl
@[simp] theorem setMem_eip (s : State) (m : Memory) : (setMem s m).eip = s.eip := rfl
@[simp] theorem setMem_cs (s : State) (m : Memory) : (setMem s m).cs = s.cs := rfl
@[simp] theorem setMem_ds (s : State) (m : Memory) : (setMem s m).ds = s.ds := rfl
@[simp] theorem setMem_es (s : State) (m : Memory) : (setMem s m).es = s.es := rfl
@[simp] theorem setMem_fs (s : State) (m : Memory) : (setMem s m).fs = s.fs := rfl
@[simp] theorem setMem_gs (s : State) (m : Memory) : (setMem s m).gs = s.gs := rfl
@[simp] theorem setMem_ss (s : State) (m : Memory) : (setMem s m).ss = s.ss := rfl
@[simp] theorem setMem_pe (s : State) (m : Memory) : (setMem s m).pe = s.pe := rfl
@[simp] theorem setMem_vm (s : State) (m : Memory) : (setMem s m).vm = s.vm := rfl
@[simp] theorem setMem_flags (s : State) (m : Memory) : (setMem s m).flags = s.flags := rfl
@[simp] theorem setMem_gdtr (s : State) (m : Memory) : (setMem s m).gdtr = s.gdtr := rfl
@[simp] theorem setMem_ldtr (s : State) (m : Memory) : (setMem s m).ldtr = s.ldtr := rfl
@[simp] theorem setMem_tr (s : State) (m : Memory) : (setMem s m).tr = s.tr := rfl
@[simp] theorem setMem_paging (s : State) (m : Memory) : (setMem s m).paging = s.paging := rfl
@[simp] theorem setMem_pagingContext (s : State) (m : Memory) : (setMem s m).pagingContext = s.pagingContext := rfl
@[simp] theorem setMem_mem (s : State) (m : Memory) : (setMem s m).mem = m := rfl
@[simp] theorem setMem_faultRecord (s : State) (m : Memory) : (setMem s m).faultRecord = s.faultRecord := rfl
@[simp] theorem setMem_refusalMark (s : State) (m : Memory) : (setMem s m).refusalMark = s.refusalMark := rfl
@[simp] theorem setMem_taskSwitches (s : State) (m : Memory) : (setMem s m).taskSwitches = s.taskSwitches := rfl

@[simp] theorem setMem_mode (s : State) (m : Memory) : (setMem s m).mode = s.mode := rfl
@[simp] theorem setMem_cpl (s : State) (m : Memory) : (setMem s m).cpl = s.cpl := rfl

/-! ### `takeException` -/

@[simp] theorem takeException_regs (s : State) (p : Word) (e : Exception) : (takeException s p e).regs = s.regs := rfl
@[simp] theorem takeException_eip (s : State) (p : Word) (e : Exception) : (takeException s p e).eip = s.eip := rfl
@[simp] theorem takeException_cs (s : State) (p : Word) (e : Exception) : (takeException s p e).cs = s.cs := rfl
@[simp] theorem takeException_ds (s : State) (p : Word) (e : Exception) : (takeException s p e).ds = s.ds := rfl
@[simp] theorem takeException_es (s : State) (p : Word) (e : Exception) : (takeException s p e).es = s.es := rfl
@[simp] theorem takeException_fs (s : State) (p : Word) (e : Exception) : (takeException s p e).fs = s.fs := rfl
@[simp] theorem takeException_gs (s : State) (p : Word) (e : Exception) : (takeException s p e).gs = s.gs := rfl
@[simp] theorem takeException_ss (s : State) (p : Word) (e : Exception) : (takeException s p e).ss = s.ss := rfl
@[simp] theorem takeException_pe (s : State) (p : Word) (e : Exception) : (takeException s p e).pe = s.pe := rfl
@[simp] theorem takeException_vm (s : State) (p : Word) (e : Exception) : (takeException s p e).vm = s.vm := rfl
@[simp] theorem takeException_flags (s : State) (p : Word) (e : Exception) :
    (takeException s p e).flags = s.flags := rfl
@[simp] theorem takeException_gdtr (s : State) (p : Word) (e : Exception) : (takeException s p e).gdtr = s.gdtr := rfl
@[simp] theorem takeException_ldtr (s : State) (p : Word) (e : Exception) : (takeException s p e).ldtr = s.ldtr := rfl
@[simp] theorem takeException_tr (s : State) (p : Word) (e : Exception) : (takeException s p e).tr = s.tr := rfl
@[simp] theorem takeException_paging (s : State) (p : Word) (e : Exception) :
    (takeException s p e).paging = s.paging := rfl
@[simp] theorem takeException_pagingContext (s : State) (p : Word) (e : Exception) :
    (takeException s p e).pagingContext = s.pagingContext := rfl
@[simp] theorem takeException_mem (s : State) (p : Word) (e : Exception) : (takeException s p e).mem = s.mem := rfl
@[simp] theorem takeException_faultRecord (s : State) (p : Word) (e : Exception) :
    (takeException s p e).faultRecord = some { vector := vectorOf e, code := codeOf s.pe e, eip := p, csSel := s.cs.sel } := rfl
@[simp] theorem takeException_refusalMark (s : State) (p : Word) (e : Exception) :
    (takeException s p e).refusalMark = s.refusalMark := rfl
@[simp] theorem takeException_taskSwitches (s : State) (p : Word) (e : Exception) :
    (takeException s p e).taskSwitches = s.taskSwitches := rfl

@[simp] theorem takeException_mode (s : State) (p : Word) (e : Exception) : (takeException s p e).mode = s.mode := rfl
@[simp] theorem takeException_cpl (s : State) (p : Word) (e : Exception) : (takeException s p e).cpl = s.cpl := rfl

/-! ### `markRefused` -/

@[simp] theorem markRefused_regs (s : State) (r : RejectReason) : (markRefused s r).regs = s.regs := rfl
@[simp] theorem markRefused_eip (s : State) (r : RejectReason) : (markRefused s r).eip = s.eip := rfl
@[simp] theorem markRefused_cs (s : State) (r : RejectReason) : (markRefused s r).cs = s.cs := rfl
@[simp] theorem markRefused_ds (s : State) (r : RejectReason) : (markRefused s r).ds = s.ds := rfl
@[simp] theorem markRefused_es (s : State) (r : RejectReason) : (markRefused s r).es = s.es := rfl
@[simp] theorem markRefused_fs (s : State) (r : RejectReason) : (markRefused s r).fs = s.fs := rfl
@[simp] theorem markRefused_gs (s : State) (r : RejectReason) : (markRefused s r).gs = s.gs := rfl
@[simp] theorem markRefused_ss (s : State) (r : RejectReason) : (markRefused s r).ss = s.ss := rfl
@[simp] theorem markRefused_pe (s : State) (r : RejectReason) : (markRefused s r).pe = s.pe := rfl
@[simp] theorem markRefused_vm (s : State) (r : RejectReason) : (markRefused s r).vm = s.vm := rfl
@[simp] theorem markRefused_flags (s : State) (r : RejectReason) : (markRefused s r).flags = s.flags := rfl
@[simp] theorem markRefused_gdtr (s : State) (r : RejectReason) : (markRefused s r).gdtr = s.gdtr := rfl
@[simp] theorem markRefused_ldtr (s : State) (r : RejectReason) : (markRefused s r).ldtr = s.ldtr := rfl
@[simp] theorem markRefused_tr (s : State) (r : RejectReason) : (markRefused s r).tr = s.tr := rfl
@[simp] theorem markRefused_paging (s : State) (r : RejectReason) : (markRefused s r).paging = s.paging := rfl
@[simp] theorem markRefused_pagingContext (s : State) (r : RejectReason) :
    (markRefused s r).pagingContext = s.pagingContext := rfl
@[simp] theorem markRefused_mem (s : State) (r : RejectReason) : (markRefused s r).mem = s.mem := rfl
@[simp] theorem markRefused_faultRecord (s : State) (r : RejectReason) :
    (markRefused s r).faultRecord = s.faultRecord := rfl
@[simp] theorem markRefused_refusalMark (s : State) (r : RejectReason) : (markRefused s r).refusalMark = some r := rfl
@[simp] theorem markRefused_taskSwitches (s : State) (r : RejectReason) :
    (markRefused s r).taskSwitches = s.taskSwitches := rfl

@[simp] theorem markRefused_mode (s : State) (r : RejectReason) : (markRefused s r).mode = s.mode := rfl
@[simp] theorem markRefused_cpl (s : State) (r : RejectReason) : (markRefused s r).cpl = s.cpl := rfl

/-! ### `applySwitch` -/

@[simp] theorem applySwitch_regs (s : State) (r : Config.SwitchOutcome) : (applySwitch s r).regs = r.context.regs := rfl
@[simp] theorem applySwitch_eip (s : State) (r : Config.SwitchOutcome) : (applySwitch s r).eip = r.context.eip := rfl
@[simp] theorem applySwitch_cs (s : State) (r : Config.SwitchOutcome) : (applySwitch s r).cs = r.context.cs := rfl
@[simp] theorem applySwitch_ds (s : State) (r : Config.SwitchOutcome) : (applySwitch s r).ds = r.context.ds := rfl
@[simp] theorem applySwitch_es (s : State) (r : Config.SwitchOutcome) : (applySwitch s r).es = r.context.es := rfl
@[simp] theorem applySwitch_fs (s : State) (r : Config.SwitchOutcome) : (applySwitch s r).fs = r.context.fs := rfl
@[simp] theorem applySwitch_gs (s : State) (r : Config.SwitchOutcome) : (applySwitch s r).gs = r.context.gs := rfl
@[simp] theorem applySwitch_ss (s : State) (r : Config.SwitchOutcome) : (applySwitch s r).ss = r.context.ss := rfl
@[simp] theorem applySwitch_pe (s : State) (r : Config.SwitchOutcome) : (applySwitch s r).pe = s.pe := rfl
@[simp] theorem applySwitch_vm (s : State) (r : Config.SwitchOutcome) : (applySwitch s r).vm = r.context.vm := rfl
@[simp] theorem applySwitch_flags (s : State) (r : Config.SwitchOutcome) :
    (applySwitch s r).flags = r.context.flags := rfl
@[simp] theorem applySwitch_gdtr (s : State) (r : Config.SwitchOutcome) : (applySwitch s r).gdtr = s.gdtr := rfl
@[simp] theorem applySwitch_ldtr (s : State) (r : Config.SwitchOutcome) : (applySwitch s r).ldtr = r.context.ldtr := rfl
@[simp] theorem applySwitch_tr (s : State) (r : Config.SwitchOutcome) : (applySwitch s r).tr = r.context.tr := rfl
@[simp] theorem applySwitch_paging (s : State) (r : Config.SwitchOutcome) :
    (applySwitch s r).paging = r.context.paging := rfl
@[simp] theorem applySwitch_pagingContext (s : State) (r : Config.SwitchOutcome) :
    (applySwitch s r).pagingContext = r.context.pagingContext := rfl
@[simp] theorem applySwitch_mem (s : State) (r : Config.SwitchOutcome) :
    (applySwitch s r).mem = memWriteAll s.mem r.writes := rfl
@[simp] theorem applySwitch_faultRecord (s : State) (r : Config.SwitchOutcome) :
    (applySwitch s r).faultRecord = s.faultRecord := rfl
@[simp] theorem applySwitch_refusalMark (s : State) (r : Config.SwitchOutcome) :
    (applySwitch s r).refusalMark = s.refusalMark := rfl
@[simp] theorem applySwitch_taskSwitches (s : State) (r : Config.SwitchOutcome) :
    (applySwitch s r).taskSwitches = s.taskSwitches + 1 := rfl

end Sys2Proof.Machine
end

