-- ==== Sys2Proof/Laws/Machine.lean ====
section
/-!
SUPPORT. What each shared operation can do, once: translation and linear reads, `finish`, the near and far procedures, and
the inversion lemma `exec_effect`, which says everything the execution of a JMP can do.
-/

namespace Sys2Proof.Machine

/-! ### Modes -/

theorem mode_prot_iff (s : State) : s.mode = .prot ↔ s.pe = true ∧ s.vm = false := by
  unfold State.mode; split <;> simp_all

theorem mode_real_iff (s : State) : s.mode = .real ↔ s.pe = false := by
  unfold State.mode; split <;> simp_all

theorem mode_v86_iff (s : State) : s.mode = .v86 ↔ s.pe = true ∧ s.vm = true := by
  unfold State.mode; split <;> simp_all

/-! ### Translation and linear reads -/

/-- Without paging, and in real-address mode, translation is the identity (R33, R35). -/
theorem translate_identity (s : State) (h : (s.pe && s.paging) = false) (lin : Word) (k : Config.Access)
    (l : Config.Level) : translate s lin k l = .ok lin := by
  simp [translate, h]

/-- Translation reads PE, the paging state and memory only. -/
theorem translate_congr (s t : State) (hpe : t.pe = s.pe) (hp : t.paging = s.paging)
    (hc : t.pagingContext = s.pagingContext) (hm : t.mem = s.mem) (lin : Word) (k : Config.Access) (l : Config.Level) :
    translate t lin k l = translate s lin k l := by
  simp [translate, hpe, hp, hc, hm]

theorem readLinear_congr (s t : State) (hpe : t.pe = s.pe) (hp : t.paging = s.paging)
    (hc : t.pagingContext = s.pagingContext) (hm : t.mem = s.mem) (k : Config.Access) (l : Config.Level) (lin : Word)
    (n : Nat) : readLinear t k l lin n = readLinear s k l lin n := by
  induction n generalizing lin with
  | zero => rfl
  | succ n ih => simp only [readLinear, translate_congr s t hpe hp hc hm, ih, hm]

/-- Where translation is the identity a linear read gives the bytes of memory. -/
theorem readLinear_identity (s : State) (h : (s.pe && s.paging) = false) (k : Config.Access) (l : Config.Level)
    (lin : Word) (n : Nat) :
    readLinear s k l lin n = .ok ((List.range n).map fun i => memRead s.mem (lin + BitVec.ofNat 32 i).toNat) := by
  induction n generalizing lin with
  | zero => rfl
  | succ n ih =>
    simp only [readLinear, translate_identity s h, ih, List.range_succ_eq_map, List.map_cons, List.map_map]
    congr 1
    simp only [List.cons.injEq]
    refine ⟨by simp, List.map_congr_left fun i _ => ?_⟩
    simp only [Function.comp_apply]
    congr 2
    rw [BitVec.add_assoc]
    congr 1
    apply BitVec.eq_of_toNat_eq
    simp [BitVec.toNat_add, Nat.add_comm]

/-! ### Outcomes -/

@[simp] theorem finish_ok (s t : State) : finish s (.ok t) = .next t := rfl

@[simp] theorem finish_error (s : State) (e : Exception) : finish s (.error e) = .next (takeException s s.eip e) := rfl

/-- `nearTarget` either raises the limit exception or writes EIP. -/
theorem nearTarget_cases (s : State) (t : Word) :
    (s.cs.limit < t ∧ nearTarget s t = .error (limitException s)) ∨
      (t ≤ s.cs.limit ∧ nearTarget s t = .ok (setEip s t)) := by
  unfold nearTarget
  by_cases h : s.cs.limit < t
  · exact .inl ⟨h, if_pos h⟩
  · exact .inr ⟨BitVec.not_lt.mp h, if_neg h⟩

/-- What `loadCs` leaves when it loads: CS and EIP, and at most the AR byte of the descriptor (R89, R94). -/
theorem loadCs_ok (s t : State) (sel : Selector) (d : Descriptor) (off : Word) (h : loadCs s sel d off = .ok t) :
    (writesAccessed d = true ∧ ∃ phys, translate s (arAddr s sel) .write .supervisor = .ok phys ∧
      t = setMem (setEip (setCs s (loadedCs s sel d)) off) (memWrite s.mem phys.toNat (loadedAr (descAr d)))) ∨
    (writesAccessed d = false ∧ t = setEip (setCs s (loadedCs s sel d)) off) := by
  unfold loadCs at h
  split at h
  · rename_i hw
    split at h
    · cases h
    · rename_i phys hp
      exact .inl ⟨hw, phys, hp, by cases h; rfl⟩
  · rename_i hw
    exact .inr ⟨by simpa using hw, by cases h; rfl⟩

/-! ### Everything the execution of a JMP can do -/

/-- The exceptions a JMP can raise in each mode before any task switch (R110, R115, R116, R118, R119). -/
def ExceptionAllowed (s : State) (e : Exception) : Prop :=
  match s.mode with
  | .real => e = .interrupt13 ∨ e = .invalidOpcode
  | .v86 => e = .interrupt13 ∨ e = .invalidOpcode ∨ ∃ c, e = .pf c
  | .prot => e = .invalidOpcode ∨ e = .ss 0#16 ∨ (∃ c, e = .gp c) ∨ (∃ c, e = .np c) ∨ ∃ c, e = .pf c

/-- The checks every code segment passes before it is loaded in protected mode (R86 to R90). -/
structure SegmentChecked (s : State) (sel : Selector) (d : Descriptor) (off : Word) : Prop where
  notNull : selNull sel = false
  inTable : withinTable s sel = true
  read : readDesc s sel = .ok d
  code : arCode (descAr d) = true
  privilege : if arConforming (descAr d) then arDpl (descAr d) ≤ s.cpl else arDpl (descAr d) = s.cpl
  present : arPresent (descAr d) = true
  limit : off ≤ descLimit d

/-- The effects of a JMP that starts in `s` and leaves `t`. -/
inductive Effect (s t : State) : Prop where
  /-- It raises: only the fault record changes (R121). -/
  | raised (e : Exception) (ha : ExceptionAllowed s e) (h : t = takeException s s.eip e)
  /-- A near jump: only EIP changes, to an offset within `CS.limit` (R76). -/
  | near (tgt : Word) (hl : tgt ≤ s.cs.limit) (h : t = setEip s tgt)
  /-- A far jump in real-address or V86 mode (R85). -/
  | unprotected (sel : Selector) (off : Word) (hm : s.mode ≠ .prot) (hl : off ≤ s.cs.limit)
      (h : t = setEip (setCs s { s.cs with sel := sel, base := sel.setWidth 32 * 16#32 }) off)
  /-- A far jump to a code segment in protected mode (R87, R88, R90). -/
  | loaded (sel : Selector) (d : Descriptor) (off : Word) (hm : s.mode = .prot) (hc : SegmentChecked s sel d off)
      (h : loadCs s sel d off = .ok t)
  /-- A task switch (R91, R92). -/
  | task (tsel : Selector) (td : Descriptor) (hm : s.mode = .prot) (h : t = enterTask s tsel td)

/-- The result of a procedure of a JMP: an allowed exception, or a state that is an effect of the JMP. -/
def EffectOf (s : State) (r : Except Exception State) : Prop :=
  (∀ t, r = .ok t → Effect s t) ∧ ∀ e, r = .error e → ExceptionAllowed s e

theorem effectOf_error (s : State) (e : Exception) (h : ExceptionAllowed s e) : EffectOf s (.error e) :=
  ⟨fun _ h' => (by cases h'), fun _ h' => (by cases h'; exact h)⟩

theorem effectOf_ok (s t : State) (h : Effect s t) : EffectOf s (.ok t) :=
  ⟨fun _ h' => (by cases h'; exact h), fun _ h' => (by cases h')⟩

theorem effectOf_ite (s : State) (c : Prop) [Decidable c] (a b : Except Exception State) (ha : c → EffectOf s a)
    (hb : ¬c → EffectOf s b) : EffectOf s (if c then a else b) := by
  split
  · exact ha ‹_›
  · exact hb ‹_›

/-! #### Allowed exceptions -/

theorem allowed_gp (s : State) (hm : s.mode = .prot) (c : HalfWord) : ExceptionAllowed s (.gp c) := by
  simp [ExceptionAllowed, hm]

theorem allowed_np (s : State) (hm : s.mode = .prot) (c : HalfWord) : ExceptionAllowed s (.np c) := by
  simp [ExceptionAllowed, hm]

theorem allowed_interrupt13 (s : State) (hm : s.mode ≠ .prot) : ExceptionAllowed s .interrupt13 := by
  unfold ExceptionAllowed
  split <;> simp_all

theorem allowed_invalidOpcode (s : State) : ExceptionAllowed s .invalidOpcode := by
  unfold ExceptionAllowed
  split <;> simp

theorem allowed_limitException (s : State) : ExceptionAllowed s (limitException s) := by
  unfold ExceptionAllowed limitException
  split <;> simp_all

/-- Translation refuses only with paging on, which real-address mode does not have (R33). -/
theorem translate_error_paging (s : State) (lin : Word) (k : Config.Access) (l : Config.Level) (c : HalfWord)
    (h : translate s lin k l = .error c) : s.pe = true := by
  unfold translate at h
  split at h
  · rename_i hp
    simp at hp
    exact hp.1
  · cases h

theorem allowed_pf (s : State) (lin : Word) (k : Config.Access) (l : Config.Level) (c c' : HalfWord)
    (h : translate s lin k l = .error c) : ExceptionAllowed s (.pf c') := by
  have hpe := translate_error_paging s lin k l c h
  unfold ExceptionAllowed
  split
  · rename_i hm
    rw [mode_real_iff] at hm
    simp_all
  · simp
  · simp

theorem allowed_readLinear (s : State) (k : Config.Access) (l : Config.Level) (lin : Word) (n : Nat) (e : Exception)
    (h : readLinear s k l lin n = .error e) : ExceptionAllowed s e := by
  induction n generalizing lin with
  | zero => cases h
  | succ n ih =>
    simp only [readLinear] at h
    split at h
    · rename_i c hc
      cases h
      exact allowed_pf s lin k l c c hc
    · split at h
      · rename_i e' he
        cases h
        exact ih _ he
      · cases h

theorem allowed_readDesc (s : State) (sel : Selector) (e : Exception) (h : readDesc s sel = .error e) :
    ExceptionAllowed s e := by
  unfold readDesc at h
  split at h
  · rename_i e' he
    cases h
    exact allowed_readLinear _ _ _ _ _ _ he
  · cases h

theorem allowed_segCheck (s : State) (seg : SegReg) (off : Word) (n : Nat) (e : Exception)
    (h : segCheck s seg off n = some e) : ExceptionAllowed s e := by
  unfold segCheck at h
  split at h
  · rename_i hm
    split at h
    · cases h
    · split at h <;> cases h
      · simp [ExceptionAllowed, hm]
      · exact allowed_gp s hm _
  all_goals
    rename_i hm
    split at h <;> cases h
    exact allowed_interrupt13 s (by simp [hm])

theorem allowed_readOperand (s : State) (m : MemOperand) (n : Nat) (e : Exception)
    (h : readOperand s m n = .error e) : ExceptionAllowed s e := by
  unfold readOperand segRead at h
  split at h
  · rename_i e' he
    split at he
    · rename_i e'' hc
      cases he
      cases h
      exact allowed_segCheck _ _ _ _ _ hc
    · cases h
      exact allowed_readLinear _ _ _ _ _ _ he
  · cases h

theorem allowed_readRM16 (s : State) (rm : RegMem) (e : Exception) (h : readRM16 s rm = .error e) :
    ExceptionAllowed s e := by
  cases rm with
  | reg r => cases h
  | mem m =>
    simp only [readRM16] at h
    split at h
    · rename_i e' he
      cases h
      exact allowed_readOperand _ _ _ _ he
    · cases h

theorem allowed_readRM32 (s : State) (rm : RegMem) (e : Exception) (h : readRM32 s rm = .error e) :
    ExceptionAllowed s e := by
  cases rm with
  | reg r => cases h
  | mem m => exact allowed_readOperand s m 4 e h

theorem allowed_readFar16 (s : State) (m : MemOperand) (e : Exception) (h : readFar16 s m = .error e) :
    ExceptionAllowed s e := by
  unfold readFar16 at h
  split at h
  · rename_i e' he
    cases h
    exact allowed_readOperand _ _ _ _ he
  · cases h

theorem allowed_readFar32 (s : State) (m : MemOperand) (e : Exception) (h : readFar32 s m = .error e) :
    ExceptionAllowed s e := by
  unfold readFar32 at h
  split at h
  · rename_i e' he
    cases h
    exact allowed_readOperand _ _ _ _ he
  · cases h

theorem allowed_gateCheck (s : State) (hm : s.mode = .prot) (gsel : Selector) (g : Descriptor) (e : Exception)
    (h : gateCheck s gsel g = some e) : ExceptionAllowed s e := by
  unfold gateCheck at h
  split at h
  · cases h
    exact allowed_gp s hm _
  · split at h
    · cases h
      exact allowed_gp s hm _
    · split at h <;> cases h
      exact allowed_np s hm _

/-! #### The procedures -/

theorem effectOf_nearTarget (s : State) (tgt : Word) : EffectOf s (nearTarget s tgt) := by
  rcases nearTarget_cases s tgt with ⟨_, h⟩ | ⟨hl, h⟩ <;> rw [h]
  · exact effectOf_error _ _ (allowed_limitException s)
  · exact effectOf_ok _ _ (.near tgt hl rfl)

theorem effectOf_nearIndirect (s : State) (v : Except Exception Word)
    (hv : ∀ e, v = .error e → ExceptionAllowed s e) : EffectOf s (nearIndirect s v) := by
  cases v with
  | error e => exact effectOf_error s e (hv e rfl)
  | ok v => exact effectOf_nearTarget s v

theorem effectOf_loadCs (s : State) (sel : Selector) (d : Descriptor) (off : Word) (hm : s.mode = .prot)
    (hc : SegmentChecked s sel d off) : EffectOf s (loadCs s sel d off) := by
  refine ⟨fun _ h => .loaded sel d off hm hc h, fun e h => ?_⟩
  unfold loadCs at h
  split at h
  · split at h
    · rename_i c hc'
      cases h
      exact allowed_pf _ _ _ _ _ _ hc'
    · cases h
  · cases h

/-- The AR byte of a conforming code segment (R44). -/
theorem classify_conforming (ar : Byte) (h : classify ar = .conforming) : arCode ar = true ∧ arConforming ar = true := by
  revert ar; decide

/-- The AR byte of a nonconforming code segment (R44). -/
theorem classify_nonconforming (ar : Byte) (h : classify ar = .nonconforming) :
    arCode ar = true ∧ arConforming ar = false := by
  revert ar; decide

theorem effectOf_conforming (s : State) (sel : Selector) (d : Descriptor) (off : Word) (hm : s.mode = .prot)
    (hn : selNull sel = false) (ht : withinTable s sel = true) (hr : readDesc s sel = .ok d)
    (hk : classify (descAr d) = .conforming) : EffectOf s (conforming s sel d off) := by
  obtain ⟨hcode, hconf⟩ := classify_conforming _ hk
  unfold conforming
  refine effectOf_ite _ _ _ _ (fun _ => effectOf_error _ _ (allowed_gp s hm _)) fun h1 =>
    effectOf_ite _ _ _ _ (fun _ => effectOf_error _ _ (allowed_np s hm _)) fun h2 =>
    effectOf_ite _ _ _ _ (fun _ => effectOf_error _ _ (allowed_gp s hm _)) fun h3 =>
    effectOf_loadCs _ _ _ _ hm ⟨hn, ht, hr, hcode, ?_, by simpa using h2, BitVec.not_lt.mp h3⟩
  simpa [hconf] using BitVec.not_lt.mp h1

theorem effectOf_nonconforming (s : State) (sel : Selector) (d : Descriptor) (off : Word) (hm : s.mode = .prot)
    (hn : selNull sel = false) (ht : withinTable s sel = true) (hr : readDesc s sel = .ok d)
    (hk : classify (descAr d) = .nonconforming) : EffectOf s (nonconforming s sel d off) := by
  obtain ⟨hcode, hconf⟩ := classify_nonconforming _ hk
  unfold nonconforming
  refine effectOf_ite _ _ _ _ (fun _ => effectOf_error _ _ (allowed_gp s hm _)) fun _ =>
    effectOf_ite _ _ _ _ (fun _ => effectOf_error _ _ (allowed_gp s hm _)) fun h1 =>
    effectOf_ite _ _ _ _ (fun _ => effectOf_error _ _ (allowed_np s hm _)) fun h2 =>
    effectOf_ite _ _ _ _ (fun _ => effectOf_error _ _ (allowed_gp s hm _)) fun h3 =>
    effectOf_loadCs _ _ _ _ hm ⟨hn, ht, hr, hcode, ?_, by simpa using h2, BitVec.not_lt.mp h3⟩
  simpa [hconf] using h1

theorem effectOf_callGateTarget (s : State) (csel : Selector) (c : Descriptor) (t : Word) (hm : s.mode = .prot)
    (hn : selNull csel = false) (ht : withinTable s csel = true) (hr : readDesc s csel = .ok c) :
    EffectOf s (callGateTarget s csel c t) := by
  unfold callGateTarget
  refine effectOf_ite _ _ _ _ (fun _ => effectOf_error _ _ (allowed_gp s hm _)) fun h1 =>
    effectOf_ite _ _ _ _ (fun _ => effectOf_error _ _ (allowed_gp s hm _)) fun h2 =>
    effectOf_ite _ _ _ _ (fun _ => effectOf_error _ _ (allowed_gp s hm _)) fun h3 =>
    effectOf_ite _ _ _ _ (fun _ => effectOf_error _ _ (allowed_np s hm _)) fun h4 =>
    effectOf_ite _ _ _ _ (fun _ => effectOf_error _ _ (allowed_gp s hm _)) fun h5 =>
    effectOf_loadCs _ _ _ _ hm ⟨hn, ht, hr, by simpa using h1, ?_, by simpa using h4, BitVec.not_lt.mp h5⟩
  split
  · rename_i hconf
    exact BitVec.not_lt.mp fun h => h3 ⟨hconf, h⟩
  · rename_i hconf
    exact Classical.not_not.mp fun h => h2 ⟨by simpa using hconf, h⟩

theorem effectOf_callGate (s : State) (os : OpSize) (gsel : Selector) (g : Descriptor) (hm : s.mode = .prot) :
    EffectOf s (callGate s os gsel g) := by
  unfold callGate
  split
  · rename_i e he
    exact effectOf_error _ _ (allowed_gateCheck s hm _ _ _ he)
  · refine effectOf_ite _ _ _ _ (fun _ => effectOf_error _ _ (allowed_gp s hm _)) fun hn =>
      effectOf_ite _ _ _ _ (fun _ => effectOf_error _ _ (allowed_gp s hm _)) fun ht => ?_
    split
    · rename_i e he
      exact effectOf_error _ _ (allowed_readDesc s _ _ he)
    · rename_i c hc
      exact effectOf_callGateTarget _ _ _ _ hm (by simpa using hn) (by simpa using ht) hc

theorem effectOf_switchToTss (s : State) (tsel : Selector) (td : Descriptor) (hm : s.mode = .prot) :
    EffectOf s (switchToTss s tsel td) := by
  unfold switchToTss
  exact effectOf_ite _ _ _ _ (fun _ => effectOf_error _ _ (allowed_gp s hm _)) fun _ =>
    effectOf_ite _ _ _ _ (fun _ => effectOf_error _ _ (allowed_np s hm _)) fun _ =>
    effectOf_ok _ _ (.task tsel td hm rfl)

theorem effectOf_taskGate (s : State) (gsel : Selector) (g : Descriptor) (hm : s.mode = .prot) :
    EffectOf s (taskGate s gsel g) := by
  unfold taskGate
  split
  · rename_i e he
    exact effectOf_error _ _ (allowed_gateCheck s hm _ _ _ he)
  · refine effectOf_ite _ _ _ _ (fun _ => effectOf_error _ _ (allowed_gp s hm _)) fun _ =>
      effectOf_ite _ _ _ _ (fun _ => effectOf_error _ _ (allowed_gp s hm _)) fun _ => ?_
    split
    · rename_i e he
      exact effectOf_error _ _ (allowed_readDesc s _ _ he)
    · exact effectOf_switchToTss _ _ _ hm

theorem effectOf_taskStateSegment (s : State) (tsel : Selector) (td : Descriptor) (hm : s.mode = .prot) :
    EffectOf s (taskStateSegment s tsel td) := by
  unfold taskStateSegment
  exact effectOf_ite _ _ _ _ (fun _ => effectOf_error _ _ (allowed_gp s hm _)) fun _ =>
    effectOf_ite _ _ _ _ (fun _ => effectOf_error _ _ (allowed_gp s hm _)) fun _ => effectOf_switchToTss _ _ _ hm

theorem effectOf_farByClass (s : State) (os : OpSize) (sel : Selector) (off : Word) (d : Descriptor)
    (hm : s.mode = .prot) (hn : selNull sel = false) (ht : withinTable s sel = true) (hr : readDesc s sel = .ok d) :
    EffectOf s (farByClass s os sel off d) := by
  unfold farByClass
  cases hk : classify (descAr d) with
  | conforming => exact effectOf_conforming _ _ _ _ hm hn ht hr hk
  | nonconforming => exact effectOf_nonconforming _ _ _ _ hm hn ht hr hk
  | callGate => exact effectOf_callGate _ _ _ _ hm
  | taskGate => exact effectOf_taskGate _ _ _ hm
  | taskState => exact effectOf_taskStateSegment _ _ _ hm
  | illegal => exact effectOf_error _ _ (allowed_gp s hm _)

theorem effectOf_protectedJump (s : State) (os : OpSize) (sel : Selector) (off : Word) (hm : s.mode = .prot) :
    EffectOf s (protectedJump s os sel off) := by
  unfold protectedJump
  refine effectOf_ite _ _ _ _ (fun _ => effectOf_error _ _ (allowed_gp s hm _)) fun hn =>
    effectOf_ite _ _ _ _ (fun _ => effectOf_error _ _ (allowed_gp s hm _)) fun ht => ?_
  split
  · rename_i e he
    exact effectOf_error _ _ (allowed_readDesc s _ _ he)
  · rename_i d hd
    exact effectOf_farByClass _ _ _ _ _ hm (by simpa using hn) (by simpa using ht) hd

theorem effectOf_realOrV86 (s : State) (sel : Selector) (off : Word) (hm : s.mode ≠ .prot) :
    EffectOf s (realOrV86 s sel off) := by
  unfold realOrV86
  exact effectOf_ite _ _ _ _ (fun _ => effectOf_error _ _ (allowed_interrupt13 s hm)) fun hl =>
    effectOf_ok _ _ (.unprotected sel off hm (BitVec.not_lt.mp hl) rfl)

theorem effectOf_farJump (s : State) (os : OpSize) (sel : Selector) (off : Word) :
    EffectOf s (farJump s os sel off) := by
  unfold farJump
  split
  · exact effectOf_realOrV86 _ _ _ (by simp_all)
  · exact effectOf_realOrV86 _ _ _ (by simp_all)
  · exact effectOf_protectedJump _ _ _ _ ‹_›

theorem effectOf_farIndirect (s : State) (os : OpSize) (p : Except Exception FarPointer)
    (hp : ∀ e, p = .error e → ExceptionAllowed s e) : EffectOf s (farIndirect s os p) := by
  cases p with
  | error e => exact effectOf_error s e (hp e rfl)
  | ok p => exact effectOf_farJump s os p.sel p.off

/-- `finish` answers a next state, which is an effect of the JMP. -/
theorem finish_effect (s : State) (r : Except Exception State) (h : EffectOf s r) :
    ∃ t, finish s r = .next t ∧ Effect s t := by
  cases r with
  | error e => exact ⟨_, rfl, .raised e (h.2 e rfl) rfl⟩
  | ok t => exact ⟨t, rfl, h.1 t rfl⟩

/-- Every form of JMP answers a next state, and that state is one of the five effects. -/
theorem exec_effect (i : Instr) (s : State) : ∃ t, exec i s = .next t ∧ Effect s t := by
  cases i with
  | jmpRel8 os rel => exact finish_effect s _ (effectOf_nearTarget s _)
  | jmpRel16 rel => exact finish_effect s _ (effectOf_nearTarget s _)
  | jmpRel32 rel => exact finish_effect s _ (effectOf_nearTarget s _)
  | jmpRM16 rm => exact finish_effect s _ (effectOf_nearIndirect s _ (allowed_readRM16 s rm))
  | jmpRM32 rm => exact finish_effect s _ (effectOf_nearIndirect s _ (allowed_readRM32 s rm))
  | jmpPtr16_16 off sel => exact finish_effect s _ (effectOf_farJump s _ _ _)
  | jmpPtr16_32 off sel => exact finish_effect s _ (effectOf_farJump s _ _ _)
  | jmpM16_16 m => exact finish_effect s _ (effectOf_farIndirect s _ _ (allowed_readFar16 s m))
  | jmpM16_32 m => exact finish_effect s _ (effectOf_farIndirect s _ _ (allowed_readFar32 s m))

/-- A next state of `exec` is one of the five effects. -/
theorem effect_of_exec (i : Instr) (s t : State) (h : exec i s = .next t) : Effect s t := by
  obtain ⟨t', h', he⟩ := exec_effect i s
  rw [h'] at h
  cases h
  exact he

/-- An exception of the fetch is one the mode allows (R34, R64). -/
theorem allowed_fetchFrom (s : State) (fuel : Nat) (acc : List Byte) (e : Exception)
    (h : fetchFrom s fuel acc = .raised e) : ExceptionAllowed s e := by
  induction fuel generalizing acc with
  | zero =>
    unfold fetchFrom at h
    split at h <;> cases h
    exact allowed_invalidOpcode s
  | succ n ih =>
    unfold fetchFrom at h
    split at h
    · cases h
    · cases h
      exact allowed_invalidOpcode s
    · cases h
    · simp only at h
      split at h
      · rename_i e' he
        cases h
        unfold fetchByte at he
        split at he
        · cases he
          exact allowed_limitException s
        · split at he
          · rename_i c hc
            cases he
            exact allowed_pf _ _ _ _ _ _ hc
          · cases he
      · exact ih _ h

/-- A next state of `step`: the machine was running, and the state is an effect of a JMP, a fetch exception taken, or the
refusal mark set. -/
theorem effect_of_step (s t : State) (h : step s = .next t) :
    s.faultRecord = none ∧ s.refusalMark = none ∧
      (Effect s t ∨ ∃ r, t = markRefused s r) := by
  unfold step at h
  split at h
  · cases h
  · split at h
    · cases h
    · refine ⟨‹_›, ‹_›, ?_⟩
      split at h
      · exact .inl (effect_of_exec _ _ _ h)
      · rename_i e he
        exact .inl (.raised e (allowed_fetchFrom _ _ _ _ he) (by cases h; rfl))
      · rename_i r _
        exact .inr ⟨r, by cases h; rfl⟩

/-- The state after a task switch: the outcome of `SwitchTasks` applied, perhaps with a fault record (R91 to R93). -/
theorem enterTask_cases (s : State) (tsel : Selector) (td : Descriptor) :
    (∃ e, enterTask s tsel td = takeException (applySwitch s (switchOutcome s tsel td)) s.eip e) ∨
      (enterTask s tsel td = applySwitch s (switchOutcome s tsel td) ∧
        (enterTask s tsel td).eip ≤ (enterTask s tsel td).cs.limit) := by
  unfold enterTask
  simp only
  split
  · exact .inl ⟨_, rfl⟩
  · split
    · exact .inl ⟨_, rfl⟩
    · rename_i h
      exact .inr ⟨rfl, BitVec.not_lt.mp h⟩

/-- Every task switch advances the counter of the free value. -/
theorem enterTask_taskSwitches (s : State) (tsel : Selector) (td : Descriptor) :
    (enterTask s tsel td).taskSwitches = s.taskSwitches + 1 := by
  rcases enterTask_cases s tsel td with ⟨e, h⟩ | ⟨h, _⟩ <;> rw [h] <;> rfl

end Sys2Proof.Machine
end

