-- ==== Sys2Proof/Laws/Memory.lean ====
section
/-!
SUPPORT. The laws of memory: a write is read back, leaves every other address alone, and keeps the canonical form.
-/

namespace Sys2Proof.Machine

/-- A write leaves every other address alone. -/
theorem memRead_memWrite_other (m : Memory) (a a' : Nat) (v : Byte) (h : a' ≠ a) :
    memRead (memWrite m a v) a' = memRead m a' := by
  induction m with
  | nil =>
    unfold memWrite
    split <;> simp [memRead, Ne.symm h]
  | cons c m ih =>
    obtain ⟨k, b⟩ := c
    unfold memWrite
    split
    · simp [memRead, ih]
    · split
      · split <;> simp_all [memRead, Ne.symm h]
      · split <;> simp_all [memRead, Ne.symm h]

/-- In canonical memory no cell stands below the bound. -/
theorem memRead_below (m : Memory) (lo a : Nat) (hm : cellsFrom lo m = true) (ha : a < lo) :
    memRead m a = unlistedByte := by
  induction m generalizing lo with
  | nil => rfl
  | cons c m ih =>
    obtain ⟨k, b⟩ := c
    simp only [cellsFrom, Bool.and_eq_true, decide_eq_true_eq] at hm
    have hk : k ≠ a := by omega
    simp only [memRead, hk, if_false]
    exact ih (k + 1) hm.2 (by omega)

theorem memRead_memWrite_same_from (m : Memory) (lo a : Nat) (v : Byte) (hm : cellsFrom lo m = true) :
    memRead (memWrite m a v) a = v := by
  induction m generalizing lo with
  | nil =>
    unfold memWrite
    split <;> simp_all [memRead]
  | cons c m ih =>
    obtain ⟨k, b⟩ := c
    simp only [cellsFrom, Bool.and_eq_true, decide_eq_true_eq] at hm
    unfold memWrite
    split
    · rename_i hk
      have hk' : k ≠ a := by omega
      simp only [memRead, hk', if_false]
      exact ih (k + 1) hm.2
    · split
      · split
        · rename_i hk hv
          rw [memRead_below m (k + 1) a hm.2 (by omega), hv]
        · simp [memRead]
      · rename_i h1 h2
        split
        · rename_i hv
          simp only [memRead, h2, if_false]
          rw [memRead_below m (k + 1) a hm.2 (by omega), hv]
        · simp [memRead]

/-- A read after a write to the same address gives the byte written. -/
theorem memRead_memWrite_same (m : Memory) (a : Nat) (v : Byte) (hm : Memory.wf m = true) :
    memRead (memWrite m a v) a = v :=
  memRead_memWrite_same_from m 0 a v hm

/-- The bound of canonical cells may be lowered. -/
theorem cellsFrom_mono (m : Memory) (lo lo' : Nat) (h : lo' ≤ lo) (hm : cellsFrom lo m = true) :
    cellsFrom lo' m = true := by
  cases m with
  | nil => rfl
  | cons c m =>
    obtain ⟨k, b⟩ := c
    simp only [cellsFrom, Bool.and_eq_true, decide_eq_true_eq] at hm ⊢
    exact ⟨⟨⟨by omega, hm.1.1.2⟩, hm.1.2⟩, hm.2⟩

theorem memWrite_cellsFrom (m : Memory) (lo a : Nat) (v : Byte) (hm : cellsFrom lo m = true) (hlo : lo ≤ a)
    (ha : a < 2 ^ 32) : cellsFrom lo (memWrite m a v) = true := by
  induction m generalizing lo with
  | nil =>
    unfold memWrite
    split
    · rfl
    · rename_i hv
      simp only [cellsFrom, Bool.and_eq_true, decide_eq_true_eq, and_true]
      exact ⟨⟨hlo, ha⟩, hv⟩
  | cons c m ih =>
    obtain ⟨k, b⟩ := c
    have hm' := hm
    simp only [cellsFrom, Bool.and_eq_true, decide_eq_true_eq] at hm
    unfold memWrite
    split
    · rename_i hk
      simp only [cellsFrom, Bool.and_eq_true, decide_eq_true_eq]
      exact ⟨hm.1, ih (k + 1) hm.2 (by omega)⟩
    · split
      · split
        · exact cellsFrom_mono m (k + 1) lo (by omega) hm.2
        · rename_i hk hv
          simp only [cellsFrom, Bool.and_eq_true, decide_eq_true_eq]
          exact ⟨⟨⟨hlo, ha⟩, hv⟩, cellsFrom_mono m (k + 1) (a + 1) (by omega) hm.2⟩
      · split
        · exact hm'
        · rename_i h1 h2 hv
          simp only [cellsFrom, Bool.and_eq_true, decide_eq_true_eq]
          exact ⟨⟨⟨hlo, ha⟩, hv⟩, ⟨⟨⟨by omega, hm.1.1.2⟩, hm.1.2⟩, hm.2⟩⟩

/-- A write at a 32-bit address keeps the canonical form. -/
theorem memWrite_wf (m : Memory) (a : Word) (v : Byte) (hm : Memory.wf m = true) :
    Memory.wf (memWrite m a.toNat v) = true :=
  memWrite_cellsFrom m 0 a.toNat v hm (Nat.zero_le _) a.isLt

/-- Writing bytes in order keeps the canonical form. -/
theorem memWriteAll_wf (ws : List (Word × Byte)) (m : Memory) (hm : Memory.wf m = true) :
    Memory.wf (memWriteAll m ws) = true := by
  induction ws generalizing m with
  | nil => exact hm
  | cons w ws ih => exact ih (memWrite m w.1.toNat w.2) (memWrite_wf m w.1 w.2 hm)

end Sys2Proof.Machine
end

