-- ==== Sys2Proof/Laws/Operands.lean ====
section
/-!
SUPPORT. The values of little-endian reads: bytes appended, and what a memory operand holds once its bytes translate (R31,
R33).
-/

namespace Sys2Proof.Machine

/-- Appending a byte below a value, in natural numbers. -/
theorem toNat_append_byte {w : Nat} (x : BitVec w) (b : Byte) : (x ++ b).toNat = x.toNat * 256 + b.toNat := by
  rw [BitVec.toNat_append, ← Nat.shiftLeft_add_eq_or_of_lt b.isLt, Nat.shiftLeft_eq]

/-- Two bytes, lowest first (R31). -/
theorem leValue_two (b0 b1 : Byte) : leValue 16 [b0, b1] = b1 ++ b0 := by
  apply BitVec.eq_of_toNat_eq
  have h := toNat_append_byte b1 b0
  have h0 := b0.isLt
  have h1 := b1.isLt
  refine Eq.trans ?_ h.symm
  simp only [leValue, leNat, BitVec.toNat_ofNat]
  omega

/-- Four bytes, lowest first (R31). -/
theorem leValue_four (b0 b1 b2 b3 : Byte) : leValue 32 [b0, b1, b2, b3] = b3 ++ b2 ++ b1 ++ b0 := by
  apply BitVec.eq_of_toNat_eq
  have h1 := toNat_append_byte b3 b2
  have h2 := toNat_append_byte (b3 ++ b2) b1
  have h3 := toNat_append_byte (b3 ++ b2 ++ b1) b0
  have := b0.isLt
  have := b1.isLt
  have := b2.isLt
  have := b3.isLt
  refine Eq.trans ?_ h3.symm
  rw [h2, h1]
  simp only [leValue, leNat, BitVec.toNat_ofNat]
  omega

/-- Six bytes, lowest first (R31). -/
theorem leValue_six (b0 b1 b2 b3 b4 b5 : Byte) :
    leValue 48 [b0, b1, b2, b3, b4, b5] = b5 ++ b4 ++ b3 ++ b2 ++ b1 ++ b0 := by
  apply BitVec.eq_of_toNat_eq
  have h1 := toNat_append_byte b5 b4
  have h2 := toNat_append_byte (b5 ++ b4) b3
  have h3 := toNat_append_byte (b5 ++ b4 ++ b3) b2
  have h4 := toNat_append_byte (b5 ++ b4 ++ b3 ++ b2) b1
  have h5 := toNat_append_byte (b5 ++ b4 ++ b3 ++ b2 ++ b1) b0
  have := b0.isLt
  have := b1.isLt
  have := b2.isLt
  have := b3.isLt
  have := b4.isLt
  have := b5.isLt
  refine Eq.trans ?_ h5.symm
  rw [h4, h3, h2, h1]
  simp only [leValue, leNat, BitVec.toNat_ofNat]
  omega

/-- Byte `i` of a little-endian value, in natural numbers. -/
theorem leNat_byte (bs : List Byte) (i : Nat) (h : i < bs.length) : leNat bs / 256 ^ i % 256 = bs[i].toNat := by
  induction bs generalizing i with
  | nil => simp at h
  | cons b bs ih =>
    have hb := b.isLt
    cases i with
    | zero =>
      simp only [leNat, pow_zero, Nat.div_one, List.getElem_cons_zero]
      omega
    | succ i =>
      have hi : i < bs.length := by simpa using h
      rw [List.getElem_cons_succ, ← ih i hi, pow_succ', ← Nat.div_div_eq_div_mul]
      congr 2
      simp only [leNat]
      omega

/-- A linear read whose bytes translate to `p 0`, `p 1`, ... gives the bytes there. -/
theorem readLinear_translated (s : State) (k : Config.Access) (l : Config.Level) (n : Nat) (lin : Word) (p : Nat → Word)
    (h : ∀ j < n, translate s (lin + BitVec.ofNat 32 j) k l = .ok (p j)) :
    readLinear s k l lin n = .ok ((List.range n).map fun j => memRead s.mem (p j).toNat) := by
  induction n generalizing lin p with
  | zero => rfl
  | succ n ih =>
    have h0 : translate s lin k l = .ok (p 0) := by simpa using h 0 (Nat.succ_pos n)
    have hs := ih (lin + 1#32) (fun j => p (j + 1)) fun j hj => by
      rw [← h (j + 1) (by omega), BitVec.add_assoc]
      congr 2
      apply BitVec.eq_of_toNat_eq
      simp [BitVec.toNat_add, Nat.add_comm]
    simp [readLinear, h0, hs, List.range_succ_eq_map]

/-- A memory operand that passes its check and whose bytes translate is their little-endian value (R33). -/
theorem readOperand_translated (s : State) (m : MemOperand) (n : Nat) (p : Nat → Word)
    (hc : segCheck s (operandSeg m) (effAddr s m.addr) n = none)
    (h : ∀ j < n, translate s ((segView s (operandSeg m)).base + effAddr s m.addr + BitVec.ofNat 32 j) .read
      (accessLevel s) = .ok (p j)) :
    readOperand s m n = .ok (leValue (8 * n) ((List.range n).map fun j => memRead s.mem (p j).toNat)) := by
  simp [readOperand, segRead, hc, readLinear_translated s _ _ n _ p h]

/-- A memory operand that fails its check raises (R33). -/
theorem readOperand_illegal (s : State) (m : MemOperand) (n : Nat) (e : Exception)
    (h : segCheck s (operandSeg m) (effAddr s m.addr) n = some e) : readOperand s m n = .error e := by
  simp [readOperand, segRead, h]

end Sys2Proof.Machine
end

