-- ==== Sys2Proof/Laws/PageFaults.lean ====
section
/-!
SUPPORT. A read of several bytes and the first of them that `Translate` refuses (R117, R120), for operands and descriptors.
-/

namespace Sys2Proof.Machine

/-- The code of the first of `n` bytes from `lin` that `Translate` refuses. -/
def firstRefused (s : State) (kind : Config.Access) (level : Config.Level) (lin : Word) (n : Nat) : Option HalfWord :=
  (List.range n).findSome? fun j => translateCode s (lin + BitVec.ofNat 32 j) kind level

theorem firstRefused_succ (s : State) (kind : Config.Access) (level : Config.Level) (lin : Word) (n : Nat) :
    firstRefused s kind level lin (n + 1) =
      (translateCode s lin kind level).or (firstRefused s kind level (lin + 1#32) n) := by
  have e : (fun j => translateCode s (lin + BitVec.ofNat 32 (j + 1)) kind level) =
      fun j => translateCode s (lin + 1#32 + BitVec.ofNat 32 j) kind level := by
    funext j
    rw [BitVec.add_assoc]
    congr 2
    apply BitVec.eq_of_toNat_eq
    simp
    omega
  unfold firstRefused
  rw [List.range_succ_eq_map, List.findSome?_cons, List.findSome?_map]
  simp only [Function.comp_def, Nat.succ_eq_add_one, e, BitVec.add_zero]
  cases translateCode s lin kind level <;> rfl

/-- A read fails exactly where a byte of it does not translate, with the code of the first one. -/
theorem readLinear_cases (s : State) (kind : Config.Access) (level : Config.Level) (lin : Word) (n : Nat) :
    (∃ c, firstRefused s kind level lin n = some c ∧ readLinear s kind level lin n = .error (.pf c)) ∨
      (firstRefused s kind level lin n = none ∧ ∃ bs, readLinear s kind level lin n = .ok bs) := by
  induction n generalizing lin with
  | zero => exact .inr ⟨rfl, [], rfl⟩
  | succ n ih =>
    rw [firstRefused_succ, readLinear]
    cases ht : translate s lin kind level with
    | error c => exact .inl ⟨c, by simp [translateCode, ht], rfl⟩
    | ok p =>
      rcases ih (lin + 1#32) with ⟨c, h1, h2⟩ | ⟨h1, bs, h2⟩
      · exact .inl ⟨c, by simp [translateCode, ht, h1], by simp only [h2]⟩
      · exact .inr ⟨by simp [translateCode, ht, h1], memRead s.mem p.toNat :: bs, by simp only [h2]⟩

/-- A descriptor read fails exactly where a byte of the descriptor does not translate (R41, R117). -/
theorem readDesc_cases (s : State) (sel : Selector) :
    (∃ c, firstPageFault s sel = some c ∧ readDesc s sel = .error (.pf c)) ∨
      (firstPageFault s sel = none ∧ ∃ d, readDesc s sel = .ok d) := by
  rcases readLinear_cases s .read .supervisor (descAddr s sel) 8 with ⟨c, h1, h2⟩ | ⟨h1, bs, h2⟩
  · exact .inl ⟨c, h1, by simp only [readDesc, h2]⟩
  · exact .inr ⟨h1, leValue 64 bs, by simp only [readDesc, h2]⟩

/-- A far form runs the far jump with its pointer (R80 to R83). -/
theorem exec_far (s : State) (i : Instr) (os : OpSize) (p : FarPointer) (h : farOperand s i = some (os, .ok p)) :
    exec i s = finish s (farJump s os p.sel p.off) := by
  cases i with
  | jmpPtr16_16 off sel => cases h; rfl
  | jmpPtr16_32 off sel => cases h; rfl
  | jmpM16_16 m =>
    simp only [farOperand, Option.some.injEq, Prod.mk.injEq] at h
    obtain ⟨rfl, h⟩ := h
    simp only [exec, execJmpM16_16, h, farIndirect]
  | jmpM16_32 m =>
    simp only [farOperand, Option.some.injEq, Prod.mk.injEq] at h
    obtain ⟨rfl, h⟩ := h
    simp only [exec, execJmpM16_32, h, farIndirect]
  | jmpRel8 | jmpRel16 | jmpRel32 | jmpRM16 | jmpRM32 => cases h

end Sys2Proof.Machine
end

