-- ==== Sys2Proof/Laws/PerInstr.lean ====
section
/-!
SUPPORT. Statements about every instruction as written, one lemma per constructor.
-/

namespace Sys2Proof.Laws.EncodingLength

/-- The encoding of an instruction has the length R61 gives, in a code segment of either default size. -/
def Statement (i : Instr) : Prop := ∀ d : Bool, (encode d i).length = instrLength d i

theorem jmpRel8 (os : OpSize) (rel : BitVec 8) : Statement (.jmpRel8 os rel) := by
  intro d; simp [encode, instrLength]

theorem jmpRel16 (rel : BitVec 16) : Statement (.jmpRel16 rel) := by
  intro d; simp [encode, instrLength]

theorem jmpRel32 (rel : BitVec 32) : Statement (.jmpRel32 rel) := by
  intro d; simp [encode, instrLength]

theorem jmpRM16 (rm : RegMem) : Statement (.jmpRM16 rm) := fun d => length_encodeRegMem d .o16 rm

theorem jmpRM32 (rm : RegMem) : Statement (.jmpRM32 rm) := fun d => length_encodeRegMem d .o32 rm

theorem jmpPtr16_16 (off : BitVec 16) (sel : Selector) : Statement (.jmpPtr16_16 off sel) := by
  intro d; simp [encode, instrLength]

theorem jmpPtr16_32 (off : BitVec 32) (sel : Selector) : Statement (.jmpPtr16_32 off sel) := by
  intro d; simp [encode, instrLength]

theorem jmpM16_16 (m : MemOperand) : Statement (.jmpM16_16 m) := fun d => length_encodeFarMem d .o16 m

theorem jmpM16_32 (m : MemOperand) : Statement (.jmpM16_32 m) := fun d => length_encodeFarMem d .o32 m

end Sys2Proof.Laws.EncodingLength
end

