-- ==== Sys2Proof/Tests/Slice0.lean ====
section
/-!
SUPPORT. Tests of the model and witnesses for the hypotheses of the obligations. The words and the expected results are
the test vectors of spec/95_test_vectors.md (V<n>), written out from the encodings of R52 to R60.
-/

namespace Sys2Proof.Tests

open Sys2Proof Sys2Proof.Machine

/-! ### Well-formedness: one ill-formed term for each check -/

theorem test_wf_bp_without_disp : (Instr.jmpRM16 (.mem ⟨.a16 (.based .bp .none), none⟩)).wellFormed = false := by decide
theorem test_wf_esp_base : (Instr.jmpRM32 (.mem ⟨.a32 (.based .esp (.d8 4)), none⟩)).wellFormed = false := by decide
theorem test_wf_ebp_without_disp : (Instr.jmpM16_16 ⟨.a32 (.based .ebp .none), none⟩).wellFormed = false := by decide
theorem test_wf_sib_esp_index : (Instr.jmpM16_32 ⟨.a32 (.sib 2 (some .esp) .eax .none), none⟩).wellFormed = false := by
  decide
theorem test_wf_sib_ebp_without_disp :
    (Instr.jmpM16_32 ⟨.a32 (.sib 2 (some .ecx) .ebp .none), none⟩).wellFormed = false := by decide
theorem test_wf_nobase_esp_index :
    (Instr.jmpM16_32 ⟨.a32 (.sibNoBase 2 (some .esp) 0), some .ss⟩).wellFormed = false := by decide

/-! ### Decoding: at least one word for every constructor, written out from R52 to R60 -/

/-- V1. -/
theorem test_decode_rel8 : decode true [0xEB#8, 0x05#8] = .instr (.jmpRel8 .o32 5) [] := by decide
/-- V10: 66H in a 32-bit segment. -/
theorem test_decode_rel8_66 : decode true [0x66#8, 0xEB#8, 0x05#8] = .instr (.jmpRel8 .o16 5) [] := by decide
/-- V13. -/
theorem test_decode_rel16 : decode false [0xE9#8, 0x00#8, 0x80#8] = .instr (.jmpRel16 0x8000) [] := by decide
/-- V11. -/
theorem test_decode_rel32 :
    decode true [0xE9#8, 0xFB#8, 0xFF#8, 0xFF#8, 0xFF#8] = .instr (.jmpRel32 0xFFFFFFFB) [] := by decide
/-- V22, V28: a register and a based memory operand. -/
theorem test_decode_rm16 :
    decode false [0xFF#8, 0xE3#8] = .instr (.jmpRM16 (.reg .ebx)) [] ∧
      decode false [0xFF#8, 0x66#8, 0x02#8] = .instr (.jmpRM16 (.mem ⟨.a16 (.based .bp (.d8 2)), none⟩)) [] := by decide
/-- V27, V29: the two SIB shapes. -/
theorem test_decode_rm32 :
    decode true [0xFF#8, 0x24#8, 0x8D#8, 0x00#8, 0x40#8, 0x00#8, 0x00#8] =
        .instr (.jmpRM32 (.mem ⟨.a32 (.sibNoBase 2 (some .ecx) 0x4000), none⟩)) [] ∧
      decode true [0xFF#8, 0x64#8, 0x24#8, 0x04#8] =
        .instr (.jmpRM32 (.mem ⟨.a32 (.sib 0 none .esp (.d8 4)), none⟩)) [] := by decide
/-- V43. -/
theorem test_decode_ptr16_16 :
    decode false [0xEA#8, 0x78#8, 0x56#8, 0x34#8, 0x12#8] = .instr (.jmpPtr16_16 0x5678 0x1234) [] := by decide
/-- V53. -/
theorem test_decode_ptr16_32 :
    decode true [0xEA#8, 0x00#8, 0x00#8, 0x10#8, 0x00#8, 0x08#8, 0x00#8] =
      .instr (.jmpPtr16_32 0x00100000 0x0008) [] := by decide
/-- V46. -/
theorem test_decode_m16_16 :
    decode false [0xFF#8, 0x2E#8, 0x00#8, 0x30#8] = .instr (.jmpM16_16 ⟨.a16 (.direct 0x3000), none⟩) [] := by decide
/-- V73. -/
theorem test_decode_m16_32 :
    decode true [0xFF#8, 0x2D#8, 0x00#8, 0x50#8, 0x00#8, 0x00#8] =
      .instr (.jmpM16_32 ⟨.a32 (.direct 0x5000), none⟩) [] := by decide
/-- V39, V40: the two illegal encodings. -/
theorem test_decode_illegal :
    decode false [0xFF#8, 0xE8#8] = .invalidOpcode ∧ decode false [0xF0#8, 0xEB#8, 0xFE#8] = .invalidOpcode := by decide
/-- V41, V42: the refused ones. -/
theorem test_decode_refused :
    decode false [0xFF#8, 0x30#8] = .refused (.notJmpGroup 6) ∧ decode false [0x90#8] = .refused (.notJmpOpcode 0x90) ∧
      decode false [0xF3#8, 0xEB#8] = .refused (.repPrefix 0xF3) ∧
      decode false [0x66#8, 0x66#8] = .refused (.repeatedPrefix 0x66) ∧
      decode false [0x2E#8, 0xEB#8] = .refused .prefixWithoutMemory ∧
      decode false [0x67#8, 0xE9#8] = .refused .prefixWithoutMemory ∧
      decode false [0x26#8, 0x2E#8] = .refused .twoOverrides := by decide

/-! ### Start states (95_test_vectors.md section 2) -/

/-- Bytes at consecutive addresses. -/
def cellsAt : Word → List Byte → List (Word × Byte)
  | _, [] => []
  | a, b :: bs => (a, b) :: cellsAt (a + 1) bs

def load (s : State) (a : Word) (bs : List Byte) : State := setMem s (memWriteAll s.mem (cellsAt a bs))

def flat : Config.DataSeg :=
  { sel := 0x0010#16, base := 0#32, limit := 0xFFFFFFFF#32, ar := 0x93#8, b := true, valid := true }

/-- The GDT of section 6. -/
def gdt : List (Word × Byte) :=
  cellsAt 0x00010008#32 [0xFF#8, 0xFF#8, 0x00#8, 0x00#8, 0x00#8, 0x9A#8, 0xCF#8, 0x00#8] ++
  cellsAt 0x00010010#32 [0xFF#8, 0xFF#8, 0x00#8, 0x00#8, 0x00#8, 0x92#8, 0xCF#8, 0x00#8] ++
  cellsAt 0x00010018#32 [0xFF#8, 0xFF#8, 0x00#8, 0x00#8, 0x00#8, 0x9E#8, 0xCF#8, 0x00#8] ++
  cellsAt 0x00010020#32 [0x56#8, 0x34#8, 0x08#8, 0x00#8, 0x00#8, 0x8C#8, 0x12#8, 0x00#8] ++
  cellsAt 0x00010028#32 [0xFF#8, 0xFF#8, 0x00#8, 0x00#8, 0x00#8, 0x1A#8, 0xCF#8, 0x00#8] ++
  cellsAt 0x00010030#32 [0xFF#8, 0x0F#8, 0x00#8, 0x00#8, 0x02#8, 0x9A#8, 0x00#8, 0x00#8] ++
  cellsAt 0x00010038#32 [0x67#8, 0x00#8, 0x00#8, 0x00#8, 0x03#8, 0x89#8, 0x00#8, 0x00#8] ++
  cellsAt 0x00010040#32 [0x00#8, 0x00#8, 0x38#8, 0x00#8, 0x00#8, 0x85#8, 0x00#8, 0x00#8]

/-- State S32, with EIP 00001000. -/
def s32 : State :=
  { State.reset with
    eip := 0x00001000#32, pe := true, mem := memWriteAll [] gdt, gdtr := { base := 0x00010000#32, limit := 0x0047#16 }
    cs := { sel := 0x0008#16, base := 0#32, limit := 0xFFFFFFFF#32, ar := 0x9B#8, d := true }
    ds := flat, es := flat, ss := flat }

/-- State S32 at CPL 3, as in V68. -/
def s32u : State := setCs s32 { s32.cs with sel := 0x001B#16 }

def real : Config.DataSeg := { State.resetSeg with valid := true }

/-- State S16, with EIP 00000100. -/
def s16 : State :=
  { State.reset with
    eip := 0x00000100#32, cs := { sel := 0#16, base := 0#32, limit := 0x0000FFFF#32, ar := 0x93#8, d := false }
    ds := real, es := real, ss := real }

/-- S16 in V86 mode, as in V51. -/
def v86 : State := { s16 with pe := true, vm := true }

def eax (s : State) (v : Word) : State := { s with regs := { s.regs with eax := v } }
def ebx (s : State) (v : Word) : State := { s with regs := { s.regs with ebx := v } }
def ecx (s : State) (v : Word) : State := { s with regs := { s.regs with ecx := v } }
def ebp (s : State) (v : Word) : State := { s with regs := { s.regs with ebp := v } }
def dsLimit (s : State) (v : Word) : State := { s with ds := { s.ds with limit := v } }
def ssLimit (s : State) (v : Word) : State := { s with ss := { s.ss with limit := v } }
def csLimit (s : State) (v : Word) : State := { s with cs := { s.cs with limit := v } }

/-- The state an outcome goes on with. -/
def stateOf (o : Host.Outcome State Fault Refusal) : State :=
  match o with
  | .next t => t
  | .fault _ => State.reset
  | .refused _ => State.reset

/-- The state after one step with these bytes at linear address `CS.base + EIP`. -/
def run (s : State) (bs : List Byte) : State := stateOf (step (load s (s.cs.base + s.eip) bs))

/-- Vector, code, EIP and CS.sel of the fault record. -/
def faultOf (s : State) : Option (Nat × Option HalfWord × Word × Selector) :=
  s.faultRecord.map fun r => (r.vector, r.code, r.eip, r.csSel)

/-! ### One step: at most two for each form -/

/-- V6: forward wrap with operand size 16. -/
theorem test_rel8_wraps : (run (setEip s16 0x0000FFFE) [0xEB, 0x05]).eip = 0x00000005#32 := by decide
/-- V20: beyond the limit. -/
theorem test_rel8_limit :
    faultOf (run (setEip (csLimit s32 0x00000FFF) 0x00000FD0) [0xEB, 0x2E]) =
      some (13, some 0x0000, 0x00000FD0, 0x0008) := by decide
/-- V13: sign extension and mask. -/
theorem test_rel16 : (run s16 [0xE9, 0x00, 0x80]).eip = 0x00008103#32 := by decide
/-- V16: the length counts the prefix. -/
theorem test_rel16_prefix : (run s32 [0x66, 0xE9, 0x10, 0x00]).eip = 0x00001014#32 := by decide
/-- V12. -/
theorem test_rel32 : (run (setEip s32 0x00400000) [0xE9, 0x00, 0x10, 0x00, 0x00]).eip = 0x00401005#32 := by decide
/-- V17: no error code in real-address mode. -/
theorem test_rel32_real :
    faultOf (run s16 [0x66, 0xE9, 0x00, 0x00, 0x01, 0x00]) = some (13, none, 0x00000100, 0x0000) := by decide
/-- V22: the upper half of the register is ignored. -/
theorem test_rm16_reg : (run (ebx s16 0xABCD1234) [0xFF, 0xE3]).eip = 0x00001234#32 := by decide
/-- V28: BP, SS, and the wrap of the 16-bit sum. -/
theorem test_rm16_mem : (run (load (ebp s16 0x0000FFFF) 0x0001 [0x34, 0x12]) [0xFF, 0x66, 0x02]).eip = 0x00001234#32 := by
  decide
/-- V27: scaled index, no base. -/
theorem test_rm32_sib :
    (run (load (ecx s32 3) 0x400C [0x00, 0x10]) [0xFF, 0x24, 0x8D, 0x00, 0x40, 0x00, 0x00]).eip = 0x00001000#32 := by
  decide
/-- V33: the SS override decides the vector. -/
theorem test_rm32_ss :
    faultOf (run (ssLimit s32 0x00002001) [0x36, 0xFF, 0x25, 0x00, 0x20, 0x00, 0x00]) =
      some (12, some 0x0000, 0x00001000, 0x0008) := by decide
/-- V43. -/
theorem test_ptr16_16_real :
    let t := run s16 [0xEA, 0x78, 0x56, 0x34, 0x12]
    t.cs = { sel := 0x1234#16, base := 0x00012340#32, limit := 0x0000FFFF#32, ar := 0x93#8, d := false } ∧
      t.eip = 0x00005678#32 := by decide
/-- V57: the offset of a call gate under operand size 16. -/
theorem test_ptr16_16_gate :
    let t := run s32 [0x66, 0xEA, 0x00, 0x00, 0x20, 0x00]
    t.cs.sel = 0x0008#16 ∧ t.eip = 0x00003456#32 := by decide
/-- V53: CS, EIP and the accessed bit in memory. -/
theorem test_ptr16_32_code :
    let t := run s32 [0xEA, 0x00, 0x00, 0x10, 0x00, 0x08, 0x00]
    t.cs = { sel := 0x0008#16, base := 0#32, limit := 0xFFFFFFFF#32, ar := 0x9B#8, d := true } ∧
      t.eip = 0x00100000#32 ∧ memRead t.mem 0x0001000D = 0x9B#8 := by decide
/-- V68: a conforming segment keeps CPL 3. -/
theorem test_ptr16_32_conforming :
    let t := run s32u [0xEA, 0x00, 0x00, 0x10, 0x00, 0x18, 0x00]
    t.cs.sel = 0x001B#16 ∧ t.eip = 0x00100000#32 ∧ t.faultRecord = none := by decide
/-- V46. -/
theorem test_m16_16_real :
    let t := run (load s16 0x3000 [0x00, 0x01, 0x00, 0xF0]) [0xFF, 0x2E, 0x00, 0x30]
    t.cs.sel = 0xF000#16 ∧ t.cs.base = 0x000F0000#32 ∧ t.eip = 0x00000100#32 := by decide
/-- V52: V86 mode records code 0. -/
theorem test_m16_16_v86 :
    faultOf (run v86 [0xFF, 0x2E, 0xFD, 0xFF]) = some (13, some 0x0000, 0x00000100, 0x0000) := by decide
/-- V73. -/
theorem test_m16_32_code :
    let t := run (load s32 0x5000 [0x00, 0x00, 0x10, 0x00, 0x08, 0x00]) [0xFF, 0x2D, 0x00, 0x50, 0x00, 0x00]
    t.cs.sel = 0x0008#16 ∧ t.eip = 0x00100000#32 ∧ memRead t.mem 0x0001000D = 0x9B#8 := by decide
/-- V50: all six bytes are checked. -/
theorem test_m16_32_real :
    faultOf (run s16 [0x66, 0xFF, 0x2E, 0xFB, 0xFF]) = some (13, none, 0x00000100, 0x0000) := by decide

/-! ### The host's two questions at reset -/

theorem test_table_words :
    decodeTableWord 8 0xEB = some (.jmpRel8 .o16 0) ∧
      decodeTableWord 16 0xFF20 = some (.jmpRM16 (.mem ⟨.a16 (.based .bxSi .none), none⟩)) ∧
      decodeTableWord 16 0xFF28 = some (.jmpM16_16 ⟨.a16 (.based .bxSi .none), none⟩) := by decide

theorem test_placed_word_runs : (stateOf (step (State.reset.withFetchWord 8 0xEB))).eip = 0x0000FFF2#32 := by decide

/-! ### Witnesses: concrete states and operands that meet the hypotheses of each obligation together, per clause -/

/-- `s` with these bytes where the next fetch reads. -/
def at_ (s : State) (bs : List Byte) : State := load s (s.cs.base + s.eip) bs

/-- S32 or S16 with one byte of code below the limit: the second byte is beyond it. -/
def lastByte (s : State) : State := at_ (csLimit s s.eip) [0xEB]

theorem witness_EncodedInstructionDecodesBack :
    (Instr.jmpM16_32 ⟨.a32 (.sibNoBase 3 (some .edi) 0xFFFFFFFF), some .gs⟩).wellFormed = true ∧
      (Instr.jmpRM16 (.mem ⟨.a16 (.based .bp (.d8 0xFF)), none⟩)).wellFormed = true := by decide

theorem witness_DecodedIsWellFormedOfItsLength :
    decode true [0x36, 0x66, 0xFF, 0x2D, 0x00, 0x50, 0x00, 0x00, 0x90] =
      .instr (.jmpM16_16 ⟨.a32 (.direct 0x5000), some .ss⟩) [0x90] := by decide

theorem witness_OrderOfLeadingBytesIsFree :
    (∀ b ∈ [0x66#8, 0x36#8, 0x67#8], b ∈ [0x66#8, 0x67#8, 0x26#8, 0x2E#8, 0x36#8, 0x3E#8, 0x64#8, 0x65#8]) ∧
      [0x66#8, 0x36#8, 0x67#8].Perm [0x67#8, 0x66#8, 0x36#8] ∧
      decode true ([0x66#8, 0x36#8, 0x67#8] ++ [0xFF#8, 0x27#8]) =
        .instr (.jmpRM16 (.mem ⟨.a16 (.based .bx .none), some .ss⟩)) [] := by decide

theorem witness_LockedJumpIsInvalid :
    (Instr.jmpRel8 .o16 0xFE).wellFormed = true ∧
      (∀ b ∈ [0x66#8], b ∈ [0x66#8, 0x67#8, 0x26#8, 0x2E#8, 0x36#8, 0x3E#8, 0x64#8, 0x65#8]) ∧
      decode true ([0x66] ++ [0xEB, 0x05]) = .instr (.jmpRel8 .o16 5) [] ∧
      (at_ s32 [0x66, 0xF0, 0xEB, 0x05]).running ∧ (at_ s32 [0x66, 0xF0, 0xEB, 0x05]).cs.d = true ∧
      fetches (at_ s32 [0x66, 0xF0, 0xEB, 0x05]) [0x66, 0xF0, 0xEB, 0x05] := by
  unfold State.running fetches; decide

/-- Leading bytes for each clause: any; with a repeated one; with an override; with 67H. -/
theorem witness_NotAdmittedBytesAreRefused :
    leading [] ∧ leading [0x66, 0x67, 0xF0, 0x36] ∧
      (0x90#8 ∉ [0xEB#8, 0xE9#8, 0xEA#8, 0xFF#8, 0x66#8, 0x67#8, 0xF0#8, 0xF2#8, 0xF3#8] ∧ 0x90#8 ∉ overrideBytes) ∧
      (field53 0x30 ≠ 4#3 ∧ field53 0x30 ≠ 5#3) ∧ 0xF0#8 ∈ [0x66#8, 0x67#8, 0xF0#8, 0x36#8] ∧
      (∃ g ∈ [0x66#8, 0x67#8, 0xF0#8, 0x36#8], g ∈ overrideBytes) ∧ leading [0x67] ∧
      (∃ g ∈ [0x67#8], g = 0x67#8 ∨ g ∈ overrideBytes) ∧ field53 0xE0 = 4#3 ∧ field76 0xE0 = 3#2 := by
  unfold leading; refine ⟨?_, ?_, ?_, ?_, ?_, ?_, ?_, ?_, ?_, ?_⟩ <;> decide

theorem witness_StepRunsTheFetchedInstruction_stopped :
    (s16.recorded 13 none).faultRecord = some ⟨13, none, 0x00000100, 0x0000⟩ ∧
      (markRefused s16 (.repPrefix 0xF3)).faultRecord = none ∧
      (markRefused s16 (.repPrefix 0xF3)).refusalMark = some (.repPrefix 0xF3) := by decide

theorem witness_StepRunsTheFetchedInstruction_running :
    (at_ s16 [0xEB, 0xFE]).running ∧ fetchInstr (at_ s16 [0xEB, 0xFE]) = .instr (.jmpRel8 .o16 0xFE) ∧
      (at_ s16 [0xF0, 0xEB, 0xFE]).running ∧ fetchInstr (at_ s16 [0xF0, 0xEB, 0xFE]) = .raised .invalidOpcode ∧
      (at_ s16 [0x90]).running ∧ fetchInstr (at_ s16 [0x90]) = .refused (.notJmpOpcode 0x90) := by
  unfold State.running; decide

theorem witness_StepRunsTheDecodedBytes :
    (at_ s32 [0xFF, 0xE0]).running ∧ decode (at_ s32 [0xFF, 0xE0]).cs.d [0xFF, 0xE0] = .instr (.jmpRM32 (.reg .eax)) [] ∧
      fetches (at_ s32 [0xFF, 0xE0]) [0xFF, 0xE0] := by
  unfold State.running fetches; decide

/-- Byte 0 at the limit, byte 1 one beyond it; and an offset and a linear address that wrap. -/
theorem witness_FetchByteReadsTheCodeSegment :
    (let s := lastByte s32
     ((0x1000#32).toNat = (s.cs.base.toNat + (s.eip.toNat + 0) % 4294967296) % 4294967296 ∧
        (s.eip.toNat + 0) % 4294967296 ≤ s.cs.limit.toNat) ∧
      (0x1001#32).toNat = (s.cs.base.toNat + (s.eip.toNat + 1) % 4294967296) % 4294967296 ∧
      s.cs.limit.toNat < (s.eip.toNat + 1) % 4294967296 ∧ s.mode = .prot ∧ s.paging = false) ∧
    (0x0000FFFF#32).toNat =
      (State.reset.cs.base.toNat + (State.reset.eip.toNat + 0x1000F) % 4294967296) % 4294967296 := by decide

/-- The first byte is the last within the limit. -/
theorem witness_FetchExceptionIsTakenByteByByte :
    (lastByte s32).running ∧ decode (lastByte s32).cs.d [0xEB] = .incomplete ∧ fetches (lastByte s32) [0xEB] ∧
      fetchByte (lastByte s32) 1 = .error (.gp 0) ∧ (lastByte v86).running ∧ fetches (lastByte v86) [0xEB] ∧
      fetchByte (lastByte v86) 1 = .error .interrupt13 := by
  unfold State.running fetches; decide

theorem witness_FetchBeyondLimitRaises :
    (setEip s16 0x00010000).running ∧ (setEip s16 0x00010000).cs.limit < (setEip s16 0x00010000).eip ∧
      (setEip v86 0x00010000).running ∧ (setEip v86 0x00010000).cs.limit < (setEip v86 0x00010000).eip ∧
      (csLimit s32 0xFFF).running ∧ (csLimit s32 0xFFF).cs.limit < (csLimit s32 0xFFF).eip := by
  unfold State.running; decide

/-- F0H; `FF /5` with a register after 67H, and without a byte before it. -/
theorem witness_FarRegisterFormRaisesInterrupt6 :
    ((at_ v86 [0xF0, 0xEB, 0xFE]).running ∧ fetches (at_ v86 [0xF0, 0xEB, 0xFE]) [0xF0, 0xEB, 0xFE] ∧
      decode (at_ v86 [0xF0, 0xEB, 0xFE]).cs.d [0xF0, 0xEB, 0xFE] = .invalidOpcode) ∧
    ((at_ s32 [0x67, 0xFF, 0xE8]).running ∧ leading [0x67] ∧
      fetches (at_ s32 [0x67, 0xFF, 0xE8]) ([0x67] ++ [0xFF, 0xE8]) ∧ field53 0xE8 = 5#3 ∧ field76 0xE8 = 3#2) ∧
    leading [] ∧ fetches (at_ s32 [0xFF, 0xE8]) ([] ++ [0xFF, 0xE8]) := by
  unfold State.running fetches leading; decide

theorem witness_OutOfScopeBytesSetTheMark_refused :
    (at_ s32 [0x67, 0xFF, 0xE0]).running ∧ fetches (at_ s32 [0x67, 0xFF, 0xE0]) [0x67, 0xFF, 0xE0] ∧
      decode (at_ s32 [0x67, 0xFF, 0xE0]).cs.d [0x67, 0xFF, 0xE0] = .refused .prefixWithoutMemory := by
  unfold State.running fetches; decide

/-- A leading byte before each kind of refused byte; the sides of the hypotheses that name no state are those of
`witness_NotAdmittedBytesAreRefused`. -/
theorem witness_OutOfScopeBytesSetTheMark :
    (leading [0x66] ∧ leading [0x66, 0x2E] ∧ leading [0x26, 0x66] ∧ leading [0x67]) ∧
    ((at_ s32 [0x66, 0x90]).running ∧ fetches (at_ s32 [0x66, 0x90]) ([0x66] ++ [0x90])) ∧
    ((at_ s32 [0x66, 0xFF, 0x30]).running ∧ fetches (at_ s32 [0x66, 0xFF, 0x30]) ([0x66] ++ [0xFF, 0x30])) ∧
    ((at_ s32 [0x66, 0xF3]).running ∧ fetches (at_ s32 [0x66, 0xF3]) ([0x66] ++ [0xF3])) ∧
    ((at_ s32 [0x66, 0x2E, 0x66]).running ∧ fetches (at_ s32 [0x66, 0x2E, 0x66]) ([0x66, 0x2E] ++ [0x66])) ∧
    ((at_ s32 [0x26, 0x66, 0x2E]).running ∧ fetches (at_ s32 [0x26, 0x66, 0x2E]) ([0x26, 0x66] ++ [0x2E]) ∧
      ∃ g ∈ [0x26#8, 0x66#8], g ∈ overrideBytes) ∧
    ((at_ s32 [0x67, 0xEB]).running ∧ fetches (at_ s32 [0x67, 0xEB]) ([0x67] ++ [0xEB])) ∧
    (at_ s32 [0x67, 0xFF, 0xE0]).running ∧ fetches (at_ s32 [0x67, 0xFF, 0xE0]) ([0x67] ++ [0xFF, 0xE0]) := by
  unfold State.running fetches leading; refine ⟨?_, ?_, ?_, ?_, ?_, ?_, ?_, ?_⟩ <;> decide

theorem witness_JumpToItselfKeepsTheState :
    (at_ s32 [0xEB, 0xFE]).running ∧ fetches (at_ s32 [0xEB, 0xFE]) [0xEB, 0xFE] ∧ s32.cs.d = true ∧
      (at_ (setEip s16 0x0000FFFE) [0xEB, 0xFE]).running ∧
      fetches (at_ (setEip s16 0x0000FFFE) [0xEB, 0xFE]) [0xEB, 0xFE] ∧ (0x0000FFFE#32 ≤ 0x0000FFFF#32) := by
  unfold State.running fetches; decide

/-- V19 and its 16-bit twin: the target is the limit. -/
theorem witness_ShortJumpReachesItsTarget :
    let s := setEip (csLimit s32 0x00000FFF) 0x00000FD0
    (s.eip + (if s.cs.d then 3#32 else 2#32) + (0x2C#8).signExtend 32) &&& 0x0000FFFF#32 ≤ s.cs.limit ∧
      s.eip + (if s.cs.d then 2#32 else 3#32) + (0x2D#8).signExtend 32 ≤ s.cs.limit := by decide

/-- V13, and a target that is the limit. -/
theorem witness_Rel16JumpReachesItsTarget :
    (((0x00008103#32).toNat : Int) = ((s16.eip.toNat : Int) + 3 + (0x8000#16).toInt) % 65536 ∧
      0x00008103#32 ≤ s16.cs.limit) ∧
    ((0x0000FFFF#32).toNat : Int) = ((s16.eip.toNat : Int) + 3 + (0xFEFC#16).toInt) % 65536 ∧
      0x0000FFFF#32 ≤ s16.cs.limit := by decide

theorem witness_Rel32JumpReachesItsTarget :
    (((0xFFFFFFFF#32).toNat : Int) = ((s32.eip.toNat : Int) + 5 + (0xFFFFEFFA#32).toInt) % 4294967296) ∧
      0xFFFFFFFF#32 ≤ s32.cs.limit := by decide

/-- V22, V21: the target is at most the limit. -/
theorem witness_RegisterOperandIsTheTarget :
    (0x0000FFFF#32).toNat = (readReg (ebx s16 0xABCDFFFF) .ebx).toNat % 65536 ∧ 0x0000FFFF#32 ≤ s16.cs.limit ∧
      readReg (eax s32 0x12345678) .eax ≤ s32.cs.limit := by decide

/-- V25, and a word that ends at offset 0FFFFH. -/
theorem witness_MemoryWordIsTheTarget :
    let m : MemOperand := ⟨.a16 (.direct 0xFFFE), none⟩
    let s := load s16 0xFFFE [0x20, 0x7C]
    segCheck s (operandSeg m) (effAddr s m.addr) 2 = none ∧
      (∀ j < 2, translate s (operandLinear s m j) .read (accessLevel s) = .ok (operandLinear s m j)) ∧
      (0x00007C20#32).toNat = (memRead s.mem (operandLinear s m 0).toNat).toNat +
        256 * (memRead s.mem (operandLinear s m 1).toNat).toNat ∧ 0x00007C20#32 ≤ s.cs.limit := by decide

/-- V32: the last byte of the operand is at the limit. -/
theorem witness_MemoryDwordIsTheTarget :
    let m : MemOperand := ⟨.a32 (.direct 0x2000), none⟩
    let s := load (dsLimit s32 0x00002003) 0x2000 [0x78, 0x56, 0x34, 0x12]
    segCheck s (operandSeg m) (effAddr s m.addr) 4 = none ∧
      (∀ j < 4, translate s (operandLinear s m j) .read (accessLevel s) = .ok (operandLinear s m j)) ∧
      (memRead s.mem (operandLinear s m 3).toNat ++ memRead s.mem (operandLinear s m 2).toNat ++
        memRead s.mem (operandLinear s m 1).toNat ++ memRead s.mem (operandLinear s m 0).toNat : Word) ≤ s.cs.limit := by
  decide

/-- The relative clauses: a target one beyond the limit. -/
theorem witness_NearTargetBeyondLimitRaises_relative :
    let s := setEip (csLimit s32 0x00000FFF) 0x00000FD0
    s.cs.limit < (s.eip + (if s.cs.d then 3#32 else 2#32) + (0x2D#8).signExtend 32) &&& 0x0000FFFF#32 ∧
      s.cs.limit < s.eip + (if s.cs.d then 2#32 else 3#32) + (0x2E#8).signExtend 32 ∧
      s.cs.limit < (s.eip + (if s.cs.d then 4#32 else 3#32) + (0x002C#16).signExtend 32) &&& 0x0000FFFF#32 ∧
      s16.cs.limit < s16.eip + (if s16.cs.d then 5#32 else 6#32) + 0x0000FEFA#32 := by decide

theorem witness_NearTargetBeyondLimitRaises_indirect :
    readRM16 (ebx (csLimit s16 0x0FFF) 0x1000) (.reg .ebx) = .ok 0x00001000 ∧ (csLimit s16 0x0FFF).cs.limit < 0x00001000 ∧
      readRM32 (load s16 0x2000 [0x00, 0x00, 0x01, 0x00]) (.mem ⟨.a16 (.direct 0x2000), none⟩) = .ok 0x00010000 ∧
      s16.cs.limit < 0x00010000 := by decide

theorem witness_NearJumpWritesOnlyEip :
    isNear (.jmpRel8 .o32 0xFE) = true ∧
      exec (.jmpRel8 .o32 0xFE) s32 = .next (stateOf (exec (.jmpRel8 .o32 0xFE) s32)) :=
  ⟨rfl, rfl⟩

/-- One operand for each width; its last byte is at offset 10000H. -/
theorem witness_OperandBeyondRealSegmentRaises :
    memOperandOf (.jmpRM16 (.mem ⟨.a16 (.direct 0xFFFF), none⟩)) = some (⟨.a16 (.direct 0xFFFF), none⟩, 2) ∧
      0xFFFF < (effAddr s16 (.a16 (.direct 0xFFFF))).toNat + 2 - 1 ∧
      memOperandOf (.jmpRM32 (.mem ⟨.a16 (.direct 0xFFFD), none⟩)) = some (⟨.a16 (.direct 0xFFFD), none⟩, 4) ∧
      memOperandOf (.jmpM16_16 ⟨.a16 (.direct 0xFFFD), none⟩) = some (⟨.a16 (.direct 0xFFFD), none⟩, 4) ∧
      0xFFFF < (effAddr s16 (.a16 (.direct 0xFFFD))).toNat + 4 - 1 ∧
      memOperandOf (.jmpM16_32 ⟨.a16 (.direct 0xFFFB), none⟩) = some (⟨.a16 (.direct 0xFFFB), none⟩, 6) ∧
      0xFFFF < (effAddr v86 (.a16 (.direct 0xFFFB))).toNat + 6 - 1 ∧ s16.mode ≠ .prot ∧ v86.mode ≠ .prot := by decide

/-- V31 with one byte beyond the limit, V33, V38. -/
theorem witness_IllegalOperandRaises :
    memOperandOf (.jmpRM32 (.mem ⟨.a32 (.direct 0x2000), none⟩)) = some (⟨.a32 (.direct 0x2000), none⟩, 4) ∧
      s32.mode = .prot ∧ segOK (segView (dsLimit s32 0x00002002) .ds) 0x00002000 4 = false ∧
      segOK (segView (ssLimit s32 0x00002002) .ss) 0x00002000 4 = false ∧
      segOK (segView s32 .fs) 0x00002000 4 = false := by decide

theorem witness_OperandPageFaultRaises :
    let m : MemOperand := ⟨.a32 (.direct 0x5000), none⟩
    let s : State := { s32 with paging := true }
    memOperandOf (.jmpM16_32 m) = some (m, 6) ∧ segCheck s (operandSeg m) (effAddr s m.addr) 6 = none := by decide

/-- V48, V74 with the limit at the last byte. -/
theorem witness_FarIndirectIsFarDirectWithThePointer :
    (let m : MemOperand := ⟨.a16 (.direct 0xFFFC), none⟩
     segCheck s16 (operandSeg m) (effAddr s16 m.addr) 4 = none ∧
      ∀ j < 4, translate s16 (operandLinear s16 m j) .read (accessLevel s16) = .ok (operandLinear s16 m j)) ∧
    (let m : MemOperand := ⟨.a32 (.direct 0x5000), none⟩
     let s := dsLimit s32 0x00005005
     segCheck s (operandSeg m) (effAddr s m.addr) 6 = none ∧
      ∀ j < 6, translate s (operandLinear s m j) .read (accessLevel s) = .ok (operandLinear s m j)) := by decide

/-- An offset at the limit, and one beyond it. -/
theorem witness_UnprotectedFarJump :
    farOperand s16 (.jmpPtr16_32 0x0000FFFF 0x1234) = some (.o32, .ok ⟨0x1234, 0x0000FFFF⟩) ∧ s16.mode ≠ .prot ∧
      0x0000FFFF#32 ≤ s16.cs.limit ∧ (0x00012340#32).toNat = (0x1234#16).toNat * 16 ∧
      farOperand v86 (.jmpPtr16_32 0x00010000 0x1234) = some (.o32, .ok ⟨0x1234, 0x00010000⟩) ∧ v86.mode ≠ .prot ∧
      v86.cs.limit < 0x00010000#32 ∧
      farOperand (load s16 0x3000 [0x00, 0x01, 0x00, 0xF0]) (.jmpM16_16 ⟨.a16 (.direct 0x3000), none⟩) =
        some (.o16, .ok ⟨0xF000, 0x00000100⟩) := by decide

theorem witness_UnprotectedModesIgnoreTheTables :
    v86.mode ≠ .prot ∧ exec (.jmpPtr16_16 0x5678 0x1234) v86 = .next (stateOf (exec (.jmpPtr16_16 0x5678 0x1234) v86)) :=
  ⟨by decide, rfl⟩

/-- The last entry within the limit and the first beyond it, in each table; a null selector and the first that is not. -/
theorem witness_WithinTableMeaning :
    (0x0040#16).toNat / 4 % 2 = 0 ∧ withinTable s32 0x0040 = true ∧ withinTable s32 0x0048 = false ∧
      (0x000C#16).toNat / 4 % 2 = 1 ∧ withinTable s32 0x000C = false ∧
      withinTable { s32 with ldtr := ⟨0x0008, 0#32, 0xF⟩ } 0x000C = true ∧ selNull 0x0003 = true ∧
      selNull 0x0004 = false ∧ descAddr s32 0x0043 = 0x00010040#32 ∧
      descAddr { s32 with ldtr := ⟨0x0008, 0xFFFFFFFC#32, 0xF⟩ } 0x000C = 0x00000004#32 := by decide

theorem witness_DescriptorFields :
    ∀ j < 8, translate s32 (descAddr s32 0x0030 + BitVec.ofNat 32 j) .read .supervisor =
      .ok (descAddr s32 0x0030 + BitVec.ofNat 32 j) := by decide

/-- V60, V61, V59, V54. -/
theorem witness_ProtectedPrologueRaises :
    farOperand s32 (.jmpPtr16_32 0x00100000 0x0003) = some (.o32, .ok ⟨0x0003, 0x00100000⟩) ∧ s32.mode = .prot ∧
      (0x0003#16).toNat ≤ 3 ∧
      farOperand s32 (.jmpPtr16_32 0x00100000 0x0048) = some (.o32, .ok ⟨0x0048, 0x00100000⟩) ∧ 3 < (0x0048#16).toNat ∧
      withinTable s32 0x0048 = false ∧
      farOperand s32 (.jmpPtr16_32 0x00100000 0x0010) = some (.o32, .ok ⟨0x0010, 0x00100000⟩) ∧
      withinTable s32 0x0010 = true ∧ readDesc s32 0x0010 = .ok 0x00CF92000000FFFF ∧
      classify (descAr 0x00CF92000000FFFF) = .illegal := by decide

/-- The jump to `sel` with this offset. -/
def far (off : Word) (sel : Selector) : Instr := .jmpPtr16_32 off sel

/-- V62: RPL above CPL; V69: DPL is not CPL; V58: not present. -/
theorem witness_NonconformingSegmentJump_raises :
    (farFinds s32 (far 0x100000 0x0009) .o32 ⟨0x0009, 0x100000⟩ 0x00CF9A000000FFFF ∧
      classify (descAr 0x00CF9A000000FFFF) = .nonconforming ∧ s32.cpl < selRpl 0x0009) ∧
    (farFinds s32u (far 0x100000 0x0008) .o32 ⟨0x0008, 0x100000⟩ 0x00CF9A000000FFFF ∧ selRpl 0x0008 ≤ s32u.cpl ∧
      arDpl (descAr 0x00CF9A000000FFFF) ≠ s32u.cpl) ∧
    (farFinds s32 (far 0x100000 0x0028) .o32 ⟨0x0028, 0x100000⟩ 0x00CF1A000000FFFF ∧
      classify (descAr 0x00CF1A000000FFFF) = .nonconforming ∧ selRpl 0x0028 ≤ s32.cpl ∧
      arDpl (descAr 0x00CF1A000000FFFF) = s32.cpl ∧ arPresent (descAr 0x00CF1A000000FFFF) = false) := by
  unfold farFinds; decide

/-- V65: one beyond the limit; V64 with the offset at the limit. -/
theorem witness_NonconformingSegmentJump_limit :
    farFinds s32 (far 0x1000 0x0030) .o32 ⟨0x0030, 0x1000⟩ 0x00009A0200000FFF ∧
      farFinds s32 (far 0xFFF 0x0030) .o32 ⟨0x0030, 0xFFF⟩ 0x00009A0200000FFF ∧
      classify (descAr 0x00009A0200000FFF) = .nonconforming ∧ selRpl 0x0030 ≤ s32.cpl ∧
      arDpl (descAr 0x00009A0200000FFF) = s32.cpl ∧ arPresent (descAr 0x00009A0200000FFF) = true ∧
      descLimit 0x00009A0200000FFF < 0x1000 ∧ 0xFFF#32 ≤ descLimit 0x00009A0200000FFF ∧
      accessedReady s32 0x0030 0x00009A0200000FFF 0x00010035 := by
  unfold farFinds accessedReady; decide

/-- S32 with another entry 0018. -/
def with18 (s : State) (bs : List Byte) : State := load s 0x00010018 bs

/-- DPL 3 above CPL 0; not present; beyond the limit; V68. -/
theorem witness_ConformingSegmentJump :
    (farFinds (with18 s32 [0xFF, 0xFF, 0x00, 0x00, 0x00, 0xFE, 0xCF, 0x00]) (far 0 0x0018) .o32 ⟨0x0018, 0⟩
        0x00CFFE000000FFFF ∧ classify (descAr 0x00CFFE000000FFFF) = .conforming ∧
      s32.cpl < arDpl (descAr 0x00CFFE000000FFFF)) ∧
    (farFinds (with18 s32 [0xFF, 0xFF, 0x00, 0x00, 0x00, 0x1E, 0xCF, 0x00]) (far 0 0x0018) .o32 ⟨0x0018, 0⟩
        0x00CF1E000000FFFF ∧ classify (descAr 0x00CF1E000000FFFF) = .conforming ∧
      arDpl (descAr 0x00CF1E000000FFFF) ≤ s32.cpl ∧ arPresent (descAr 0x00CF1E000000FFFF) = false) ∧
    (farFinds (with18 s32 [0xFF, 0x0F, 0x00, 0x00, 0x00, 0x9E, 0x00, 0x00]) (far 0x1000 0x0018) .o32 ⟨0x0018, 0x1000⟩
        0x00009E0000000FFF ∧ classify (descAr 0x00009E0000000FFF) = .conforming ∧
      arDpl (descAr 0x00009E0000000FFF) ≤ s32.cpl ∧ arPresent (descAr 0x00009E0000000FFF) = true ∧
      descLimit 0x00009E0000000FFF < 0x1000) ∧
    (farFinds s32u (far 0xFFFFFFFF 0x0018) .o32 ⟨0x0018, 0xFFFFFFFF⟩ 0x00CF9E000000FFFF ∧
      classify (descAr 0x00CF9E000000FFFF) = .conforming ∧ arDpl (descAr 0x00CF9E000000FFFF) ≤ s32u.cpl ∧
      arPresent (descAr 0x00CF9E000000FFFF) = true ∧ 0xFFFFFFFF#32 ≤ descLimit 0x00CF9E000000FFFF ∧
      accessedReady s32u 0x0018 0x00CF9E000000FFFF 0x0001001D) := by
  unfold farFinds accessedReady
  refine ⟨?_, ?_, ?_, ?_⟩ <;> decide

/-- S32 with other bytes of the call gate 0020. -/
def with20 (s : State) (bs : List Byte) : State := load s 0x00010020 bs

/-- V70: DPL below CPL; DPL below RPL; not present; V75: null; outside its table. -/
theorem witness_CallGateChecks :
    (farFinds s32u (far 0 0x0020) .o32 ⟨0x0020, 0⟩ 0x00128C0000083456 ∧ classify (descAr 0x00128C0000083456) = .callGate ∧
      arDpl (descAr 0x00128C0000083456) < s32u.cpl) ∧
    (farFinds s32 (far 0 0x0021) .o32 ⟨0x0021, 0⟩ 0x00128C0000083456 ∧
      arDpl (descAr 0x00128C0000083456) < selRpl 0x0021) ∧
    (farFinds (with20 s32 [0x56, 0x34, 0x08, 0x00, 0x00, 0x0C, 0x12, 0x00]) (far 0 0x0020) .o32 ⟨0x0020, 0⟩
        0x00120C0000083456 ∧ classify (descAr 0x00120C0000083456) = .callGate ∧
      s32.cpl ≤ arDpl (descAr 0x00120C0000083456) ∧ selRpl 0x0020 ≤ arDpl (descAr 0x00120C0000083456) ∧
      arPresent (descAr 0x00120C0000083456) = false) ∧
    (farFinds (with20 s32 [0x56, 0x34, 0x03, 0x00, 0x00, 0x8C, 0x12, 0x00]) (far 0 0x0020) .o32 ⟨0x0020, 0⟩
        0x00128C0000033456 ∧ classify (descAr 0x00128C0000033456) = .callGate ∧
      arPresent (descAr 0x00128C0000033456) = true ∧ selNull (gateSelector 0x00128C0000033456) = true) ∧
    (farFinds (with20 s32 [0x56, 0x34, 0x48, 0x00, 0x00, 0x8C, 0x12, 0x00]) (far 0 0x0020) .o32 ⟨0x0020, 0⟩
        0x00128C0000483456 ∧ classify (descAr 0x00128C0000483456) = .callGate ∧
      selNull (gateSelector 0x00128C0000483456) = false ∧
      withinTable (with20 s32 [0x56, 0x34, 0x48, 0x00, 0x00, 0x8C, 0x12, 0x00]) (gateSelector 0x00128C0000483456) = false) := by
  unfold farFinds
  refine ⟨?_, ?_, ?_, ?_, ?_⟩ <;> decide

/-- The hypotheses of `CallGateJump` before its clauses. -/
def gateReady (s : State) (i : Instr) (os : OpSize) (p : FarPointer) (g c : Descriptor) (t : Word) : Prop :=
  farFinds s i os p g ∧ classify (descAr g) = .callGate ∧ s.cpl ≤ arDpl (descAr g) ∧ selRpl p.sel ≤ arDpl (descAr g) ∧
    arPresent (descAr g) = true ∧ selNull (gateSelector g) = false ∧ withinTable s (gateSelector g) = true ∧
    readDesc s (gateSelector g) = .ok c ∧
    t.toNat = if os = .o32 then (gateOffset g).toNat else (gateOffset g).toNat % 65536

/-- V76: not a code segment; the gate of DPL 3 seen from CPL 3: nonconforming with another DPL; conforming with a greater
DPL; V78: not present; V77: beyond the limit. -/
theorem witness_CallGateJump_raises :
    (gateReady (with20 s32 [0x56, 0x34, 0x10, 0x00, 0x00, 0x8C, 0x12, 0x00]) (far 0 0x0020) .o32 ⟨0x0020, 0⟩
        0x00128C0000103456 0x00CF92000000FFFF 0x00123456 ∧ classify (descAr 0x00CF92000000FFFF) ≠ .conforming ∧
      classify (descAr 0x00CF92000000FFFF) ≠ .nonconforming) ∧
    (gateReady (with20 s32u [0x56, 0x34, 0x08, 0x00, 0x00, 0xEC, 0x12, 0x00]) (far 0 0x0020) .o32 ⟨0x0020, 0⟩
        0x0012EC0000083456 0x00CF9A000000FFFF 0x00123456 ∧ classify (descAr 0x00CF9A000000FFFF) = .nonconforming ∧
      arDpl (descAr 0x00CF9A000000FFFF) ≠ s32u.cpl) ∧
    (gateReady (with18 (with20 s32 [0x56, 0x34, 0x18, 0x00, 0x00, 0x8C, 0x12, 0x00])
        [0xFF, 0xFF, 0x00, 0x00, 0x00, 0xBE, 0xCF, 0x00]) (far 0 0x0020) .o32 ⟨0x0020, 0⟩
        0x00128C0000183456 0x00CFBE000000FFFF 0x00123456 ∧ classify (descAr 0x00CFBE000000FFFF) = .conforming ∧
      s32.cpl < arDpl (descAr 0x00CFBE000000FFFF)) ∧
    (gateReady (with20 s32 [0x56, 0x34, 0x28, 0x00, 0x00, 0x8C, 0x12, 0x00]) (far 0 0x0020) .o32 ⟨0x0020, 0⟩
        0x00128C0000283456 0x00CF1A000000FFFF 0x00123456 ∧ arPresent (descAr 0x00CF1A000000FFFF) = false) ∧
    (gateReady (with20 s32 [0x00, 0x10, 0x30, 0x00, 0x00, 0x8C, 0x00, 0x00]) (far 0 0x0020) .o32 ⟨0x0020, 0⟩
        0x00008C0000301000 0x00009A0200000FFF 0x00001000 ∧ descLimit 0x00009A0200000FFF < 0x00001000) := by
  unfold gateReady farFinds
  refine ⟨?_, ?_, ?_, ?_, ?_⟩ <;> decide

/-- V56, V57: the offset by operand size; and a conforming segment. -/
theorem witness_CallGateJump_completes :
    (gateReady s32 (far 0 0x0020) .o32 ⟨0x0020, 0⟩ 0x00128C0000083456 0x00CF9A000000FFFF 0x00123456 ∧
      gateReady s32 (.jmpPtr16_16 0 0x0020) .o16 ⟨0x0020, 0⟩ 0x00128C0000083456 0x00CF9A000000FFFF 0x00003456 ∧
      classify (descAr 0x00CF9A000000FFFF) = .nonconforming ∧ arDpl (descAr 0x00CF9A000000FFFF) = s32.cpl ∧
      arPresent (descAr 0x00CF9A000000FFFF) = true ∧ 0x00123456#32 ≤ descLimit 0x00CF9A000000FFFF ∧
      accessedReady s32 (gateSelector 0x00128C0000083456) 0x00CF9A000000FFFF 0x0001000D) ∧
    (gateReady (with20 s32u [0x56, 0x34, 0x18, 0x00, 0x00, 0xEC, 0x12, 0x00]) (far 0 0x0020) .o32 ⟨0x0020, 0⟩
        0x0012EC0000183456 0x00CF9E000000FFFF 0x00123456 ∧ classify (descAr 0x00CF9E000000FFFF) = .conforming ∧
      arDpl (descAr 0x00CF9E000000FFFF) ≤ s32u.cpl) := by
  unfold gateReady farFinds accessedReady
  refine ⟨?_, ?_⟩ <;> decide

theorem witness_GateIgnoresThePointerOffset :
    farFinds s32 (far 0 0x0020) .o32 ⟨0x0020, 0⟩ 0x00128C0000083456 ∧
      farOperand s32 (far 0xFFFFFFFF 0x0020) = some (.o32, .ok ⟨0x0020, 0xFFFFFFFF⟩) ∧
      classify (descAr 0x00128C0000083456) ∈ [DescClass.callGate, .taskGate, .taskState] := by
  unfold farFinds; decide

/-- S32 with other bytes of the task gate 0040. -/
def with40 (s : State) (bs : List Byte) : State := load s 0x00010040 bs

/-- S32 with other bytes of the TSS 0038. -/
def with38 (s : State) (bs : List Byte) : State := load s 0x00010038 bs

/-- V72: DPL below CPL; DPL below RPL; V80: not present; V79: local; index one entry beyond the limit. -/
theorem witness_TaskGateJump_gate :
    (farFinds s32u (far 0 0x0040) .o32 ⟨0x0040, 0⟩ 0x0000850000380000 ∧ classify (descAr 0x0000850000380000) = .taskGate ∧
      arDpl (descAr 0x0000850000380000) < s32u.cpl) ∧
    (farFinds s32 (far 0 0x0041) .o32 ⟨0x0041, 0⟩ 0x0000850000380000 ∧
      arDpl (descAr 0x0000850000380000) < selRpl 0x0041) ∧
    (farFinds (with40 s32 [0x00, 0x00, 0x38, 0x00, 0x00, 0x05]) (far 0 0x0040) .o32 ⟨0x0040, 0⟩ 0x0000050000380000 ∧
      classify (descAr 0x0000050000380000) = .taskGate ∧ arPresent (descAr 0x0000050000380000) = false ∧
      s32.cpl ≤ arDpl (descAr 0x0000050000380000) ∧ selRpl 0x0040 ≤ arDpl (descAr 0x0000050000380000)) ∧
    (farFinds (with40 s32 [0x00, 0x00, 0x3C, 0x00, 0x00, 0x85]) (far 0 0x0040) .o32 ⟨0x0040, 0⟩ 0x00008500003C0000 ∧
      arPresent (descAr 0x00008500003C0000) = true ∧ selLocal (gateSelector 0x00008500003C0000) = true) ∧
    (farFinds (with40 s32 [0x00, 0x00, 0x48, 0x00, 0x00, 0x85]) (far 0 0x0040) .o32 ⟨0x0040, 0⟩ 0x0000850000480000 ∧
      selLocal (gateSelector 0x0000850000480000) = false ∧
      s32.gdtr.limit.toNat < (selIndex (gateSelector 0x0000850000480000)).toNat * 8 + 7) := by
  unfold farFinds
  refine ⟨?_, ?_, ?_, ?_, ?_⟩ <;> decide

/-- A busy TSS; one that is not present; V67. -/
theorem witness_TaskGateJump_tss :
    (farFinds (with38 s32 [0x67, 0x00, 0x00, 0x00, 0x03, 0x8B]) (far 0 0x0040) .o32 ⟨0x0040, 0⟩ 0x0000850000380000 ∧
      readDesc (with38 s32 [0x67, 0x00, 0x00, 0x00, 0x03, 0x8B]) 0x0038 = .ok 0x00008B0300000067 ∧
      arAvailableTss (descAr 0x00008B0300000067) = false) ∧
    (farFinds (with38 s32 [0x67, 0x00, 0x00, 0x00, 0x03, 0x09]) (far 0 0x0040) .o32 ⟨0x0040, 0⟩ 0x0000850000380000 ∧
      readDesc (with38 s32 [0x67, 0x00, 0x00, 0x00, 0x03, 0x09]) 0x0038 = .ok 0x0000090300000067 ∧
      arAvailableTss (descAr 0x0000090300000067) = true ∧ arPresent (descAr 0x0000090300000067) = false) ∧
    (farFinds s32 (far 0 0x0040) .o32 ⟨0x0040, 0⟩ 0x0000850000380000 ∧ gateSelector 0x0000850000380000 = 0x0038#16 ∧
      readDesc s32 0x0038 = .ok 0x0000890300000067 ∧ (selIndex 0x0038).toNat * 8 + 7 ≤ s32.gdtr.limit.toNat ∧
      arAvailableTss (descAr 0x0000890300000067) = true ∧ arPresent (descAr 0x0000890300000067) = true) := by
  unfold farFinds; decide

/-- V71: DPL below CPL; DPL below RPL; a busy TSS; one that is not present; V66. -/
theorem witness_TaskStateSegmentJump :
    (farFinds s32u (far 0 0x0038) .o32 ⟨0x0038, 0⟩ 0x0000890300000067 ∧ classify (descAr 0x0000890300000067) = .taskState ∧
      arDpl (descAr 0x0000890300000067) < s32u.cpl) ∧
    (farFinds s32 (far 0 0x0039) .o32 ⟨0x0039, 0⟩ 0x0000890300000067 ∧
      arDpl (descAr 0x0000890300000067) < selRpl 0x0039) ∧
    (farFinds (with38 s32 [0x67, 0x00, 0x00, 0x00, 0x03, 0x8B]) (far 0 0x0038) .o32 ⟨0x0038, 0⟩ 0x00008B0300000067 ∧
      classify (descAr 0x00008B0300000067) = .taskState ∧ s32.cpl ≤ arDpl (descAr 0x00008B0300000067) ∧
      selRpl 0x0038 ≤ arDpl (descAr 0x00008B0300000067) ∧ arAvailableTss (descAr 0x00008B0300000067) = false) ∧
    (farFinds (with38 s32 [0x67, 0x00, 0x00, 0x00, 0x03, 0x09]) (far 0 0x0038) .o32 ⟨0x0038, 0⟩ 0x0000090300000067 ∧
      classify (descAr 0x0000090300000067) = .taskState ∧ arAvailableTss (descAr 0x0000090300000067) = true ∧
      arPresent (descAr 0x0000090300000067) = false) ∧
    (farFinds s32 (far 0 0x0038) .o32 ⟨0x0038, 0⟩ 0x0000890300000067 ∧ s32.cpl ≤ arDpl (descAr 0x0000890300000067) ∧
      selRpl 0x0038 ≤ arDpl (descAr 0x0000890300000067) ∧ arAvailableTss (descAr 0x0000890300000067) = true ∧
      arPresent (descAr 0x0000890300000067) = true) := by
  unfold farFinds
  refine ⟨?_, ?_, ?_, ?_, ?_⟩ <;> decide

/-- The destination descriptor with paging on; the segment of a call gate (V56); the TSS of a task gate (V67). -/
theorem witness_DescriptorPageFaultRaises :
    (let s : State := { s32 with paging := true }
     farOperand s (far 0 0x0008) = some (.o32, .ok ⟨0x0008, 0⟩) ∧ s.mode = .prot ∧ selNull 0x0008 = false ∧
      withinTable s 0x0008 = true) ∧
    gateReady s32 (far 0 0x0020) .o32 ⟨0x0020, 0⟩ 0x00128C0000083456 0x00CF9A000000FFFF 0x00123456 ∧
    (farFinds s32 (far 0 0x0040) .o32 ⟨0x0040, 0⟩ 0x0000850000380000 ∧ classify (descAr 0x0000850000380000) = .taskGate ∧
      s32.cpl ≤ arDpl (descAr 0x0000850000380000) ∧ selRpl 0x0040 ≤ arDpl (descAr 0x0000850000380000) ∧
      arPresent (descAr 0x0000850000380000) = true ∧ selLocal (gateSelector 0x0000850000380000) = false ∧
      (selIndex (gateSelector 0x0000850000380000)).toNat * 8 + 7 ≤ s32.gdtr.limit.toNat) := by
  unfold gateReady farFinds; refine ⟨?_, ?_, ?_⟩ <;> decide

/-- V53, V68 and V56: the accessed bit is clear; the offset is the limit. -/
theorem witness_AccessedBitPageFaultRaises :
    (farFinds s32 (far 0xFFFFFFFF 0x0008) .o32 ⟨0x0008, 0xFFFFFFFF⟩ 0x00CF9A000000FFFF ∧
      classify (descAr 0x00CF9A000000FFFF) = .nonconforming ∧ selRpl 0x0008 ≤ s32.cpl ∧
      arDpl (descAr 0x00CF9A000000FFFF) = s32.cpl ∧ arPresent (descAr 0x00CF9A000000FFFF) = true ∧
      0xFFFFFFFF#32 ≤ descLimit 0x00CF9A000000FFFF ∧ arAccessed (descAr 0x00CF9A000000FFFF) = false) ∧
    (farFinds s32u (far 0 0x0018) .o32 ⟨0x0018, 0⟩ 0x00CF9E000000FFFF ∧
      classify (descAr 0x00CF9E000000FFFF) = .conforming ∧ arDpl (descAr 0x00CF9E000000FFFF) ≤ s32u.cpl ∧
      arPresent (descAr 0x00CF9E000000FFFF) = true ∧ arAccessed (descAr 0x00CF9E000000FFFF) = false) ∧
    (gateReady s32 (far 0 0x0020) .o32 ⟨0x0020, 0⟩ 0x00128C0000083456 0x00CF9A000000FFFF 0x00123456 ∧
      0x00123456#32 ≤ descLimit 0x00CF9A000000FFFF) := by
  unfold gateReady farFinds; refine ⟨?_, ?_, ?_⟩ <;> decide

/-- The state after V53, which meets the hypotheses of the statements about a far jump without a task switch. -/
def v53 : State := stateOf (exec (far 0x00100000 0x0008) s32)

theorem witness_LoadedCodeSegmentWasChecked :
    exec (far 0x00100000 0x0008) s32 = .next v53 ∧ isNear (far 0x00100000 0x0008) = false ∧ s32.mode = .prot ∧
      s32.faultRecord = none ∧ v53.faultRecord = none ∧ v53.taskSwitches = s32.taskSwitches :=
  ⟨rfl, by decide⟩

theorem witness_AccessedBitIsSetInMemory :
    exec (far 0x00100000 0x0008) s32 = .next v53 ∧ isNear (far 0x00100000 0x0008) = false ∧ s32.mode = .prot ∧
      s32.paging = false ∧ Memory.wf s32.mem = true ∧ s32.faultRecord = none ∧ v53.faultRecord = none ∧
      v53.taskSwitches = s32.taskSwitches :=
  ⟨rfl, by decide⟩

/-- The byte 0001000D is the one stored to; 0001000C is outside. -/
theorem witness_FarJumpFrame :
    exec (far 0x00100000 0x0008) s32 = .next v53 ∧ isNear (far 0x00100000 0x0008) = false ∧
      v53.taskSwitches = s32.taskSwitches ∧
      ∀ phys, translate s32 (descAddr s32 v53.cs.sel + 5#32) .write .supervisor = .ok phys → 0x0001000C ≠ phys.toNat :=
  ⟨rfl, rfl, by decide, fun phys h => by
    have h' : translate s32 (descAddr s32 v53.cs.sel + 5#32) .write .supervisor = .ok 0x0001000D#32 := by decide
    rw [h'] at h
    injection h with h
    subst h
    decide⟩

theorem witness_FarJumpFrame_real :
    exec (.jmpPtr16_16 0x5678 0x1234) s16 = .next (stateOf (exec (.jmpPtr16_16 0x5678 0x1234) s16)) ∧
      isNear (.jmpPtr16_16 0x5678 0x1234) = false ∧ s16.mode ≠ .prot ∧
      (stateOf (exec (.jmpPtr16_16 0x5678 0x1234) s16)).taskSwitches = s16.taskSwitches :=
  ⟨rfl, rfl, by decide⟩

/-- V59. -/
theorem witness_RaisingChangesNothingElse :
    exec (far 0 0x0048) s32 = .next (stateOf (exec (far 0 0x0048) s32)) ∧ s32.faultRecord = none ∧
      (stateOf (exec (far 0 0x0048) s32)).taskSwitches = s32.taskSwitches ∧
      (stateOf (exec (far 0 0x0048) s32)).faultRecord ≠ none :=
  ⟨rfl, by decide⟩

/-- A fetch beyond the limit, in each mode. -/
theorem witness_ExceptionsOfEachMode :
    (let s := setEip s16 0x00010000
     step s = .next (s.recorded 13 none) ∧ s.mode = .real) ∧
    (let s := setEip v86 0x00010000
     step s = .next (s.recorded 13 (some 0)) ∧ s.mode = .v86) ∧
    (let s := csLimit s32 0x00000FFF
     step s = .next (s.recorded 13 (some 0)) ∧ s.mode = .prot) :=
  ⟨⟨rfl, rfl⟩, ⟨rfl, rfl⟩, ⟨rfl, rfl⟩⟩

/-- V66: a step that switches tasks, whatever `SwitchTasks` is. -/
theorem witness_task_switch :
    ∃ t, exec (far 0 0x0038) s32 = .next t ∧ t.taskSwitches ≠ s32.taskSwitches :=
  ⟨enterTask s32 0x0038 0x0000890300000067, rfl, by rw [enterTask_taskSwitches]; decide⟩

theorem witness_task_switch_step :
    ∃ t, step (at_ s32 [0xEA, 0, 0, 0, 0, 0x38, 0]) = .next t ∧
      t.taskSwitches ≠ (at_ s32 [0xEA, 0, 0, 0, 0, 0x38, 0]).taskSwitches :=
  ⟨enterTask (at_ s32 [0xEA, 0, 0, 0, 0, 0x38, 0]) 0x0038 0x0000890300000067, rfl, by
    rw [enterTask_taskSwitches]; decide⟩

theorem witness_FlagsChangeOnlyByTaskSwitch :
    exec (far 0x00100000 0x0008) s32 = .next v53 ∧ v53.taskSwitches = s32.taskSwitches :=
  ⟨rfl, by decide⟩

theorem witness_RealModeIgnoresVm :
    s16.pe = false ∧ step (at_ s16 [0xEB, 0xFE]) = .next (at_ s16 [0xEB, 0xFE]) ∧ (at_ s16 [0xEB, 0xFE]).pe = false :=
  ⟨rfl, rfl, rfl⟩

theorem witness_SixteenBitFormsClearTheUpperHalf :
    opSizeOf (.jmpRel16 0xFFFF) = .o16 ∧ exec (.jmpRel16 0xFFFF) s32 = .next (stateOf (exec (.jmpRel16 0xFFFF) s32)) ∧
      (stateOf (exec (.jmpRel16 0xFFFF) s32)).taskSwitches = s32.taskSwitches ∧ s32.faultRecord = none ∧
      (stateOf (exec (.jmpRel16 0xFFFF) s32)).faultRecord = none :=
  ⟨rfl, rfl, by decide⟩

theorem witness_OnlyTaskSwitchesChangeTheContext :
    step (at_ s32 [0xEB, 0xFE]) = .next (at_ s32 [0xEB, 0xFE]) ∧ (at_ s32 [0xEB, 0xFE]).mode = .prot :=
  ⟨rfl, rfl⟩

theorem witness_StepKeepsPrivilege :
    step (at_ s32u [0xEA, 0x00, 0x00, 0x10, 0x00, 0x18, 0x00]) =
        .next (run s32u [0xEA, 0x00, 0x00, 0x10, 0x00, 0x18, 0x00]) ∧
      (at_ s32u [0xEA, 0x00, 0x00, 0x10, 0x00, 0x18, 0x00]).mode = .prot ∧
      (run s32u [0xEA, 0x00, 0x00, 0x10, 0x00, 0x18, 0x00]).taskSwitches = s32u.taskSwitches :=
  ⟨rfl, by decide⟩

theorem witness_CanonicalMemoryIsUnique :
    Memory.wf [(0, 1), (0xFFFFFFFF, 2)] = true ∧
      ∀ a, memRead [(0, 1), (0xFFFFFFFF, 2)] a = memRead (memWrite [(0xFFFFFFFF, 2)] 0 1) a :=
  ⟨by decide, fun _ => rfl⟩

theorem witness_StepKeepsMemoryCanonical :
    Memory.wf (at_ s32 [0xEB, 0xFE]).mem = true ∧ step (at_ s32 [0xEB, 0xFE]) = .next (at_ s32 [0xEB, 0xFE]) :=
  ⟨by decide, rfl⟩

/-- EIP at the limit. -/
theorem witness_StepKeepsEipWithinLimit :
    (lastByte s32).eipWithinLimit ∧ step (lastByte s32) = .next ((lastByte s32).recorded 13 (some 0)) :=
  ⟨fun _ => by decide, rfl⟩

end Sys2Proof.Tests
end

/-! ## One step and what the machine keeps outside a task switch (00_scope.md) -/

namespace Sys2Proof.Machine

/-! ### The cases of a step -/

theorem step_of_faultRecord (s : State) (r : FaultRecord) (h : s.faultRecord = some r) : step s = .fault (.raised r) := by
  simp [step, h]

theorem step_of_refusalMark (s : State) (r : RejectReason) (hf : s.faultRecord = none) (hm : s.refusalMark = some r) :
    step s = .refused (.marked r) := by
  simp [step, hf, hm]

theorem step_of_instr (s : State) (hr : s.running) (i : Instr) (h : fetchInstr s = .instr i) : step s = exec i s := by
  obtain ⟨hf, hm⟩ := hr
  simp [step, hf, hm, h]

theorem step_of_raised (s : State) (hr : s.running) (e : Exception) (h : fetchInstr s = .raised e) :
    step s = .next (takeException s s.eip e) := by
  obtain ⟨hf, hm⟩ := hr
  simp [step, hf, hm, h]

theorem step_of_refused (s : State) (hr : s.running) (r : RejectReason) (h : fetchInstr s = .refused r) :
    step s = .next (markRefused s r) := by
  obtain ⟨hf, hm⟩ := hr
  simp [step, hf, hm, h]

/-- A machine that answers a next state was running. -/
theorem running_of_step (s t : State) (h : step s = .next t) : s.running := by
  obtain ⟨hf, hm, _⟩ := effect_of_step s t h
  exact ⟨hf, hm⟩

/-- Settles O7: the five cases of a step, one lemma each. -/
theorem stepRunsTheFetchedInstruction : Obligations.StepRunsTheFetchedInstruction := fun s =>
  ⟨step_of_faultRecord s, step_of_refusalMark s, step_of_instr s, step_of_raised s, step_of_refused s⟩

/-! ### What every effect of a JMP keeps (R16, R18) -/

/-- The part of the task context that only a task switch writes, and the count of task switches, are the same in `t` as in
`s` (R15, R16, R18 to R20). -/
structure KeepsContext (s t : State) : Prop where
  taskSwitches : t.taskSwitches = s.taskSwitches
  vm : t.vm = s.vm
  flags : t.flags = s.flags
  regs : t.regs = s.regs
  ldtr : t.ldtr = s.ldtr
  tr : t.tr = s.tr

/-- A far jump to a code segment writes CS, EIP and memory only (R89, R94). -/
theorem loadCs_keeps (s t : State) (sel : Selector) (d : Descriptor) (off : Word) (h : loadCs s sel d off = .ok t) :
    t.pe = s.pe ∧ t.gdtr = s.gdtr ∧ KeepsContext s t := by
  rcases loadCs_ok s t sel d off h with ⟨_, phys, _, rfl⟩ | ⟨_, rfl⟩ <;> exact ⟨rfl, rfl, by constructor <;> rfl⟩

/-- A task switch keeps PE and GDTR (R16, R18; log entry 6). -/
theorem enterTask_keeps (s : State) (tsel : Selector) (td : Descriptor) :
    (enterTask s tsel td).pe = s.pe ∧ (enterTask s tsel td).gdtr = s.gdtr := by
  rcases enterTask_cases s tsel td with ⟨e, h⟩ | ⟨h, _⟩ <;> rw [h] <;> exact ⟨rfl, rfl⟩

/-- Every effect of a JMP keeps PE and GDTR, and is a task switch of protected mode or keeps the context. -/
theorem Effect.keeps {s t : State} (h : Effect s t) :
    t.pe = s.pe ∧ t.gdtr = s.gdtr ∧
      ((s.mode = .prot ∧ t.taskSwitches = s.taskSwitches + 1) ∨ KeepsContext s t) := by
  cases h with
  | raised e _ h => subst h; exact ⟨rfl, rfl, .inr (by constructor <;> rfl)⟩
  | near tgt _ h => subst h; exact ⟨rfl, rfl, .inr (by constructor <;> rfl)⟩
  | unprotected sel off _ _ h => subst h; exact ⟨rfl, rfl, .inr (by constructor <;> rfl)⟩
  | loaded sel d off _ _ h =>
    obtain ⟨hpe, hgdtr, hk⟩ := loadCs_keeps s t sel d off h
    exact ⟨hpe, hgdtr, .inr hk⟩
  | task tsel td hm h =>
    subst h
    obtain ⟨hpe, hgdtr⟩ := enterTask_keeps s tsel td
    exact ⟨hpe, hgdtr, .inl ⟨hm, enterTask_taskSwitches s tsel td⟩⟩

/-- The same of a step: setting the refusal mark writes none of it either. -/
theorem step_keeps (s t : State) (h : step s = .next t) :
    t.pe = s.pe ∧ t.gdtr = s.gdtr ∧
      ((s.mode = .prot ∧ t.taskSwitches = s.taskSwitches + 1) ∨ KeepsContext s t) := by
  obtain ⟨_, _, he | ⟨r, rfl⟩⟩ := effect_of_step s t h
  · exact he.keeps
  · exact ⟨rfl, rfl, .inr (by constructor <;> rfl)⟩

/-- The mode is a function of PE and VM (R2). -/
theorem mode_congr {s t : State} (hpe : t.pe = s.pe) (hvm : t.vm = s.vm) : t.mode = s.mode := by
  simp [State.mode, hpe, hvm]

/-- Settles O54: each effect of a step is a task switch of protected mode or keeps the context. -/
theorem onlyTaskSwitchesChangeTheContext : Obligations.OnlyTaskSwitchesChangeTheContext := by
  intro s t h
  obtain ⟨hpe, hgdtr, ⟨hm, hn⟩ | hk⟩ := step_keeps s t h
  · exact ⟨hpe, hgdtr, fun _ => ⟨hm, hn⟩, fun hsame => by omega⟩
  · exact ⟨hpe, hgdtr, fun hne => absurd hk.taskSwitches hne,
      fun _ => ⟨hk.vm, hk.flags, hk.regs, hk.ldtr, hk.tr, mode_congr hpe hk.vm⟩⟩

end Sys2Proof.Machine

/-! ## Bytes the decoder refuses (00_scope.md, R8, R62, R65) -/

namespace Sys2Proof

open Machine

/-- A byte that names no override (R60). -/
theorem overrideOf_eq_none {b : Byte} (h : b ∉ overrideBytes) : overrideOf b = none := by
  rw [← Option.not_isSome_iff_eq_none, overrideOf_isSome]
  simpa using h

/-- The byte where the opcode stands, after any bytes before it (R51, R62). -/
theorem decodeFrom_opcode (d : Bool) (p : Prefixes) (op : Byte) (rest : List Byte)
    (hp : op ∉ [0x66#8, 0x67#8, 0xF0#8, 0xF2#8, 0xF3#8]) (hg : op ∉ overrideBytes) :
    decodeFrom d p (op :: rest) = decodeOpcode d p op rest := by
  simp only [List.mem_cons, List.not_mem_nil, or_false, not_or] at hp
  simp [decodeFrom, hp, overrideOf_eq_none hg]

/-- Leading bytes with 67H or an override among them are admitted only before a form with a memory operand (R62). -/
theorem needsMemory_of_mem {lead : List Byte} (h : ∃ g ∈ lead, g = 0x67#8 ∨ g ∈ overrideBytes) (op lock : Bool) :
    needsMemory ⟨op, lead.contains 0x67#8, overrideIn lead, lock⟩ = true := by
  obtain ⟨g, hg, rfl | ho⟩ := h
  · simp [needsMemory, hg]
  · simp [needsMemory, (overrideIn_isSome lead).mpr ⟨g, hg, ho⟩]

theorem decodeImmediate_prefixWithoutMemory {α : Type} (p : Prefixes) (hn : needsMemory p = true)
    (field : Option (α × List Byte)) (form : α → Instr) :
    decodeImmediate p field form = .refused .prefixWithoutMemory := if_pos hn

/-- The opcodes with an immediate operand, of either operand size, admit neither 67H nor an override (R62). -/
theorem decodeOpcode_prefixWithoutMemory (d : Bool) (p : Prefixes) (rest : List Byte) (hn : needsMemory p = true)
    (op : Byte) (hop : op ∈ [0xEB#8, 0xE9#8, 0xEA#8]) : decodeOpcode d p op rest = .refused .prefixWithoutMemory := by
  simp only [List.mem_cons, List.not_mem_nil, or_false] at hop
  rcases hop with rfl | rfl | rfl
  · exact decodeImmediate_prefixWithoutMemory p hn _ _
  all_goals cases hs : operandSize d p <;> simp [decodeOpcode, hs, decodeImmediate_prefixWithoutMemory p hn]

section
variable (d : Bool) (lead rest : List Byte) (hl : leading lead)
include hl

theorem decode_notJmpOpcode (op : Byte)
    (hop : op ∉ [0xEB#8, 0xE9#8, 0xEA#8, 0xFF#8, 0x66#8, 0x67#8, 0xF0#8, 0xF2#8, 0xF3#8]) (hg : op ∉ overrideBytes) :
    decode d (lead ++ op :: rest) = .refused (.notJmpOpcode op) := by
  simp only [List.mem_cons, List.not_mem_nil, or_false, not_or] at hop
  rw [decode_leading d lead _ hl, decodeFrom_opcode _ _ _ _ (by simp [hop]) hg]
  simp [decodeOpcode, hop]

/-- Opcode FF after leading bytes: the group of its ModR/M byte (R56). -/
theorem decode_group (m : Byte) : decode d (lead ++ 0xFF#8 :: m :: rest) =
    decodeGroup d ⟨lead.contains 0x66#8, lead.contains 0x67#8, overrideIn lead, lead.contains 0xF0#8⟩ m rest := by
  rw [decode_leading d lead _ hl, decodeFrom_opcode _ _ _ _ (by decide) (by decide)]
  rfl

theorem decode_notJmpGroup (m : Byte) (h4 : field53 m ≠ 4#3) (h5 : field53 m ≠ 5#3) :
    decode d (lead ++ 0xFF#8 :: m :: rest) = .refused (.notJmpGroup (field53 m)) := by
  rw [decode_group d lead rest hl, decodeGroup, if_neg h4, if_neg h5]

theorem decode_repPrefix (b : Byte) (hb : b ∈ [0xF2#8, 0xF3#8]) :
    decode d (lead ++ b :: rest) = .refused (.repPrefix b) := by
  rw [decode_leading d lead _ hl]
  simp only [List.mem_cons, List.not_mem_nil, or_false] at hb
  rcases hb with rfl | rfl <;> simp [decodeFrom]

theorem decode_repeatedPrefix (b : Byte) (hb : b ∈ [0x66#8, 0x67#8, 0xF0#8]) (hm : b ∈ lead) :
    decode d (lead ++ b :: rest) = .refused (.repeatedPrefix b) := by
  rw [decode_leading d lead _ hl]
  simp only [List.mem_cons, List.not_mem_nil, or_false] at hb
  rcases hb with rfl | rfl | rfl <;> simp [decodeFrom, hm]

theorem decode_twoOverrides (hg : ∃ g ∈ lead, g ∈ overrideBytes) (b : Byte) (hb : b ∈ overrideBytes) :
    decode d (lead ++ b :: rest) = .refused .twoOverrides := by
  have hs := (overrideIn_isSome lead).mpr hg
  rw [decode_leading d lead _ hl]
  simp only [overrideBytes, List.mem_cons, List.not_mem_nil, or_false] at hb
  rcases hb with rfl | rfl | rfl | rfl | rfl | rfl <;> simp [decodeFrom, overrideOf, hs]

/-- 67H or an override before an opcode with an immediate operand (R62). -/
theorem decode_prefixWithoutMemory (hg : ∃ g ∈ lead, g = 0x67#8 ∨ g ∈ overrideBytes) (op : Byte)
    (hop : op ∈ [0xEB#8, 0xE9#8, 0xEA#8]) : decode d (lead ++ op :: rest) = .refused .prefixWithoutMemory := by
  rw [decode_leading d lead _ hl, decodeFrom_opcode]
  · exact decodeOpcode_prefixWithoutMemory d _ rest (needsMemory_of_mem hg _ _) op hop
  · revert op; decide
  · revert op; decide

/-- 67H or an override before `FF /4` with a register operand (R62). -/
theorem decode_prefixWithoutMemory_register (hg : ∃ g ∈ lead, g = 0x67#8 ∨ g ∈ overrideBytes) (m : Byte)
    (h4 : field53 m = 4#3) (h3 : field76 m = 3#2) :
    decode d (lead ++ 0xFF#8 :: m :: rest) = .refused .prefixWithoutMemory := by
  rw [decode_group d lead rest hl, decodeGroup, if_pos h4, if_pos h3]
  exact decodeImmediate_prefixWithoutMemory _ (needsMemory_of_mem hg _ _) _ _

end

end Sys2Proof

namespace Sys2Proof.Machine

/-- Fetched bytes that the decoder refuses set the refusal mark, and the step changes nothing else (R8). -/
theorem step_of_refused_bytes (s : State) (hr : s.running) (bs : List Byte) (r : RejectReason) (hf : fetches s bs)
    (h : decode s.cs.d bs = .refused r) : step s = .next { s with refusalMark := some r } :=
  step_of_refused s hr r ((fetchInstr_of_decode s bs hf).2.2 r h)

/-- Settles O13: `step_of_refused_bytes`, and the bytes of each kind are refused by the decoder. -/
theorem outOfScopeBytesSetTheMark : Obligations.OutOfScopeBytesSetTheMark := by
  intro s hr
  have mark := step_of_refused_bytes s hr
  refine ⟨mark, fun lead hl => ⟨?opcode, ?group, ?rep, ?repeated, ?overrides, fun hg => ⟨?immediate, ?register⟩⟩⟩
  case opcode => exact fun op hf hop hg => mark _ _ hf (decode_notJmpOpcode _ _ _ hl op hop hg)
  case group => exact fun m hf h4 h5 => mark _ _ hf (decode_notJmpGroup _ _ _ hl m h4 h5)
  case rep => exact fun b hb hf => mark _ _ hf (decode_repPrefix _ _ _ hl b hb)
  case repeated => exact fun b hb hm hf => mark _ _ hf (decode_repeatedPrefix _ _ _ hl b hb hm)
  case overrides => exact fun hg b hb hf => mark _ _ hf (decode_twoOverrides _ _ _ hl hg b hb)
  case immediate => exact fun op hop hf => mark _ _ hf (decode_prefixWithoutMemory _ _ _ hl hg op hop)
  case register => exact fun m hf h4 h3 => mark _ _ hf (decode_prefixWithoutMemory_register _ _ _ hl hg m h4 h3)

end Sys2Proof.Machine

/-! ## Real-address mode does not consult VM (R2) -/

namespace Sys2Proof.Machine

/-- `s` with another VM. -/
def setVm (s : State) (v : Bool) : State := { s with vm := v }

/-! ### What a JMP reads in real-address mode is the same under another VM -/

section
variable (s : State) (v : Bool)

theorem readReg_setVm (r : Reg) : readReg (setVm s v) r = readReg s r := by cases r <;> rfl

theorem readReg16_setVm (r : Reg) : readReg16 (setVm s v) r = readReg16 s r := by
  rw [readReg16, readReg_setVm, readReg16]

theorem effAddr16_setVm (a : Addr16) : effAddr16 (setVm s v) a = effAddr16 s a := by
  cases a with
  | direct disp => rfl
  | based b disp => cases b <;> rfl

theorem effAddr32_setVm (a : Addr32) : effAddr32 (setVm s v) a = effAddr32 s a := by
  have hi : ∀ scale index, indexValue (setVm s v) scale index = indexValue s scale index := fun _ index => by
    cases index <;> simp only [indexValue, readReg_setVm]
  cases a <;> simp only [effAddr32, readReg_setVm, hi]

theorem effAddr_setVm (a : Addr) : effAddr (setVm s v) a = effAddr s a := by
  cases a <;> simp only [effAddr, effAddr16_setVm, effAddr32_setVm]

theorem segView_setVm (g : SegReg) : segView (setVm s v) g = segView s g := by cases g <;> rfl

theorem readLinear_setVm (k : Config.Access) (l : Config.Level) (lin : Word) (n : Nat) :
    readLinear (setVm s v) k l lin n = readLinear s k l lin n :=
  readLinear_congr s (setVm s v) rfl rfl rfl rfl k l lin n

/-- `finish` of a result with another VM: the exception is taken with that VM too. -/
theorem finish_setVm (r : Except Exception State) (t : State) (hr : finish s r = .next t) :
    finish (setVm s v) (r.map (setVm · v)) = .next (setVm t v) := by
  cases r <;> cases hr <;> rfl

variable (h : s.pe = false)
include h

theorem mode_setVm : (setVm s v).mode = s.mode := by
  rw [(mode_real_iff s).mpr h, (mode_real_iff (setVm s v)).mpr h]

theorem accessLevel_setVm : accessLevel (setVm s v) = accessLevel s := by
  rw [accessLevel, mode_setVm s v h, accessLevel]; rfl

theorem limitException_setVm : limitException (setVm s v) = limitException s := by
  rw [limitException, mode_setVm s v h, limitException]

theorem segCheck_setVm (g : SegReg) (off : Word) (n : Nat) : segCheck (setVm s v) g off n = segCheck s g off n := by
  rw [segCheck, mode_setVm s v h, segView_setVm, segCheck]

theorem readOperand_setVm (m : MemOperand) (n : Nat) : readOperand (setVm s v) m n = readOperand s m n := by
  simp only [readOperand, segRead, segCheck_setVm s v h, effAddr_setVm, accessLevel_setVm s v h, segView_setVm,
    readLinear_setVm]

theorem readRM16_setVm (rm : RegMem) : readRM16 (setVm s v) rm = readRM16 s rm := by
  cases rm <;> simp only [readRM16, readReg16_setVm, readOperand_setVm s v h]

theorem readRM32_setVm (rm : RegMem) : readRM32 (setVm s v) rm = readRM32 s rm := by
  cases rm <;> simp only [readRM32, readReg_setVm, readOperand_setVm s v h]

theorem readFar16_setVm (m : MemOperand) : readFar16 (setVm s v) m = readFar16 s m := by
  simp only [readFar16, readOperand_setVm s v h]

theorem readFar32_setVm (m : MemOperand) : readFar32 (setVm s v) m = readFar32 s m := by
  simp only [readFar32, readOperand_setVm s v h]

/-! ### The procedures leave the same state, with that VM -/

theorem nearTarget_setVm (t : Word) : nearTarget (setVm s v) t = (nearTarget s t).map (setVm · v) := by
  rw [nearTarget, nearTarget, limitException_setVm s v h, apply_ite (Except.map _)]
  rfl

theorem nearIndirect_setVm (r : Except Exception Word) :
    nearIndirect (setVm s v) r = (nearIndirect s r).map (setVm · v) := by
  cases r with
  | error e => rfl
  | ok t => exact nearTarget_setVm s v h t

theorem farJump_setVm (os : OpSize) (sel : Selector) (off : Word) :
    farJump (setVm s v) os sel off = (farJump s os sel off).map (setVm · v) := by
  have hm := (mode_real_iff s).mpr h
  simp only [farJump, mode_setVm s v h, hm, realOrV86]
  rw [apply_ite (Except.map _)]
  rfl

theorem farIndirect_setVm (os : OpSize) (p : Except Exception FarPointer) :
    farIndirect (setVm s v) os p = (farIndirect s os p).map (setVm · v) := by
  cases p with
  | error e => rfl
  | ok p => exact farJump_setVm s v h os p.sel p.off

/-! ### Fetch, execution and step -/

theorem fetchByte_setVm (k : Nat) : fetchByte (setVm s v) k = fetchByte s k := by
  rw [fetchByte, limitException_setVm s v h, accessLevel_setVm s v h, fetchByte]
  rfl

theorem fetchFrom_setVm (n : Nat) (acc : List Byte) : fetchFrom (setVm s v) n acc = fetchFrom s n acc := by
  induction n generalizing acc with
  | zero => rw [fetchFrom, fetchFrom]; rfl
  | succ n ih =>
    rw [fetchFrom, fetchFrom]
    simp only [fetchByte_setVm s v h, ih]
    rfl

theorem fetchInstr_setVm : fetchInstr (setVm s v) = fetchInstr s := fetchFrom_setVm s v h _ _

/-- In real-address mode every form of JMP does the same under another VM, and keeps that VM. -/
theorem exec_setVm (i : Instr) (t : State) (ht : exec i s = .next t) : exec i (setVm s v) = .next (setVm t v) := by
  cases i with
  | jmpRel8 os rel => exact (congrArg _ (nearTarget_setVm s v h _)).trans (finish_setVm s v _ t ht)
  | jmpRel16 rel => exact (congrArg _ (nearTarget_setVm s v h _)).trans (finish_setVm s v _ t ht)
  | jmpRel32 rel => exact (congrArg _ (nearTarget_setVm s v h _)).trans (finish_setVm s v _ t ht)
  | jmpRM16 rm =>
    rw [exec, execJmpRM16, readRM16_setVm s v h, nearIndirect_setVm s v h]
    exact finish_setVm s v _ t ht
  | jmpRM32 rm =>
    rw [exec, execJmpRM32, readRM32_setVm s v h, nearIndirect_setVm s v h]
    exact finish_setVm s v _ t ht
  | jmpPtr16_16 off sel => exact (congrArg _ (farJump_setVm s v h _ _ _)).trans (finish_setVm s v _ t ht)
  | jmpPtr16_32 off sel => exact (congrArg _ (farJump_setVm s v h _ _ _)).trans (finish_setVm s v _ t ht)
  | jmpM16_16 m =>
    rw [exec, execJmpM16_16, readFar16_setVm s v h, farIndirect_setVm s v h]
    exact finish_setVm s v _ t ht
  | jmpM16_32 m =>
    rw [exec, execJmpM16_32, readFar32_setVm s v h, farIndirect_setVm s v h]
    exact finish_setVm s v _ t ht

theorem step_setVm (t : State) (ht : step s = .next t) : step (setVm s v) = .next (setVm t v) := by
  have hr : s.running := running_of_step s t ht
  have hr' : (setVm s v).running := hr
  have hfetch := fetchInstr_setVm s v h
  cases hf : fetchInstr s with
  | instr i =>
    rw [step_of_instr s hr i hf] at ht
    rw [step_of_instr _ hr' i (hfetch.trans hf)]
    exact exec_setVm s v h i t ht
  | raised e =>
    rw [step_of_raised s hr e hf] at ht
    rw [step_of_raised _ hr' e (hfetch.trans hf)]
    cases ht
    rfl
  | refused r =>
    rw [step_of_refused s hr r hf] at ht
    rw [step_of_refused _ hr' r (hfetch.trans hf)]
    cases ht
    rfl

end

/-- Settles O52: the three modes by `State.mode`, and `step_setVm`. -/
theorem realModeIgnoresVm : Obligations.RealModeIgnoresVm :=
  ⟨fun s => ⟨mode_real_iff s, mode_v86_iff s, mode_prot_iff s⟩, fun s t v h ht => step_setVm s v h t ht⟩

end Sys2Proof.Machine

/-! ## What a JMP leaves unchanged without a task switch (10_state.md, R17, R21, R22, R121) -/

namespace Sys2Proof.Machine

/-! ### The load of a code segment (R89, R94) -/

section
variable {s t : State} {sel : Selector} {d : Descriptor} {off : Word} (h : loadCs s sel d off = .ok t)
include h

/-- A load writes CS, EIP and memory, and nothing else. -/
theorem loadCs_eq_setMem : t = setMem (setEip (setCs s (loadedCs s sel d)) off) t.mem := by
  rcases loadCs_ok s t sel d off h with ⟨_, phys, _, rfl⟩ | ⟨_, rfl⟩ <;> rfl

theorem loadCs_eip : t.eip = off := by rw [loadCs_eq_setMem h]; rfl

theorem loadCs_cs : t.cs = loadedCs s sel d := by rw [loadCs_eq_setMem h]; rfl

theorem loadCs_faultRecord : t.faultRecord = s.faultRecord := by rw [loadCs_eq_setMem h]; rfl

/-- The RPL field of the loaded selector is CPL (R89, R96). -/
theorem loadCs_cpl : t.cpl = s.cpl := by
  rw [State.cpl, loadCs_cs h]
  exact selRpl_setRpl sel s.cpl

/-- The selector CS holds then names the descriptor it was loaded from (R39, R41). -/
theorem loadCs_descAddr : descAddr s t.cs.sel = descAddr s sel := by
  rw [loadCs_cs h]
  exact descAddr_setRpl s sel s.cpl

/-- No byte is written but the AR byte of that descriptor (R94). -/
theorem loadCs_memRead_other (a : Nat)
    (ha : ∀ phys, translate s (descAddr s t.cs.sel + 5#32) .write .supervisor = .ok phys → a ≠ phys.toNat) :
    memRead t.mem a = memRead s.mem a := by
  rw [loadCs_descAddr h] at ha
  rcases loadCs_ok s t sel d off h with ⟨_, phys, hp, rfl⟩ | ⟨_, rfl⟩
  · exact memRead_memWrite_other s.mem phys.toNat a _ (ha phys hp)
  · rfl

end

/-! ### The effects of a JMP -/

/-- A task switch is counted (R93; log entry 6). -/
theorem taskSwitches_ne_of_enterTask {s t : State} {tsel : Selector} {td : Descriptor} (h : t = enterTask s tsel td) :
    t.taskSwitches ≠ s.taskSwitches := by
  rw [h, enterTask_taskSwitches]
  exact Nat.succ_ne_self _

section
variable {s t : State}

/-- Outside protected mode a JMP writes no byte of memory (R85). -/
theorem Effect.mem_of_not_prot (h : Effect s t) (hm : s.mode ≠ .prot) : t.mem = s.mem := by
  cases h with
  | raised _ _ h | near _ _ h | unprotected _ _ _ _ h => rw [h]; rfl
  | loaded _ _ _ hp | task _ _ hp => exact absurd hp hm

variable (h : Effect s t) (hn : t.taskSwitches = s.taskSwitches)
include h hn

/-- Without a task switch only CS, EIP, memory and the fault record are written (R21, R121). -/
theorem Effect.frame : ∃ eip cs mem fr, t = { s with eip := eip, cs := cs, mem := mem, faultRecord := fr } := by
  cases h with
  | raised _ _ h | near _ _ h | unprotected _ _ _ _ h => exact ⟨_, _, _, _, h⟩
  | loaded _ _ _ _ _ h => exact ⟨_, _, _, _, loadCs_eq_setMem h⟩
  | task _ _ _ h => exact absurd hn (taskSwitches_ne_of_enterTask h)

/-- Without a task switch memory is written at most at the AR byte of the descriptor CS then holds (R94). -/
theorem Effect.memRead_other (a : Nat)
    (ha : ∀ phys, translate s (descAddr s t.cs.sel + 5#32) .write .supervisor = .ok phys → a ≠ phys.toNat) :
    memRead t.mem a = memRead s.mem a := by
  cases h with
  | raised _ _ h | near _ _ h | unprotected _ _ _ _ h => rw [h]; rfl
  | loaded _ _ _ _ _ h => exact loadCs_memRead_other h a ha
  | task _ _ _ h => exact absurd hn (taskSwitches_ne_of_enterTask h)

/-- Without a task switch a JMP keeps the fault record, or it raised and wrote nothing else (R121). -/
theorem Effect.faultRecord_or_recorded :
    t.faultRecord = s.faultRecord ∨ ∃ vector code, t = s.recorded vector code := by
  cases h with
  | raised _ _ h => exact .inr ⟨_, _, h⟩
  | near _ _ h | unprotected _ _ _ _ h => exact .inl (by rw [h]; rfl)
  | loaded _ _ _ _ _ h => exact .inl (loadCs_faultRecord h)
  | task _ _ _ h => exact absurd hn (taskSwitches_ne_of_enterTask h)

/-- Without a task switch a JMP of protected mode keeps CPL (R96). -/
theorem Effect.cpl (hm : s.mode = .prot) : t.cpl = s.cpl := by
  cases h with
  | raised _ _ h | near _ _ h => rw [h]; rfl
  | unprotected _ _ hp => exact absurd hm hp
  | loaded _ _ _ _ _ h => exact loadCs_cpl h
  | task _ _ _ h => exact absurd hn (taskSwitches_ne_of_enterTask h)

end

/-- Settles O48: `Effect.frame` for the registers, `Effect.memRead_other` for the bytes of memory. -/
theorem farJumpFrame : Obligations.FarJumpFrame := by
  intro i s t h _ hn
  have he := effect_of_exec i s t h
  have hmode := he.mem_of_not_prot
  have hmem := he.memRead_other hn
  obtain ⟨eip, cs, mem, fr, rfl⟩ := he.frame hn
  exact ⟨rfl, rfl, rfl, rfl, rfl, rfl, rfl, rfl, rfl, rfl, rfl, rfl, rfl, rfl, rfl, hmode, hmem⟩

/-- Settles O49: `Effect.faultRecord_or_recorded`, from an empty record. -/
theorem raisingChangesNothingElse : Obligations.RaisingChangesNothingElse := by
  intro i s t h hn hf
  exact ((effect_of_exec i s t h).faultRecord_or_recorded hn).imp_left fun hk => hk.trans hf

/-- Settles O55: `Effect.cpl`; the refusal mark leaves CPL alone. -/
theorem stepKeepsPrivilege : Obligations.StepKeepsPrivilege := by
  intro s t h hm hn
  obtain ⟨_, _, he | ⟨r, rfl⟩⟩ := effect_of_step s t h
  · exact he.cpl hn hm
  · exact markRefused_cpl s r

end Sys2Proof.Machine

/-! ## The EIP a JMP writes (R12) -/

namespace Sys2Proof.Machine

/-- A procedure of a JMP that completes without a task switch leaves an EIP with `P`. -/
def EipIn (s : State) (P : Word → Prop) (r : Except Exception State) : Prop :=
  ∀ t, r = .ok t → t.taskSwitches = s.taskSwitches → P t.eip

section
variable (s : State) (P : Word → Prop)

theorem eipIn_error (e : Exception) : EipIn s P (.error e) := fun _ h => nomatch h

theorem eipIn_ite (c : Prop) [Decidable c] (a b : Except Exception State) (ha : EipIn s P a) (hb : EipIn s P b) :
    EipIn s P (if c then a else b) := by
  split
  · exact ha
  · exact hb

/-- A check that raises, before the rest of a procedure. -/
theorem eipIn_check (c : Prop) [Decidable c] (e : Exception) (r : Except Exception State) (h : EipIn s P r) :
    EipIn s P (if c then .error e else r) :=
  eipIn_ite s P c _ _ (eipIn_error s P e) h

/-! ### The near procedures -/

theorem eipIn_nearTarget (tgt : Word) (h : P tgt) : EipIn s P (nearTarget s tgt) :=
  eipIn_check s P _ _ _ fun _ ht _ => by cases ht; exact h

theorem eipIn_nearIndirect (r : Except Exception Word) (h : ∀ v, r = .ok v → P v) : EipIn s P (nearIndirect s r) := by
  cases r with
  | error e => exact eipIn_error s P e
  | ok v => exact eipIn_nearTarget s P v (h v rfl)

/-! ### The far procedures: the offset of the pointer, or the one a call gate gives (R85 to R92) -/

theorem eipIn_realOrV86 (sel : Selector) (off : Word) (h : P off) : EipIn s P (realOrV86 s sel off) :=
  eipIn_check s P _ _ _ fun _ ht _ => by cases ht; exact h

theorem eipIn_loadCs (sel : Selector) (d : Descriptor) (off : Word) (h : P off) : EipIn s P (loadCs s sel d off) :=
  fun _ ht _ => by rw [loadCs_eip ht]; exact h

theorem eipIn_conforming (sel : Selector) (d : Descriptor) (off : Word) (h : P off) :
    EipIn s P (conforming s sel d off) :=
  eipIn_check s P _ _ _ <| eipIn_check s P _ _ _ <| eipIn_check s P _ _ _ <| eipIn_loadCs s P sel d off h

theorem eipIn_nonconforming (sel : Selector) (d : Descriptor) (off : Word) (h : P off) :
    EipIn s P (nonconforming s sel d off) :=
  eipIn_check s P _ _ _ <| eipIn_check s P _ _ _ <| eipIn_check s P _ _ _ <| eipIn_check s P _ _ _ <|
    eipIn_loadCs s P sel d off h

theorem eipIn_callGateTarget (csel : Selector) (c : Descriptor) (tgt : Word) (h : P tgt) :
    EipIn s P (callGateTarget s csel c tgt) :=
  eipIn_check s P _ _ _ <| eipIn_check s P _ _ _ <| eipIn_check s P _ _ _ <| eipIn_check s P _ _ _ <|
    eipIn_check s P _ _ _ <| eipIn_loadCs s P csel c tgt h

theorem eipIn_callGate (os : OpSize) (gsel : Selector) (g : Descriptor) (h : P (gateTarget os g)) :
    EipIn s P (callGate s os gsel g) := by
  unfold callGate
  split
  · exact eipIn_error s P _
  · refine eipIn_check s P _ _ _ <| eipIn_check s P _ _ _ ?_
    split
    · exact eipIn_error s P _
    · exact eipIn_callGateTarget s P _ _ _ h

/-- A task switch that completes is counted, so it does not bear on `EipIn`. -/
theorem eipIn_switchToTss (tsel : Selector) (td : Descriptor) : EipIn s P (switchToTss s tsel td) :=
  eipIn_check s P _ _ _ <| eipIn_check s P _ _ _ fun _ ht hn => by
    cases ht
    exact absurd hn (taskSwitches_ne_of_enterTask rfl)

theorem eipIn_taskGate (gsel : Selector) (g : Descriptor) : EipIn s P (taskGate s gsel g) := by
  unfold taskGate
  split
  · exact eipIn_error s P _
  · refine eipIn_check s P _ _ _ <| eipIn_check s P _ _ _ ?_
    split
    · exact eipIn_error s P _
    · exact eipIn_switchToTss s P _ _

theorem eipIn_taskStateSegment (tsel : Selector) (td : Descriptor) : EipIn s P (taskStateSegment s tsel td) :=
  eipIn_check s P _ _ _ <| eipIn_check s P _ _ _ <| eipIn_switchToTss s P tsel td

section
variable (os : OpSize) (hg : ∀ g, P (gateTarget os g))
include hg

theorem eipIn_farByClass (sel : Selector) (off : Word) (d : Descriptor) (h : P off) :
    EipIn s P (farByClass s os sel off d) := by
  unfold farByClass
  cases classify (descAr d) with
  | conforming => exact eipIn_conforming s P sel d off h
  | nonconforming => exact eipIn_nonconforming s P sel d off h
  | callGate => exact eipIn_callGate s P os sel d (hg d)
  | taskGate => exact eipIn_taskGate s P sel d
  | taskState => exact eipIn_taskStateSegment s P sel d
  | illegal => exact eipIn_error s P _

theorem eipIn_protectedJump (sel : Selector) (off : Word) (h : P off) : EipIn s P (protectedJump s os sel off) := by
  unfold protectedJump
  refine eipIn_check s P _ _ _ <| eipIn_check s P _ _ _ ?_
  split
  · exact eipIn_error s P _
  · exact eipIn_farByClass s P os hg sel off _ h

theorem eipIn_farJump (sel : Selector) (off : Word) (h : P off) : EipIn s P (farJump s os sel off) := by
  unfold farJump
  cases s.mode with
  | real | v86 => exact eipIn_realOrV86 s P sel off h
  | prot => exact eipIn_protectedJump s P os hg sel off h

theorem eipIn_farIndirect (r : Except Exception FarPointer) (h : ∀ p, r = .ok p → P p.off) :
    EipIn s P (farIndirect s os r) := by
  cases r with
  | error e => exact eipIn_error s P e
  | ok p => exact eipIn_farJump s P os hg p.sel p.off (h p rfl)

end

end

/-! ### Operand size 16 (R12) -/

/-- The upper 16 bits are zero. -/
def UpperHalfZero (w : Word) : Prop := w.toNat < 65536

theorem upperHalfZero_setWidth (v : HalfWord) : UpperHalfZero (v.setWidth 32) := by
  have hv := v.isLt
  simp only [UpperHalfZero, BitVec.toNat_setWidth]
  omega

theorem upperHalfZero_maskEip (w : Word) : UpperHalfZero (maskEip .o16 w) := by
  rw [UpperHalfZero, maskEip, BitVec.toNat_and]
  exact Nat.lt_succ_of_le Nat.and_le_right

theorem upperHalfZero_readRM16 (s : State) (rm : RegMem) (v : Word) (h : readRM16 s rm = .ok v) : UpperHalfZero v := by
  cases rm with
  | reg r => cases h; exact upperHalfZero_setWidth _
  | mem m =>
    simp only [readRM16] at h
    split at h <;> cases h
    exact upperHalfZero_setWidth _

theorem upperHalfZero_readFar16 (s : State) (m : MemOperand) (p : FarPointer) (h : readFar16 s m = .ok p) :
    UpperHalfZero p.off := by
  unfold readFar16 at h
  split at h <;> cases h
  exact upperHalfZero_setWidth _

/-- A JMP that raised nothing left what its procedure completed with. -/
theorem eq_ok_of_finish {s t : State} {r : Except Exception State} (h : finish s r = .next t)
    (hf : t.faultRecord = none) : r = .ok t := by
  cases r with
  | error e => cases h; cases hf
  | ok t' => cases h; rfl

/-- Every form of operand size 16 is the `finish` of a procedure that leaves an EIP below 2^16. -/
theorem exec_o16 (i : Instr) (s : State) (ho : opSizeOf i = .o16) :
    ∃ r, exec i s = finish s r ∧ EipIn s UpperHalfZero r := by
  have gate : ∀ g, UpperHalfZero (gateTarget .o16 g) := fun _ => upperHalfZero_setWidth _
  cases i with
  | jmpRel8 os rel => cases ho; exact ⟨_, rfl, eipIn_nearTarget s _ _ (upperHalfZero_maskEip _)⟩
  | jmpRel16 rel => exact ⟨_, rfl, eipIn_nearTarget s _ _ (upperHalfZero_maskEip _)⟩
  | jmpRM16 rm => exact ⟨_, rfl, eipIn_nearIndirect s _ _ (upperHalfZero_readRM16 s rm)⟩
  | jmpPtr16_16 off sel => exact ⟨_, rfl, eipIn_farJump s _ _ gate _ _ (upperHalfZero_setWidth off)⟩
  | jmpM16_16 m => exact ⟨_, rfl, eipIn_farIndirect s _ _ gate _ (upperHalfZero_readFar16 s m)⟩
  | jmpRel32 | jmpRM32 | jmpPtr16_32 | jmpM16_32 => cases ho

/-- Settles O53: `exec_o16`, for a JMP that raised nothing. -/
theorem sixteenBitFormsClearTheUpperHalf : Obligations.SixteenBitFormsClearTheUpperHalf := by
  intro i s t h ho hn _ hf
  obtain ⟨r, hr, heip⟩ := exec_o16 i s ho
  rw [hr] at h
  exact heip t (eq_ok_of_finish h hf) hn

end Sys2Proof.Machine

/-! ## The step on decoded bytes, and the state after reset (R34, R120, R130) -/

namespace Sys2Proof.Machine

/-- Settles O8: fetched bytes that decode to an instruction are what the fetch answers, and the step runs it. -/
theorem stepRunsTheDecodedBytes : Obligations.StepRunsTheDecodedBytes := by
  intro s bs i hr hd hf
  exact step_of_instr s hr i ((fetchInstr_of_decode s bs hf).1 i [] hd)

/-- The EIP after reset lies within the limit of CS (R46, R130). -/
theorem reset_eipWithinLimit : State.reset.eipWithinLimit := fun _ => by decide

/-- Settles O59: memory is empty after reset, and each register holds the value written there. -/
theorem resetState : Obligations.ResetState :=
  ⟨rfl, reset_eipWithinLimit, ⟨rfl, rfl⟩, rfl, rfl, rfl, rfl, rfl, fun _ => rfl⟩

end Sys2Proof.Machine

/-! ## The invariants of a step: canonical memory, and EIP within the limit of CS (R30, R46) -/

namespace Sys2Proof.Machine

/-! ### Canonical memory (R30; log entry 4) -/

/-- A load keeps the canonical form: it writes at most the AR byte of a descriptor (R94). -/
theorem loadCs_wf {s t : State} {sel : Selector} {d : Descriptor} {off : Word} (h : loadCs s sel d off = .ok t)
    (hm : Memory.wf s.mem = true) : Memory.wf t.mem = true := by
  rcases loadCs_ok s t sel d off h with ⟨_, phys, _, rfl⟩ | ⟨_, rfl⟩
  · exact memWrite_wf s.mem phys _ hm
  · exact hm

/-- A task switch keeps the canonical form, whatever bytes `SwitchTasks` writes (R93). -/
theorem enterTask_wf (s : State) (tsel : Selector) (td : Descriptor) (hm : Memory.wf s.mem = true) :
    Memory.wf (enterTask s tsel td).mem = true := by
  rcases enterTask_cases s tsel td with ⟨e, h⟩ | ⟨h, _⟩ <;> rw [h] <;> exact memWriteAll_wf _ s.mem hm

theorem Effect.mem_wf {s t : State} (h : Effect s t) (hm : Memory.wf s.mem = true) : Memory.wf t.mem = true := by
  cases h with
  | raised _ _ h | near _ _ h | unprotected _ _ _ _ h => rw [h]; exact hm
  | loaded _ _ _ _ _ h => exact loadCs_wf h hm
  | task tsel td _ h => rw [h]; exact enterTask_wf s tsel td hm

/-- Settles O57: every effect of a step keeps the canonical form, and the refusal mark leaves memory alone. -/
theorem stepKeepsMemoryCanonical : Obligations.StepKeepsMemoryCanonical := by
  intro s t hm h
  obtain ⟨_, _, he | ⟨r, rfl⟩⟩ := effect_of_step s t h
  · exact he.mem_wf hm
  · exact hm

/-! ### EIP within the limit of CS (R46, D30) -/

/-- Every effect that leaves no fault record checked the EIP it wrote against the limit of the CS it left. -/
theorem Effect.eipWithinLimit {s t : State} (h : Effect s t) : t.eipWithinLimit := by
  cases h with
  | raised _ _ h => intro hf; rw [h] at hf; cases hf
  | near _ hl h | unprotected _ _ _ hl h => intro _; rw [h]; exact hl
  | loaded _ _ _ _ hc h => intro _; rw [loadCs_eip h, loadCs_cs h]; exact hc.limit
  | task tsel td _ h =>
    subst h
    rcases enterTask_cases s tsel td with ⟨e, h⟩ | ⟨_, hl⟩
    · intro hf; rw [h] at hf; cases hf
    · exact fun _ => hl

/-- Settles O58: `Effect.eipWithinLimit`; the refusal mark leaves EIP, CS and the fault record alone. -/
theorem stepKeepsEipWithinLimit : Obligations.StepKeepsEipWithinLimit := by
  intro s t hs h
  obtain ⟨_, _, he | ⟨r, rfl⟩⟩ := effect_of_step s t h
  · exact he.eipWithinLimit
  · exact hs

/-! ### Canonical memories that read alike -/

/-- A canonical memory lists no `unlistedByte`. -/
theorem memRead_firstCell_ne {lo k : Nat} {b : Byte} {m : Memory} (hm : cellsFrom lo ((k, b) :: m) = true) :
    memRead ((k, b) :: m) k ≠ unlistedByte := by
  simp only [cellsFrom, Bool.and_eq_true, decide_eq_true_eq] at hm
  simpa [memRead] using hm.1.2

theorem cellsFrom_tail {lo k : Nat} {b : Byte} {m : Memory} (hm : cellsFrom lo ((k, b) :: m) = true) :
    cellsFrom (k + 1) m = true := by
  rw [cellsFrom, Bool.and_eq_true] at hm
  exact hm.2

/-- The first cells of canonical memories that read alike: neither stands below the other. -/
theorem firstCell_le {lo lo' k k' : Nat} {b b' : Byte} {m m' : Memory} (hm : cellsFrom lo ((k, b) :: m) = true)
    (hm' : cellsFrom lo' ((k', b') :: m') = true) (hr : ∀ a, memRead ((k, b) :: m) a = memRead ((k', b') :: m') a) :
    k' ≤ k := by
  by_contra hlt
  have hbelow : memRead ((k', b') :: m') k = unlistedByte := by
    rw [memRead, if_neg (by omega)]
    exact memRead_below m' (k' + 1) k (cellsFrom_tail hm') (by omega)
  exact memRead_firstCell_ne hm ((hr k).trans hbelow)

theorem memory_eq_of_cellsFrom (m m' : Memory) (lo lo' : Nat) (hm : cellsFrom lo m = true)
    (hm' : cellsFrom lo' m' = true) (hr : ∀ a, memRead m a = memRead m' a) : m = m' := by
  induction m generalizing m' lo lo' with
  | nil =>
    cases m' with
    | nil => rfl
    | cons c m' => exact absurd (hr c.1).symm (memRead_firstCell_ne hm')
  | cons c m ih =>
    cases m' with
    | nil => exact absurd (hr c.1) (memRead_firstCell_ne hm)
    | cons c' m' =>
      obtain ⟨k, b⟩ := c
      obtain ⟨k', b'⟩ := c'
      obtain rfl : k = k' := Nat.le_antisymm (firstCell_le hm' hm fun a => (hr a).symm) (firstCell_le hm hm' hr)
      obtain rfl : b = b' := by simpa [memRead] using hr k
      have ht := cellsFrom_tail hm
      have ht' := cellsFrom_tail hm'
      have htail : ∀ a, memRead m a = memRead m' a := fun a => by
        by_cases ha : k = a
        · rw [memRead_below m (k + 1) a ht (by omega), memRead_below m' (k + 1) a ht' (by omega)]
        · simpa [memRead, ha] using hr a
      rw [ih m' _ _ ht ht' htail]

/-- Settles O56: `memory_eq_of_cellsFrom` from address 0. -/
theorem canonicalMemoryIsUnique : Obligations.CanonicalMemoryIsUnique :=
  fun m m' hm hm' hr => memory_eq_of_cellsFrom m m' 0 0 hm hm' hr

end Sys2Proof.Machine

/-! ## The bytes of a fetch (R34, R120) -/

namespace Sys2Proof.Machine

theorem toNat_fetchOffset (s : State) (k : Nat) : (fetchOffset s k).toNat = (s.eip.toNat + k) % 4294967296 := by
  simp [fetchOffset, BitVec.toNat_add]

theorem toNat_fetchLinear (s : State) (k : Nat) :
    (fetchLinear s k).toNat = (s.cs.base.toNat + (s.eip.toNat + k) % 4294967296) % 4294967296 := by
  rw [fetchLinear, BitVec.toNat_add, toNat_fetchOffset]

theorem fetchByte_beyond (s : State) (k : Nat) (h : s.cs.limit < fetchOffset s k) :
    fetchByte s k = .error (limitException s) := if_pos h

theorem limitException_eq_ite (s : State) :
    limitException s = if s.mode = .prot then .gp 0#16 else .interrupt13 := by
  cases hm : s.mode <;> simp [limitException, hm]

/-- CPL 3 in natural numbers (R17). -/
theorem cpl_eq_three_iff (s : State) : s.cpl = 3#2 ↔ s.cs.sel.toNat % 4 = 3 := by
  rw [← BitVec.toNat_inj, State.cpl, BitVec.extractLsb'_toNat]
  simp

theorem accessLevel_of_prot (s : State) (hm : s.mode = .prot) :
    accessLevel s = if s.cs.sel.toNat % 4 = 3 then .user else .supervisor := by
  simp only [accessLevel, hm, cpl_eq_three_iff]

/-- Settles O9: the offset and the linear address in natural numbers, and the two cases of `fetchByte`. -/
theorem fetchByteReadsTheCodeSegment : Obligations.FetchByteReadsTheCodeSegment := by
  intro s k lin hlin
  obtain rfl : lin = fetchLinear s k := BitVec.eq_of_toNat_eq (hlin.trans (toNat_fetchLinear s k).symm)
  refine ⟨fun hb => ?_, fun hw => ?_, accessLevel_of_prot s, fun hp => translate_identity s ?_ _ _ _⟩
  · rw [fetchByte_beyond s k (by rwa [BitVec.lt_def, toNat_fetchOffset]), limitException_eq_ite]
  · exact if_neg (by rw [BitVec.lt_def, toNat_fetchOffset]; omega)
  · rcases hp with h | h <;> simp [h]

/-- The fetch raises when the bytes read so far are undecided and the next one cannot be fetched (R120). -/
theorem fetchFrom_raised (s : State) (n : Nat) (acc : List Byte) (e : Exception)
    (h : decode s.cs.d acc = .incomplete) (he : fetchByte s acc.length = .error e) :
    fetchFrom s (n + 1) acc = .raised e := by
  simp [fetchFrom, h, he]

theorem fetchInstr_raised (s : State) (bs : List Byte) (e : Exception) (hd : decode s.cs.d bs = .incomplete)
    (hf : fetches s bs) (he : fetchByte s bs.length = .error e) : fetchInstr s = .raised e := by
  have hl : bs.length ≤ 10 := decode_incomplete_length _ bs hd
  have htake : ∀ k < bs.length, decode s.cs.d (bs.take k) = .incomplete := fun k _ =>
    decode_incomplete_of_append _ _ (bs.drop k) (by rwa [List.take_append_drop])
  have hfuel : Config.maxInstructionLength - bs.length = 14 - bs.length + 1 := by
    simp only [Config.maxInstructionLength]; omega
  rw [fetchInstr_bytes s bs (by simp only [Config.maxInstructionLength]; omega) htake hf, hfuel]
  exact fetchFrom_raised s _ bs e hd he

/-- Settles O10: the fetch answers the exception, and the step takes it at EIP. -/
theorem fetchExceptionIsTakenByteByByte : Obligations.FetchExceptionIsTakenByteByByte :=
  fun s bs e hr hd hf he => step_of_raised s hr e (fetchInstr_raised s bs e hd hf he)

/-- A limit violation of CS as the fault record holds it (R111). -/
theorem takeException_limitException (s : State) : takeException s s.eip (limitException s) = s.limitRecorded := by
  have hv : vectorOf (limitException s) = 13 := by cases hm : s.mode <;> simp [limitException, hm, vectorOf]
  have hc : codeOf s.pe (limitException s) = if s.pe then some 0#16 else none := by
    cases hm : s.mode with
    | real | v86 => simp [limitException, hm, codeOf]
    | prot => simp [limitException, hm, codeOf, ((mode_prot_iff s).mp hm).1]
  rw [State.limitRecorded, ← hv, ← hc]
  rfl

/-- Settles O11: byte 0 stands at EIP, so its fetch raises before any byte is read. -/
theorem fetchBeyondLimitRaises : Obligations.FetchBeyondLimitRaises := by
  intro s hr hl
  have he : fetchByte s 0 = .error (limitException s) := fetchByte_beyond s 0 (by simpa [fetchOffset] using hl)
  rw [step_of_raised s hr _ (fetchInstr_raised s [] _ rfl (fun _ h => nomatch h) he), takeException_limitException]

end Sys2Proof.Machine

/-! ## Memory operands (R33, R38, R117) -/

namespace Sys2Proof.Machine

/-! ### The segment check by mode -/

/-- Taking an exception at the EIP of the JMP writes the record and nothing else (R22, R121). -/
theorem takeException_eq_recorded (s : State) (e : Exception) :
    takeException s s.eip e = s.recorded (vectorOf e) (codeOf s.pe e) := rfl

theorem segCheck_of_not_prot (s : State) (hm : s.mode ≠ .prot) (seg : SegReg) (off : Word) (n : Nat)
    (h : 0x0000FFFF < off.toNat + n - 1) : segCheck s seg off n = some .interrupt13 := by
  cases hmode : s.mode with
  | real | v86 => simp only [segCheck, hmode, if_pos h]
  | prot => exact absurd hmode hm

theorem segCheck_of_prot (s : State) (hm : s.mode = .prot) (seg : SegReg) (off : Word) (n : Nat)
    (h : segOK (segView s seg) off n = false) :
    segCheck s seg off n = some (if seg = .ss then .ss 0#16 else .gp 0#16) := by
  by_cases hs : seg = .ss <;> simp_all [segCheck]

/-! ### An operand that cannot be read -/

/-- Each of the four forms with a memory operand raises the exception its read raises (R33, R121). -/
theorem exec_of_readOperand_error {i : Instr} {m : MemOperand} {n : Nat} {s : State} {e : Exception}
    (hi : memOperandOf i = some (m, n)) (h : readOperand s m n = .error e) :
    exec i s = .next (s.recorded (vectorOf e) (codeOf s.pe e)) := by
  have he : (∃ v : Except Exception Word, v = .error e ∧ exec i s = finish s (nearIndirect s v)) ∨
      ∃ os, ∃ p : Except Exception FarPointer, p = .error e ∧ exec i s = finish s (farIndirect s os p) := by
    cases i with
    | jmpRM16 rm => cases rm <;> cases hi; exact .inl ⟨_, by rw [readRM16, h], rfl⟩
    | jmpRM32 rm => cases rm <;> cases hi; exact .inl ⟨_, h, rfl⟩
    | jmpM16_16 => cases hi; exact .inr ⟨_, _, by rw [readFar16, h], rfl⟩
    | jmpM16_32 => cases hi; exact .inr ⟨_, _, by rw [readFar32, h], rfl⟩
    | jmpRel8 | jmpRel16 | jmpRel32 | jmpPtr16_16 | jmpPtr16_32 => cases hi
  obtain ⟨v, rfl, he⟩ | ⟨os, p, rfl, he⟩ := he <;> exact he

/-- Settles O23: the segment check raises Interrupt 13, and each form raises what its operand raises. -/
theorem operandBeyondRealSegmentRaises : Obligations.OperandBeyondRealSegmentRaises := fun _ m n s hi hm hoff =>
  exec_of_readOperand_error hi (readOperand_illegal s m n _ (segCheck_of_not_prot s hm _ _ n hoff))

/-- Settles O24: the segment check raises `#SS(0)` or `#GP(0)`, and each form raises what its operand raises. -/
theorem illegalOperandRaises : Obligations.IllegalOperandRaises := by
  intro i m n s hi hm hok
  rw [exec_of_readOperand_error hi (readOperand_illegal s m n _ (segCheck_of_prot s hm _ _ n hok))]
  split <;> rfl

/-- An operand that passes its check fails exactly where a byte of it does not translate (R33, R117). -/
theorem readOperand_cases (s : State) (m : MemOperand) (n : Nat)
    (hc : segCheck s (operandSeg m) (effAddr s m.addr) n = none) :
    let first := (List.range n).findSome? fun j => translateCode s (operandLinear s m j) .read (accessLevel s)
    (∃ c, first = some c ∧ readOperand s m n = .error (.pf c)) ∨
      (first = none ∧ ∃ v, readOperand s m n = .ok v) := by
  rcases readLinear_cases s .read (accessLevel s) ((segView s (operandSeg m)).base + effAddr s m.addr) n with
    ⟨c, hf, hr⟩ | ⟨hf, bs, hr⟩
  · exact .inl ⟨c, hf, by simp only [readOperand, segRead, hc, hr]⟩
  · exact .inr ⟨hf, leValue (8 * n) bs, by simp only [readOperand, segRead, hc, hr]⟩

/-- Settles O26: `readOperand_cases`, and each form raises what its operand raises. -/
theorem operandPageFaultRaises : Obligations.OperandPageFaultRaises := by
  intro i m n s hi hc
  obtain ⟨c, hf, hr⟩ | ⟨hf, hv⟩ := readOperand_cases s m n hc
  · rw [hf]
    exact exec_of_readOperand_error hi hr
  · rw [hf]
    exact hv

/-! ### An operand that is read (R31, R37, R38) -/

theorem leNat_lt (bs : List Byte) : leNat bs < 2 ^ (8 * bs.length) := by
  induction bs with
  | nil => simp [leNat]
  | cons b bs ih =>
    have hb := b.isLt
    rw [leNat, List.length_cons, Nat.mul_succ, pow_add]
    omega

/-- The number of bytes in a row: the later ones are the upper part (R31). -/
theorem leNat_append (xs ys : List Byte) : leNat (xs ++ ys) = leNat xs + 2 ^ (8 * xs.length) * leNat ys := by
  induction xs with
  | nil => simp [leNat]
  | cons x xs ih =>
    rw [List.cons_append, leNat, ih, leNat, List.length_cons, Nat.mul_succ, pow_add]
    ring

/-- An appended word in natural numbers. -/
theorem toNat_append_eq {u v : Nat} (x : BitVec u) (y : BitVec v) : (x ++ y).toNat = x.toNat * 2 ^ v + y.toNat := by
  rw [BitVec.toNat_append, ← Nat.shiftLeft_add_eq_or_of_lt y.isLt, Nat.shiftLeft_eq]

/-- A value of bytes in a row is the value of the later ones above that of the earlier ones (R31). -/
theorem leValue_append (u : Nat) (xs ys : List Byte) :
    leValue (u + 8 * xs.length) (xs ++ ys) = leValue u ys ++ leValue (8 * xs.length) xs := by
  apply BitVec.eq_of_toNat_eq
  have hx := leNat_lt xs
  rw [toNat_append_eq]
  simp only [leValue, BitVec.toNat_ofNat, leNat_append]
  rw [pow_add, Nat.mul_comm (2 ^ u), Nat.mod_mul, Nat.add_mul_mod_self_left, Nat.mod_eq_of_lt hx,
    Nat.add_mul_div_left _ _ (Nat.two_pow_pos _), Nat.div_eq_of_lt hx, Nat.zero_add, Nat.mul_comm, Nat.add_comm]

/-- A near indirect jump to an operand within the limit of CS (R74 to R76). -/
theorem nearIndirect_of_le (s : State) (t : Word) (h : t ≤ s.cs.limit) : nearIndirect s (.ok t) = .ok (setEip s t) :=
  if_neg (BitVec.not_lt.mpr h)

/-- Settles O19: the operand is its two bytes, and the jump to it passes the limit check. -/
theorem memoryWordIsTheTarget : Obligations.MemoryWordIsTheTarget := by
  intro m s p hc h t ht hle
  have hrm : readRM16 s (.mem m) = .ok t := by
    rw [readRM16, readOperand_translated s m 2 p hc h]
    refine congrArg Except.ok (BitVec.eq_of_toNat_eq ?_)
    have h0 := (memRead s.mem (p 0).toNat).isLt
    have h1 := (memRead s.mem (p 1).toNat).isLt
    simp only [BitVec.toNat_setWidth, leValue, BitVec.toNat_ofNat, List.range_succ, List.range_zero, List.map_cons,
      List.map_nil, List.nil_append, List.cons_append, leNat]
    omega
  rw [exec, execJmpRM16, hrm, nearIndirect_of_le s t hle]
  rfl

/-- Settles O20: the operand is its four bytes, and the jump to it passes the limit check. -/
theorem memoryDwordIsTheTarget : Obligations.MemoryDwordIsTheTarget := by
  intro m s p hc h t hle
  have hrm : readRM32 s (.mem m) = .ok t :=
    (readOperand_translated s m 4 p hc h).trans (congrArg Except.ok (leValue_four _ _ _ _))
  rw [exec, execJmpRM32, hrm, nearIndirect_of_le s t hle]
  rfl

/-- `m16:16` in memory: offset in the low two bytes, selector in the high two (R38). -/
theorem readFar16_of_bytes (s : State) (m : MemOperand) (b0 b1 b2 b3 : Byte)
    (h : readOperand s m 4 = .ok (leValue 32 [b0, b1, b2, b3])) :
    readFar16 s m = .ok ⟨b3 ++ b2, (b1 ++ b0).setWidth 32⟩ := by
  have hp : leValue 32 [b0, b1, b2, b3] = (b3 ++ b2) ++ (b1 ++ b0) := by
    rw [← leValue_two b0 b1, ← leValue_two b2 b3]
    exact leValue_append 16 [b0, b1] [b2, b3]
  rw [readFar16, h, hp]
  exact congrArg Except.ok (congrArg₂ FarPointer.mk BitVec.extractLsb'_append_eq_left
    (congrArg (BitVec.setWidth 32) BitVec.extractLsb'_append_eq_right))

/-- `m16:32` in memory: offset in the low four bytes, selector in the high two (R38). -/
theorem readFar32_of_bytes (s : State) (m : MemOperand) (b0 b1 b2 b3 b4 b5 : Byte)
    (h : readOperand s m 6 = .ok (leValue 48 [b0, b1, b2, b3, b4, b5])) :
    readFar32 s m = .ok ⟨b5 ++ b4, b3 ++ b2 ++ b1 ++ b0⟩ := by
  have hp : leValue 48 [b0, b1, b2, b3, b4, b5] = (b5 ++ b4) ++ (b3 ++ b2 ++ b1 ++ b0) := by
    rw [← leValue_four b0 b1 b2 b3, ← leValue_two b4 b5]
    exact leValue_append 16 [b0, b1, b2, b3] [b4, b5]
  rw [readFar32, h, hp]
  exact congrArg Except.ok (congrArg₂ FarPointer.mk BitVec.extractLsb'_append_eq_left
    BitVec.extractLsb'_append_eq_right)

/-- Settles O27: both forms run the far jump with the pointer their operand holds. -/
theorem farIndirectIsFarDirectWithThePointer : Obligations.FarIndirectIsFarDirectWithThePointer := by
  intro m s p
  refine ⟨fun hc h => ?_, fun hc h => ?_⟩
  · have hfar := readFar16_of_bytes s m _ _ _ _ (readOperand_translated s m 4 p hc h)
    exact exec_far s (.jmpM16_16 m) .o16 _ (by rw [farOperand, hfar])
  · have hfar := readFar32_of_bytes s m _ _ _ _ _ _ (readOperand_translated s m 6 p hc h)
    exact exec_far s (.jmpM16_32 m) .o32 _ (by rw [farOperand, hfar])

/-! ### A legal operand in protected mode (R33, D29, D38) -/

/-- Bit `i` of a word in natural numbers. -/
theorem getLsbD_eq_decide {w : Nat} (x : BitVec w) (i : Nat) : x.getLsbD i = decide (x.toNat / 2 ^ i % 2 = 1) := by
  rw [← BitVec.testBit_toNat, Nat.testBit_eq_decide_div_mod_eq]

theorem arReadable_iff (ar : Byte) : arReadable ar = true ↔ ar.toNat / 8 % 2 = 0 ∨ ar.toNat / 2 % 2 = 1 := by
  simp only [arReadable, getLsbD_eq_decide, Bool.or_eq_true, Bool.not_eq_true', decide_eq_false_iff_not,
    decide_eq_true_eq]
  omega

theorem arExpandDown_iff (ar : Byte) : arExpandDown ar = true ↔ ar.toNat / 4 % 4 = 1 := by
  simp only [arExpandDown, getLsbD_eq_decide, Bool.and_eq_true, Bool.not_eq_true', decide_eq_false_iff_not,
    decide_eq_true_eq]
  omega

/-- Settles O25: the readable and the expand-down bit in natural numbers; the limits are natural numbers already. -/
theorem legalOperandMeaning : Obligations.LegalOperandMeaning := by
  intro seg off n
  rw [segOK, Bool.and_eq_true, Bool.and_eq_true, arReadable_iff, and_assoc]
  by_cases hd : seg.ar.toNat / 4 % 4 = 1
  · simp [(arExpandDown_iff seg.ar).mpr hd, hd, segUpper]
  · simp [mt (arExpandDown_iff seg.ar).mp hd, hd]

end Sys2Proof.Machine

/-! ## Selectors and descriptors in natural numbers (R39 to R45) -/

namespace Sys2Proof.Machine

/-! ### Selectors (R39, R40, R41) -/

/-- Bits `start` to `start + len - 1` of a word in natural numbers. -/
theorem toNat_extractLsb'_eq {w : Nat} (x : BitVec w) (start len : Nat) :
    (x.extractLsb' start len).toNat = x.toNat / 2 ^ start % 2 ^ len := by
  rw [BitVec.extractLsb'_toNat, Nat.shiftRight_eq_div_pow]

theorem selLocal_iff (sel : Selector) : selLocal sel = true ↔ sel.toNat / 4 % 2 = 1 := by
  simp only [selLocal, getLsbD_eq_decide, decide_eq_true_eq]
  rfl

theorem toNat_selIndex (sel : Selector) : (selIndex sel).toNat = sel.toNat / 8 := by
  have hs := sel.isLt
  simp only [selIndex, toNat_extractLsb'_eq]
  omega

theorem selNull_iff (sel : Selector) : selNull sel = true ↔ sel.toNat ≤ 3 := by
  have hs := sel.isLt
  simp only [selNull, decide_eq_true_eq, ← BitVec.toNat_inj, toNat_extractLsb'_eq, BitVec.toNat_ofNat]
  omega

theorem toNat_descAddr (s : State) (sel : Selector) :
    (descAddr s sel).toNat = ((tableBase s sel).toNat + sel.toNat / 8 * 8) % 4294967296 := by
  have hs := sel.isLt
  simp only [descAddr, BitVec.toNat_add, BitVec.toNat_mul, BitVec.toNat_setWidth, BitVec.toNat_ofNat, toNat_selIndex]
  omega

/-- Settles O33: the fields of the selector in natural numbers, and the table its local bit chooses. -/
theorem withinTableMeaning : Obligations.WithinTableMeaning := by
  intro s sel
  refine ⟨fun hg => ?_, fun hl => ?_, selNull_iff sel, ?_⟩
  · have hloc : ¬ selLocal sel = true := by rw [selLocal_iff]; omega
    rw [withinTable, if_neg hloc, decide_eq_true_eq, toNat_selIndex]
  · rw [withinTable, if_pos ((selLocal_iff sel).mpr hl), Bool.and_eq_true, decide_eq_true_eq, toNat_selIndex,
      Bool.not_eq_true', ← Bool.not_eq_true, selNull_iff, Nat.not_le]
    rfl
  · simp only [toNat_descAddr, tableBase, selLocal_iff]

/-! ### The fields of a descriptor (R42, R43) -/

theorem toNat_descAr (d : Descriptor) : (descAr d).toNat = d.toNat / 0x10000000000 % 0x100 :=
  toNat_extractLsb'_eq d 40 8

theorem toNat_descBase (d : Descriptor) :
    (descBase d).toNat = d.toNat / 0x100000000000000 % 0x100 * 0x1000000 + d.toNat / 0x10000 % 0x1000000 := by
  refine (toNat_append_eq (d.extractLsb' 56 8) (d.extractLsb' 16 24)).trans ?_
  simp only [toNat_extractLsb'_eq, Nat.reducePow]

theorem toNat_descLimit20 (d : Descriptor) :
    (descLimit20 d).toNat = d.toNat / 0x1000000000000 % 0x10 * 0x10000 + d.toNat % 0x10000 := by
  refine (toNat_append_eq (d.extractLsb' 48 4) (d.extractLsb' 0 16)).trans ?_
  simp only [toNat_extractLsb'_eq, Nat.reducePow, Nat.div_one]

theorem toNat_descLimit (d : Descriptor) : (descLimit d).toNat =
    if d.toNat / 0x1000000000000 / 0x80 % 2 = 1 then (descLimit20 d).toNat * 4096 + 4095
    else (descLimit20 d).toNat := by
  have h20 := (descLimit20 d).isLt
  simp only [descLimit, getLsbD_eq_decide, decide_eq_true_eq, Nat.div_div_eq_div_mul, Nat.reducePow, Nat.reduceMul]
  split
  · simp only [BitVec.toNat_add, BitVec.toNat_mul, BitVec.toNat_setWidth, BitVec.toNat_ofNat]
    omega
  · rw [BitVec.toNat_setWidth]
    omega

theorem descD_iff (d : Descriptor) : descD d = true ↔ d.toNat / 0x1000000000000 / 0x40 % 2 = 1 := by
  simp only [descD, getLsbD_eq_decide, decide_eq_true_eq, Nat.div_div_eq_div_mul, Nat.reducePow, Nat.reduceMul]

theorem toNat_gateSelector (g : Descriptor) : (gateSelector g).toNat = g.toNat / 0x10000 % 0x10000 :=
  toNat_extractLsb'_eq g 16 16

theorem toNat_gateOffset (g : Descriptor) :
    (gateOffset g).toNat = g.toNat / 0x1000000000000 % 0x10000 * 0x10000 + g.toNat % 0x10000 := by
  refine (toNat_append_eq (g.extractLsb' 48 16) (g.extractLsb' 0 16)).trans ?_
  simp only [toNat_extractLsb'_eq, Nat.reducePow, Nat.div_one]

/-- A descriptor whose bytes translate to `p 0`, `p 1`, ... is the bytes there (R41). -/
theorem readDesc_translated (s : State) (sel : Selector) (p : Nat → Word)
    (h : ∀ j < 8, translate s (descAddr s sel + BitVec.ofNat 32 j) .read .supervisor = .ok (p j)) :
    readDesc s sel = .ok (leValue 64 ((List.range 8).map fun j => memRead s.mem (p j).toNat)) := by
  simp only [readDesc, readLinear_translated s _ _ 8 _ p h]

/-- Eight bytes as a number, lowest first (R31). -/
theorem toNat_leValue_eight (b : Nat → Byte) :
    (leValue 64 ((List.range 8).map b)).toNat =
      (b 0).toNat + 256 * ((b 1).toNat + 256 * ((b 2).toNat + 256 * ((b 3).toNat + 256 * ((b 4).toNat + 256 *
        ((b 5).toNat + 256 * ((b 6).toNat + 256 * (b 7).toNat)))))) :=
  Nat.mod_eq_of_lt (leNat_lt ((List.range 8).map b))

/-- Four bytes appended, in natural numbers. -/
theorem toNat_append_four (b3 b2 b1 b0 : Byte) :
    (b3 ++ b2 ++ b1 ++ b0).toNat = ((b3.toNat * 256 + b2.toNat) * 256 + b1.toNat) * 256 + b0.toNat := by
  rw [← toNat_append_byte b3 b2, ← toNat_append_byte (b3 ++ b2) b1]
  exact toNat_append_byte (b3 ++ b2 ++ b1) b0

/-- Settles O34: the descriptor is the number its eight bytes hold, and each field is arithmetic of that number. -/
theorem descriptorFields : Obligations.DescriptorFields := by
  intro s sel p h b limit20
  have hb : ∀ j, (b j).toNat < 256 := fun j => (b j).isLt
  have h0 := hb 0; have h1 := hb 1; have h2 := hb 2; have h3 := hb 3
  have h4 := hb 4; have h5 := hb 5; have h6 := hb 6; have h7 := hb 7
  obtain ⟨d, hr, hd⟩ : ∃ d, readDesc s sel = .ok d ∧ d.toNat = _ :=
    ⟨_, readDesc_translated s sel p h, toNat_leValue_eight b⟩
  have hq2 : d.toNat / 0x10000 = (b 2).toNat + 256 * ((b 3).toNat + 256 * ((b 4).toNat + 256 * ((b 5).toNat + 256 *
    ((b 6).toNat + 256 * (b 7).toNat)))) := by omega
  have hq5 : d.toNat / 0x10000000000 = (b 5).toNat + 256 * ((b 6).toNat + 256 * (b 7).toNat) := by omega
  have hq6 : d.toNat / 0x1000000000000 = (b 6).toNat + 256 * (b 7).toNat := by omega
  have hq7 : d.toNat / 0x100000000000000 = (b 7).toNat := by omega
  have hlimit20 : (descLimit20 d).toNat = limit20 := by rw [toNat_descLimit20, hq6]; omega
  refine ⟨d, hr, BitVec.eq_of_toNat_eq ?ar, BitVec.eq_of_toNat_eq ?base, ?limit, ?size, BitVec.eq_of_toNat_eq ?gsel,
    BitVec.eq_of_toNat_eq ?goff⟩
  case ar => rw [toNat_descAr, hq5]; omega
  case base => rw [toNat_descBase, hq7, hq2, toNat_append_four]; omega
  case limit =>
    have hbit : d.toNat / 0x1000000000000 / 0x80 = (b 6).toNat / 128 + 2 * (b 7).toNat := by omega
    have hg : d.toNat / 0x1000000000000 / 0x80 % 2 = 1 ↔ (b 6).toNat / 128 = 1 := by rw [hbit]; omega
    simp only [toNat_descLimit, hlimit20, hg]
  case size =>
    have hbit : d.toNat / 0x1000000000000 / 0x40 = (b 6).toNat / 64 + 4 * (b 7).toNat := by omega
    rw [descD_iff, hbit]
    omega
  case gsel =>
    refine Eq.trans ?_ (toNat_append_byte (b 3) (b 2)).symm
    rw [toNat_gateSelector, hq2]
    omega
  case goff => rw [toNat_gateOffset, hq6, toNat_append_four]; omega

/-! ### The classes of an AR byte (R44, R45) -/

/-- The class of an AR byte by its S bit and type, for each of the 256 (R44, C4). -/
theorem classify_eq_ite (ar : Byte) : classify ar =
    (if ar.toNat / 16 % 2 = 1 then
      (if ar.toNat % 16 ∈ [8, 9, 10, 11] then .nonconforming
       else if ar.toNat % 16 ∈ [12, 13, 14, 15] then .conforming else .illegal)
     else if ar.toNat % 16 ∈ [4, 12] then .callGate
     else if ar.toNat % 16 = 5 then .taskGate
     else if ar.toNat % 16 ∈ [1, 3, 9, 11] then .taskState
     else .illegal) := by
  revert ar
  decide

/-- Membership in `AvailableTSSPatterns`, in natural numbers (R45, D13). -/
theorem arAvailableTss_iff (ar : Byte) : arAvailableTss ar = true ↔ ar.toNat % 32 ∈ [1, 9] := by
  simp [arAvailableTss, Config.availableTSSPatterns, ← BitVec.toNat_inj]

/-- Settles O35: the class and the available TSS, one lemma each. -/
theorem arClassification : Obligations.ArClassification := fun ar => ⟨classify_eq_ite ar, arAvailableTss_iff ar⟩

end Sys2Proof.Machine

/-! ## The descriptor reads of a far jump, and the code segment it loads (R86 to R91, R96, R117) -/

namespace Sys2Proof.Machine

/-! ### A far jump whose descriptors are found -/

section
variable {s : State} {i : Instr} {os : OpSize} {p : FarPointer}

/-- A far JMP of protected mode with a selector that is not null and lies within its table reads its descriptor
(R86). -/
theorem exec_of_withinTable (hi : farOperand s i = some (os, .ok p)) (hm : s.mode = .prot)
    (hn : selNull p.sel = false) (ht : withinTable s p.sel = true) :
    (∀ e, readDesc s p.sel = .error e → exec i s = finish s (.error e)) ∧
      ∀ d, readDesc s p.sel = .ok d → exec i s = finish s (farByClass s os p.sel p.off d) := by
  rw [exec_far s i os p hi]
  refine ⟨fun e he => ?_, fun d hd => ?_⟩
  · simp [farJump, hm, protectedJump, hn, ht, he]
  · simp [farJump, hm, protectedJump, hn, ht, hd]

theorem exec_of_farFinds {d : Descriptor} (h : farFinds s i os p d) :
    exec i s = finish s (farByClass s os p.sel p.off d) := by
  obtain ⟨hi, hm, hn, ht, hd⟩ := h
  exact (exec_of_withinTable hi hm hn ht).2 d hd

end

section
variable {s : State} {gsel : Selector} {g : Descriptor}

/-- A gate that passes its three checks (R90, R91). -/
theorem gateCheck_eq_none (hcpl : s.cpl ≤ arDpl (descAr g)) (hrpl : selRpl gsel ≤ arDpl (descAr g))
    (hp : arPresent (descAr g) = true) : gateCheck s gsel g = none := by
  simp [gateCheck, BitVec.not_lt.mpr hcpl, BitVec.not_lt.mpr hrpl, hp]

theorem callGate_readDesc_error (os : OpSize) (hg : gateCheck s gsel g = none)
    (hn : selNull (gateSelector g) = false) (ht : withinTable s (gateSelector g) = true) {e : Exception}
    (he : readDesc s (gateSelector g) = .error e) : callGate s os gsel g = .error e := by
  simp [callGate, hg, hn, ht, he]

theorem taskGate_readDesc_error (hg : gateCheck s gsel g = none) (hl : selLocal (gateSelector g) = false)
    (ht : (selIndex (gateSelector g)).toNat * 8 + 7 ≤ s.gdtr.limit.toNat) {e : Exception}
    (he : readDesc s (gateSelector g) = .error e) : taskGate s gsel g = .error e := by
  simp [taskGate, hg, hl, Nat.not_lt.mpr ht, he]

end

/-- Settles O44: `readDesc_cases` for each of the three reads, and the jump raises what the read raises. -/
theorem descriptorPageFaultRaises : Obligations.DescriptorPageFaultRaises := by
  refine ⟨?destination, ?callGateTarget, ?taskGateTss⟩
  case destination =>
    intro i os p s hi hm hn ht
    rcases readDesc_cases s p.sel with ⟨c, hf, he⟩ | ⟨hf, d, hd⟩ <;> rw [hf]
    · exact (exec_of_withinTable hi hm hn ht).1 _ he
    · exact ⟨d, hi, hm, hn, ht, hd⟩
  case callGateTarget =>
    intro i os p s g hfind hk hcpl hrpl hp hn ht
    rcases readDesc_cases s (gateSelector g) with ⟨c, hf, he⟩ | ⟨hf, hd⟩ <;> rw [hf]
    · rw [exec_of_farFinds hfind, farByClass, hk]
      exact congrArg (finish s) (callGate_readDesc_error os (gateCheck_eq_none hcpl hrpl hp) hn ht he)
    · exact hd
  case taskGateTss =>
    intro i os p s g hfind hk hcpl hrpl hp hl ht
    rcases readDesc_cases s (gateSelector g) with ⟨c, hf, he⟩ | ⟨hf, hd⟩ <;> rw [hf]
    · rw [exec_of_farFinds hfind, farByClass, hk]
      exact congrArg (finish s) (taskGate_readDesc_error (gateCheck_eq_none hcpl hrpl hp) hl ht he)
    · exact hd

/-! ### The code segment loaded was checked (R87, R88, R90) -/

/-- A procedure that completes without a task switch loads a code segment that passed every check. -/
def LoadsChecked (s : State) (r : Except Exception State) : Prop :=
  ∀ t, r = .ok t → t.taskSwitches = s.taskSwitches →
    ∃ sel d off, SegmentChecked s sel d off ∧ loadCs s sel d off = .ok t

section
variable (s : State)

theorem loadsChecked_error (e : Exception) : LoadsChecked s (.error e) := fun _ h => nomatch h

/-- A check that raises, before the rest of a procedure, which may rely on it. -/
theorem loadsChecked_check (c : Prop) [Decidable c] (e : Exception) (r : Except Exception State)
    (h : ¬c → LoadsChecked s r) : LoadsChecked s (if c then .error e else r) := by
  split
  · exact loadsChecked_error s e
  · exact h ‹_›

theorem loadsChecked_loadCs (sel : Selector) (d : Descriptor) (off : Word) (hc : SegmentChecked s sel d off) :
    LoadsChecked s (loadCs s sel d off) := fun _ ht _ => ⟨sel, d, off, hc, ht⟩

/-- A task switch is counted, so it does not bear on `LoadsChecked`. -/
theorem loadsChecked_switchToTss (tsel : Selector) (td : Descriptor) : LoadsChecked s (switchToTss s tsel td) :=
  loadsChecked_check s _ _ _ fun _ => loadsChecked_check s _ _ _ fun _ _ ht hn => by
    cases ht
    exact absurd hn (taskSwitches_ne_of_enterTask rfl)

theorem loadsChecked_taskGate (gsel : Selector) (g : Descriptor) : LoadsChecked s (taskGate s gsel g) := by
  unfold taskGate
  split
  · exact loadsChecked_error s _
  · refine loadsChecked_check s _ _ _ fun _ => loadsChecked_check s _ _ _ fun _ => ?_
    split
    · exact loadsChecked_error s _
    · exact loadsChecked_switchToTss s _ _

theorem loadsChecked_taskStateSegment (tsel : Selector) (td : Descriptor) :
    LoadsChecked s (taskStateSegment s tsel td) :=
  loadsChecked_check s _ _ _ fun _ => loadsChecked_check s _ _ _ fun _ => loadsChecked_switchToTss s tsel td

/-! #### Code segments -/

section
variable (sel : Selector) (d : Descriptor) (off : Word) (hn : selNull sel = false) (ht : withinTable s sel = true)
  (hr : readDesc s sel = .ok d)
include hn ht hr

theorem loadsChecked_conforming (hk : classify (descAr d) = .conforming) :
    LoadsChecked s (conforming s sel d off) := by
  obtain ⟨hcode, hconf⟩ := classify_conforming _ hk
  refine loadsChecked_check s _ _ _ fun hdpl => loadsChecked_check s _ _ _ fun hp =>
    loadsChecked_check s _ _ _ fun hl => loadsChecked_loadCs s sel d off
      ⟨hn, ht, hr, hcode, ?_, by simpa using hp, BitVec.not_lt.mp hl⟩
  rw [if_pos hconf]
  exact BitVec.not_lt.mp hdpl

theorem loadsChecked_nonconforming (hk : classify (descAr d) = .nonconforming) :
    LoadsChecked s (nonconforming s sel d off) := by
  obtain ⟨hcode, hconf⟩ := classify_nonconforming _ hk
  refine loadsChecked_check s _ _ _ fun _ => loadsChecked_check s _ _ _ fun hdpl => loadsChecked_check s _ _ _ fun hp =>
    loadsChecked_check s _ _ _ fun hl => loadsChecked_loadCs s sel d off
      ⟨hn, ht, hr, hcode, ?_, by simpa using hp, BitVec.not_lt.mp hl⟩
  rw [if_neg (by simp [hconf])]
  exact not_not.mp hdpl

theorem loadsChecked_callGateTarget : LoadsChecked s (callGateTarget s sel d off) := by
  refine loadsChecked_check s _ _ _ fun hcode => loadsChecked_check s _ _ _ fun hnon =>
    loadsChecked_check s _ _ _ fun hconf => loadsChecked_check s _ _ _ fun hp =>
    loadsChecked_check s _ _ _ fun hl => loadsChecked_loadCs s sel d off
      ⟨hn, ht, hr, by simpa using hcode, ?_, by simpa using hp, BitVec.not_lt.mp hl⟩
  split
  · rename_i hc
    exact BitVec.not_lt.mp fun h => hconf ⟨hc, h⟩
  · rename_i hc
    exact not_not.mp fun h => hnon ⟨by simpa using hc, h⟩

end

/-! #### The far jump -/

theorem loadsChecked_callGate (os : OpSize) (gsel : Selector) (g : Descriptor) :
    LoadsChecked s (callGate s os gsel g) := by
  unfold callGate
  split
  · exact loadsChecked_error s _
  · refine loadsChecked_check s _ _ _ fun hn => loadsChecked_check s _ _ _ fun ht => ?_
    split
    · exact loadsChecked_error s _
    · exact loadsChecked_callGateTarget s _ _ _ (by simpa using hn) (by simpa using ht) ‹_›

theorem loadsChecked_farByClass (os : OpSize) (sel : Selector) (off : Word) (d : Descriptor)
    (hn : selNull sel = false) (ht : withinTable s sel = true) (hr : readDesc s sel = .ok d) :
    LoadsChecked s (farByClass s os sel off d) := by
  unfold farByClass
  cases hk : classify (descAr d) with
  | conforming => exact loadsChecked_conforming s sel d off hn ht hr hk
  | nonconforming => exact loadsChecked_nonconforming s sel d off hn ht hr hk
  | callGate => exact loadsChecked_callGate s os sel d
  | taskGate => exact loadsChecked_taskGate s sel d
  | taskState => exact loadsChecked_taskStateSegment s sel d
  | illegal => exact loadsChecked_error s _

theorem loadsChecked_farJump (hm : s.mode = .prot) (os : OpSize) (sel : Selector) (off : Word) :
    LoadsChecked s (farJump s os sel off) := by
  simp only [farJump, hm, protectedJump]
  refine loadsChecked_check s _ _ _ fun hn => loadsChecked_check s _ _ _ fun ht => ?_
  split
  · exact loadsChecked_error s _
  · exact loadsChecked_farByClass s os sel off _ (by simpa using hn) (by simpa using ht) ‹_›

theorem loadsChecked_farIndirect (hm : s.mode = .prot) (os : OpSize) (r : Except Exception FarPointer) :
    LoadsChecked s (farIndirect s os r) := by
  cases r with
  | error e => exact loadsChecked_error s e
  | ok p => exact loadsChecked_farJump s hm os p.sel p.off

end

/-- Every far form is the `finish` of a far jump through its pointer (R80 to R83). -/
theorem exec_eq_farIndirect (i : Instr) (s : State) (h : isNear i = false) :
    ∃ os r, exec i s = finish s (farIndirect s os r) := by
  cases i with
  | jmpPtr16_16 off sel => exact ⟨.o16, .ok ⟨sel, off.setWidth 32⟩, rfl⟩
  | jmpPtr16_32 off sel => exact ⟨.o32, .ok ⟨sel, off⟩, rfl⟩
  | jmpM16_16 m => exact ⟨.o16, readFar16 s m, rfl⟩
  | jmpM16_32 m => exact ⟨.o32, readFar32 s m, rfl⟩
  | jmpRel8 | jmpRel16 | jmpRel32 | jmpRM16 | jmpRM32 => cases h

/-- The class of the AR byte of a code segment (R44). -/
theorem classify_of_arCode (ar : Byte) (h : arCode ar = true) :
    classify ar = if arConforming ar then .conforming else .nonconforming := by
  have hs : ar.getLsbD 4 = true := (Bool.and_eq_true _ _ ▸ h).1
  rw [classify, if_pos hs, if_pos h]

theorem SegmentChecked.class_and_privilege {s : State} {sel : Selector} {d : Descriptor} {off : Word}
    (h : SegmentChecked s sel d off) :
    classify (descAr d) = .nonconforming ∧ arDpl (descAr d) = s.cpl ∨
      classify (descAr d) = .conforming ∧ arDpl (descAr d) ≤ s.cpl := by
  have hp := h.privilege
  rw [classify_of_arCode _ h.code]
  cases hconf : arConforming (descAr d) <;> simp_all

/-- Settles O46: a far JMP that completes loads a checked segment, and `loadCs` writes CS, EIP and memory only. -/
theorem loadedCodeSegmentWasChecked : Obligations.LoadedCodeSegmentWasChecked := by
  intro i s t h hfar hm _ hf hn
  obtain ⟨os, r, hr⟩ := exec_eq_farIndirect i s hfar
  obtain ⟨sel, d, off, hc, hload⟩ := loadsChecked_farIndirect s hm os r t (eq_ok_of_finish (hr ▸ h) hf) hn
  obtain ⟨hpe, _, hk⟩ := loadCs_keeps s t sel d off hload
  refine ⟨loadCs_cpl hload, (mode_congr hpe hk.vm).trans hm, sel, d, hc.inTable, hc.notNull, hc.read, hc.present,
    hc.class_and_privilege, ?_⟩
  rw [loadCs_eip hload, loadCs_cs hload]
  exact ⟨hc.limit, rfl, rfl, rfl, rfl⟩

end Sys2Proof.Machine

/-! ## Decoding an encoding (R51 to R60) -/

namespace Sys2Proof

open Machine

/-! ### The sizes that the encoder's leading bytes select (R3, R4) -/

theorem operandSize_sizeBytes (d : Bool) (os : OpSize) (ad : Bool) (sg : Option SegReg) (lock : Bool) :
    operandSize d ⟨d != decide (os = .o32), ad, sg, lock⟩ = os := by
  cases d <;> cases os <;> rfl

theorem wideAddress_memBytes (d w op : Bool) (sg : Option SegReg) (lock : Bool) :
    wideAddress d ⟨op, d != w, sg, lock⟩ = w := by
  cases d <;> cases w <;> rfl

/-! ### A memory operand -/

/-- An addressing form of either address size is read back from its encoding (R4, R58, R59). -/
theorem decodeAddr_encodeAddr (a : Addr) (rest : List Byte) (h : a.wellFormed = true) :
    decodeAddr a.wide (encodeAddr a).mod (encodeAddr a).rm ((encodeAddr a).tail ++ rest) = some (a, rest) := by
  cases a with
  | a16 a => exact congrArg (Option.map _) (decodeAddr16_encodeAddr16 a rest h)
  | a32 a => exact congrArg (Option.map _) (decodeAddr32_encodeAddr32 a rest h)

/-- A memory operand is read back after its own 67H and override, under any `reg` field of its ModR/M byte (R58 to R60). -/
theorem decodeMemForm_encodeAddr (d op lock : Bool) (rest : List Byte) (m : MemOperand) (reg : BitVec 3)
    (form : MemOperand → Instr) (h : m.addr.wellFormed = true) :
    decodeMemForm d ⟨op, d != m.addr.wide, m.override, lock⟩
        (packFields (encodeAddr m.addr).mod reg (encodeAddr m.addr).rm) ((encodeAddr m.addr).tail ++ rest) form =
      accept ⟨op, d != m.addr.wide, m.override, lock⟩ (form m) rest := by
  simp [decodeMemForm, decodeMem, wideAddress_memBytes, decodeAddr_encodeAddr m.addr rest h]

/-! ### A whole instruction, after F0H or not (R64) -/

section
variable (d lock : Bool) (rest : List Byte)

/-- The decoder reads the encoder's 66H, then the opcode. -/
theorem decodeFrom_sizeBytes_opcode (os : OpSize) (op : Byte) (bs : List Byte)
    (hp : op ∉ [0x66#8, 0x67#8, 0xF0#8, 0xF2#8, 0xF3#8]) (hg : op ∉ overrideBytes) :
    decodeFrom d ⟨false, false, none, lock⟩ (sizeBytes d os ++ op :: bs) =
      decodeOpcode d ⟨d != decide (os = .o32), false, none, lock⟩ op bs := by
  rw [decodeFrom_sizeBytes, decodeFrom_opcode d _ op bs hp hg]

/-- The decoder reads the leading bytes of a memory operand, then its opcode FF. -/
theorem decodeFrom_memBytes_group (os : OpSize) (m : MemOperand) (reg : BitVec 3) :
    decodeFrom d ⟨false, false, none, lock⟩ (sizeBytes d os ++ memBytes d m ++ encodeMem reg m ++ rest) =
      decodeGroup d ⟨d != decide (os = .o32), d != m.addr.wide, m.override, lock⟩
        (packFields (encodeAddr m.addr).mod reg (encodeAddr m.addr).rm) ((encodeAddr m.addr).tail ++ rest) := by
  rw [List.append_assoc, List.append_assoc, decodeFrom_sizeBytes, decodeFrom_memBytes]
  exact decodeFrom_opcode d _ 0xFF#8 _ (by decide) (by decide)

/-- `FF /4` is read back, with a register or a memory operand (R56, R57). -/
theorem decodeFrom_encodeRegMem (os : OpSize) (rm : RegMem) (h : rm.wellFormed = true) :
    decodeFrom d ⟨false, false, none, lock⟩ (encodeRegMem d os rm ++ rest) =
      accept ⟨false, false, none, lock⟩ (nearIndirectForm os rm) rest := by
  cases rm with
  | reg r =>
    rw [encodeRegMem, List.append_assoc]
    refine (decodeFrom_sizeBytes_opcode d lock os 0xFF#8 _ (by decide) (by decide)).trans ?_
    simp [decodeOpcode, decodeGroup, decodeImmediate, needsMemory, operandSize_sizeBytes, accept]
  | mem m =>
    rw [encodeRegMem, decodeFrom_memBytes_group, decodeGroup, if_pos (field53_packFields _ _ _),
      if_neg (by rw [field76_packFields]; exact encodeAddr_mod m.addr), decodeMemForm_encodeAddr _ _ _ _ _ _ _ h,
      operandSize_sizeBytes]
    rfl

/-- `FF /5` is read back (R56). -/
theorem decodeFrom_encodeFarMem (os : OpSize) (m : MemOperand) (h : m.addr.wellFormed = true) :
    decodeFrom d ⟨false, false, none, lock⟩ (sizeBytes d os ++ memBytes d m ++ encodeMem 0b101#3 m ++ rest) =
      accept ⟨false, false, none, lock⟩ (farIndirectForm os m) rest := by
  rw [decodeFrom_memBytes_group, decodeGroup, if_neg (by simp), if_pos (field53_packFields _ _ _),
    if_neg (by rw [field76_packFields]; exact encodeAddr_mod m.addr), decodeMemForm_encodeAddr _ _ _ _ _ _ _ h,
    operandSize_sizeBytes]
  rfl

theorem not_leading_of_immediateOpcode : ∀ op ∈ [0xEB#8, 0xE9#8, 0xEA#8],
    op ∉ [0x66#8, 0x67#8, 0xF0#8, 0xF2#8, 0xF3#8] ∧ op ∉ overrideBytes := by
  decide

/-- A form with an immediate field is read back once its field is read, under its own operand size (R53 to R55). -/
theorem decodeFrom_encodeImmediate {α : Type} (os : OpSize) (op : Byte) (field : List Byte) (v : α) (form : α → Instr)
    (hop : op ∈ [0xEB#8, 0xE9#8, 0xEA#8])
    (hd : ∀ p, operandSize d p = os → decodeOpcode d p op (field ++ rest) = decodeImmediate p (some (v, rest)) form) :
    decodeFrom d ⟨false, false, none, lock⟩ (sizeBytes d os ++ op :: field ++ rest) =
      accept ⟨false, false, none, lock⟩ (form v) rest := by
  rw [List.append_assoc]
  obtain ⟨hp, hg⟩ := not_leading_of_immediateOpcode op hop
  exact (decodeFrom_sizeBytes_opcode d lock os op _ hp hg).trans (hd _ (operandSize_sizeBytes d os _ _ _))

/-- A well-formed instruction is read back from its encoding; after F0H it is an invalid opcode (R51 to R60, R64). -/
theorem decodeFrom_encode (i : Instr) (h : i.wellFormed = true) :
    decodeFrom d ⟨false, false, none, lock⟩ (encode d i ++ rest) = accept ⟨false, false, none, lock⟩ i rest := by
  cases i with
  | jmpRel8 os rel =>
    exact decodeFrom_encodeImmediate d lock rest os 0xEB#8 [rel] rel (.jmpRel8 os) (by decide) fun p hp => by
      simp [decodeOpcode, hp]
  | jmpRel16 rel =>
    exact decodeFrom_encodeImmediate d lock rest .o16 0xE9#8 (bytes16 rel) rel .jmpRel16 (by decide) fun p hp => by
      simp [decodeOpcode, hp]
  | jmpRel32 rel =>
    exact decodeFrom_encodeImmediate d lock rest .o32 0xE9#8 (bytes32 rel) rel .jmpRel32 (by decide) fun p hp => by
      simp [decodeOpcode, hp]
  | jmpPtr16_16 off sel =>
    exact decodeFrom_encodeImmediate d lock rest .o16 0xEA#8 (bytes16 off ++ bytes16 sel) (off, sel)
      (fun v => .jmpPtr16_16 v.1 v.2) (by decide) fun p hp => by simp [decodeOpcode, hp, takeFar16]
  | jmpPtr16_32 off sel =>
    exact decodeFrom_encodeImmediate d lock rest .o32 0xEA#8 (bytes32 off ++ bytes16 sel) (off, sel)
      (fun v => .jmpPtr16_32 v.1 v.2) (by decide) fun p hp => by simp [decodeOpcode, hp, takeFar32]
  | jmpRM16 rm => exact decodeFrom_encodeRegMem d lock rest .o16 rm h
  | jmpRM32 rm => exact decodeFrom_encodeRegMem d lock rest .o32 rm h
  | jmpM16_16 m => exact decodeFrom_encodeFarMem d lock rest .o16 m h
  | jmpM16_32 m => exact decodeFrom_encodeFarMem d lock rest .o32 m h

end

/-- Settles O1: `decodeFrom_encode` without F0H. -/
theorem encodedInstructionDecodesBack : Obligations.EncodedInstructionDecodesBack := fun d i rest h =>
  decodeFrom_encode d false rest i h

end Sys2Proof
/-! ## What a decoded instruction was read from (R51, R61, R62) -/

namespace Sys2Proof

open Machine

/-! ### One leading byte -/

/-- The byte `b` before the opcode takes the decoder from the prefixes `p` to `p'` (R62, R64). -/
inductive Prefixes.Reads : Prefixes → Byte → Prefixes → Prop
  | opSize (ad : Bool) (sg : Option SegReg) (lock : Bool) : Reads ⟨false, ad, sg, lock⟩ 0x66#8 ⟨true, ad, sg, lock⟩
  | addrSize (op : Bool) (sg : Option SegReg) (lock : Bool) : Reads ⟨op, false, sg, lock⟩ 0x67#8 ⟨op, true, sg, lock⟩
  | lock (op ad : Bool) (sg : Option SegReg) : Reads ⟨op, ad, sg, false⟩ 0xF0#8 ⟨op, ad, sg, true⟩
  | seg (op ad lock : Bool) (g : SegReg) : Reads ⟨op, ad, none, lock⟩ (overrideByte g) ⟨op, ad, some g, lock⟩

theorem exists_eq_overrideByte : ∀ b ∈ overrideBytes, ∃ g, b = overrideByte g := by
  simp only [overrideBytes, List.forall_mem_cons]
  exact ⟨⟨.es, rfl⟩, ⟨.cs, rfl⟩, ⟨.ss, rfl⟩, ⟨.ds, rfl⟩, ⟨.fs, rfl⟩, ⟨.gs, rfl⟩, nofun⟩

theorem decodeFrom_of_reads {d : Bool} {p p' : Prefixes} {b : Byte} (h : p.Reads b p') (bs : List Byte) :
    decodeFrom d p (b :: bs) = decodeFrom d p' bs := by
  cases h with
  | opSize | addrSize | lock => simp [decodeFrom]
  | seg op ad lock g => cases g <;> simp [decodeFrom, overrideByte, overrideOf]

/-- The byte at the head of a decoded instruction is read as a leading byte, or stands where the opcode does. -/
theorem reads_or_opcode {d : Bool} {p : Prefixes} {b : Byte} {bs rest : List Byte} {i : Instr}
    (h : decodeFrom d p (b :: bs) = .instr i rest) :
    (∃ p', p.Reads b p' ∧ decodeFrom d p' bs = .instr i rest) ∨
      (b ∉ [0x66#8, 0x67#8, 0xF0#8, 0xF2#8, 0xF3#8] ∧ b ∉ overrideBytes) ∧ decodeOpcode d p b bs = .instr i rest := by
  obtain ⟨op, ad, sg, lock⟩ := p
  by_cases hp : b ∈ [0x66#8, 0x67#8, 0xF0#8, 0xF2#8, 0xF3#8]
  · refine .inl ?_
    simp only [List.mem_cons, List.not_mem_nil, or_false] at hp
    rcases hp with rfl | rfl | rfl | rfl | rfl
    · cases op with
      | false => exact ⟨_, .opSize ad sg lock, h⟩
      | true => cases h
    · cases ad with
      | false => exact ⟨_, .addrSize op sg lock, h⟩
      | true => cases h
    · cases lock with
      | false => exact ⟨_, .lock op ad sg, h⟩
      | true => cases h
    · cases h
    · cases h
  by_cases hg : b ∈ overrideBytes
  · obtain ⟨g, rfl⟩ := exists_eq_overrideByte b hg
    cases sg with
    | none => exact .inl ⟨_, .seg op ad lock g, decodeFrom_of_reads (.seg op ad lock g) bs ▸ h⟩
    | some g' => cases g <;> cases h
  · exact .inr ⟨⟨hp, hg⟩, decodeFrom_opcode d _ b bs hp hg ▸ h⟩

/-- The admitted bytes before the opcode, F0H aside (R62). -/
def admittedBytes : List Byte := [0x66#8, 0x67#8, 0x26#8, 0x2E#8, 0x36#8, 0x3E#8, 0x64#8, 0x65#8]

theorem leading_of_admitted : ∀ b ∈ admittedBytes, b ∈ [0x66#8, 0x67#8, 0xF0#8, 0xF2#8, 0xF3#8] ∨ b ∈ overrideBytes := by
  decide

/-- An admitted byte at the head of a decoded instruction is read as a leading byte. -/
theorem reads_of_admitted {d : Bool} {p : Prefixes} {b : Byte} {bs rest : List Byte} {i : Instr}
    (hb : b ∈ admittedBytes) (h : decodeFrom d p (b :: bs) = .instr i rest) :
    ∃ p', p.Reads b p' ∧ decodeFrom d p' bs = .instr i rest := by
  obtain h | ⟨⟨hp, hg⟩, _⟩ := reads_or_opcode h
  · exact h
  · exact absurd (leading_of_admitted b hb) (not_or_intro hp hg)

/-! ### The order of the leading bytes (R62, D20) -/

/-- Two leading bytes are read in either order. -/
theorem Prefixes.Reads.swap {p p' p'' : Prefixes} {a b : Byte} (h : p.Reads a p') (h' : p'.Reads b p'') :
    ∃ q, p.Reads b q ∧ q.Reads a p'' := by
  cases h <;> cases h' <;> exact ⟨_, by constructor, by constructor⟩

theorem decodeFrom_perm {d : Bool} {bs rest : List Byte} {i : Instr} {lead lead' : List Byte} (hperm : lead.Perm lead')
    (hl : ∀ b ∈ lead, b ∈ admittedBytes) (p : Prefixes) (h : decodeFrom d p (lead ++ bs) = .instr i rest) :
    decodeFrom d p (lead' ++ bs) = .instr i rest := by
  induction hperm generalizing p with
  | nil => exact h
  | cons b _ ih =>
    obtain ⟨hb, hl⟩ := List.forall_mem_cons.mp hl
    obtain ⟨p', hr, h'⟩ := reads_of_admitted hb h
    exact (decodeFrom_of_reads hr _).trans (ih hl p' h')
  | swap a b l =>
    obtain ⟨hb, hl⟩ := List.forall_mem_cons.mp hl
    obtain ⟨ha, _⟩ := List.forall_mem_cons.mp hl
    obtain ⟨p', hr, h'⟩ := reads_of_admitted hb h
    obtain ⟨p'', hr', h''⟩ := reads_of_admitted ha h'
    obtain ⟨q, hq, hq'⟩ := hr.swap hr'
    exact (decodeFrom_of_reads hq _).trans ((decodeFrom_of_reads hq' _).trans h'')
  | trans h₁ _ ih₁ ih₂ => exact ih₂ (fun b hb => hl b (h₁.mem_iff.mpr hb)) p (ih₁ hl p h)

/-- Settles O3: `decodeFrom_perm` from no prefixes. -/
theorem orderOfLeadingBytesIsFree : Obligations.OrderOfLeadingBytesIsFree := fun _ _ _ _ _ _ hl hperm h =>
  decodeFrom_perm hperm hl .empty h

/-! ### F0H before the opcode (R64) -/

/-- What is decoded once F0H stands before the opcode: an invalid opcode for an instruction. -/
def Decoded.locked : Decoded → Decoded
  | .instr _ _ => .invalidOpcode
  | .incomplete => .incomplete
  | .invalidOpcode => .invalidOpcode
  | .refused r => .refused r

theorem Decoded.locked_ne_instr (r : Decoded) (i : Instr) (rest : List Byte) : r.locked ≠ .instr i rest := by
  cases r <;> nofun

section
variable (d op ad : Bool) (sg : Option SegReg)

theorem decodeImmediate_lock {α : Type} (field : Option (α × List Byte)) (form : α → Instr) :
    decodeImmediate ⟨op, ad, sg, true⟩ field form = (decodeImmediate ⟨op, ad, sg, false⟩ field form).locked := by
  simp only [decodeImmediate, apply_ite Decoded.locked]
  cases field <;> rfl

theorem decodeMemForm_lock (m : Byte) (bs : List Byte) (form : MemOperand → Instr) :
    decodeMemForm d ⟨op, ad, sg, true⟩ m bs form = (decodeMemForm d ⟨op, ad, sg, false⟩ m bs form).locked := by
  have hm : decodeMem d ⟨op, ad, sg, true⟩ m bs = decodeMem d ⟨op, ad, sg, false⟩ m bs := rfl
  simp only [decodeMemForm, hm]
  cases decodeMem d ⟨op, ad, sg, false⟩ m bs <;> rfl

theorem decodeGroup_lock (m : Byte) (bs : List Byte) :
    decodeGroup d ⟨op, ad, sg, true⟩ m bs = (decodeGroup d ⟨op, ad, sg, false⟩ m bs).locked := by
  simp only [decodeGroup, decodeImmediate_lock, decodeMemForm_lock, apply_ite Decoded.locked]
  rfl

theorem decodeOpcode_lock (b : Byte) (bs : List Byte) :
    decodeOpcode d ⟨op, ad, sg, true⟩ b bs = (decodeOpcode d ⟨op, ad, sg, false⟩ b bs).locked := by
  have hs : operandSize d ⟨op, ad, sg, true⟩ = operandSize d ⟨op, ad, sg, false⟩ := rfl
  simp only [decodeOpcode, hs, decodeImmediate_lock, apply_ite Decoded.locked]
  cases operandSize d ⟨op, ad, sg, false⟩ <;> cases bs <;> simp only [decodeGroup_lock] <;> rfl

end

/-- Bytes that are a JMP have read no F0H, and are an invalid opcode after one (R64; log entry 10). -/
theorem decodeFrom_lock {d : Bool} {p : Prefixes} {bs rest : List Byte} {i : Instr}
    (h : decodeFrom d p bs = .instr i rest) :
    p.lock = false ∧ decodeFrom d { p with lock := true } bs = .invalidOpcode := by
  induction bs generalizing p with
  | nil => cases h
  | cons b bs ih =>
    obtain ⟨p', hr, h'⟩ | ⟨⟨hp, hg⟩, h'⟩ := reads_or_opcode h
    · obtain ⟨hl, hi⟩ := ih h'
      cases hr with
      | opSize ad sg lock => exact ⟨hl, hi⟩
      | addrSize op sg lock => exact ⟨hl, hi⟩
      | lock op ad sg => cases hl
      | seg op ad lock g => exact ⟨hl, (decodeFrom_of_reads (.seg op ad true g) bs).trans hi⟩
    · obtain ⟨op, ad, sg, lock⟩ := p
      cases lock with
      | true => exact absurd (decodeOpcode_lock d op ad sg b bs ▸ h') (Decoded.locked_ne_instr _ i rest)
      | false => exact ⟨rfl, by rw [decodeFrom_opcode d _ b bs hp hg, decodeOpcode_lock, h']; rfl⟩

/-- F0H after any admitted bytes before the opcode of a JMP makes it an invalid opcode (R64; log entry 10). -/
theorem decodeFrom_lock_after {d : Bool} {p : Prefixes} {lead bs rest : List Byte} {i : Instr}
    (hl : ∀ b ∈ lead, b ∈ admittedBytes) (h : decodeFrom d p (lead ++ bs) = .instr i rest) :
    decodeFrom d p (lead ++ 0xF0#8 :: bs) = .invalidOpcode := by
  induction lead generalizing p with
  | nil =>
    obtain ⟨op, ad, sg, lock⟩ := p
    obtain ⟨rfl, hi⟩ := decodeFrom_lock h
    exact hi
  | cons b lead ih =>
    obtain ⟨hb, hl⟩ := List.forall_mem_cons.mp hl
    obtain ⟨p', hr, h'⟩ := reads_of_admitted hb h
    exact (decodeFrom_of_reads hr _).trans (ih hl h')

end Sys2Proof

namespace Sys2Proof.Machine

/-- Fetched bytes that decode to an invalid opcode raise Interrupt 6, and the step changes nothing else (R64, R126). -/
theorem step_of_invalid_bytes (s : State) (hr : s.running) (bs : List Byte) (hf : fetches s bs)
    (h : decode s.cs.d bs = .invalidOpcode) : step s = .next (s.recorded 6 none) :=
  step_of_raised s hr .invalidOpcode ((fetchInstr_of_decode s bs hf).2.1 h)

/-- `FF /5` with a register operand is an invalid opcode after any leading bytes (R64; log entry 11). -/
theorem decode_farRegisterForm (d : Bool) (lead rest : List Byte) (hl : leading lead) (m : Byte) (h5 : field53 m = 5#3)
    (h3 : field76 m = 3#2) : decode d (lead ++ 0xFF#8 :: m :: rest) = .invalidOpcode := by
  rw [decode_group d lead rest hl, decodeGroup, if_neg (by rw [h5]; decide), if_pos h5, if_pos h3]

/-- Settles O12: `step_of_invalid_bytes`, and `FF /5` with a register operand is an invalid opcode. -/
theorem farRegisterFormRaisesInterrupt6 : Obligations.FarRegisterFormRaisesInterrupt6 := fun s hr =>
  ⟨step_of_invalid_bytes s hr, fun lead m hl hf h5 h3 =>
    step_of_invalid_bytes s hr _ hf (decode_farRegisterForm s.cs.d lead [] hl m h5 h3)⟩

/-- Settles O4: `decodeFrom_encode` after F0H and `decodeFrom_lock_after`; the step takes the exception. -/
theorem lockedJumpIsInvalid : Obligations.LockedJumpIsInvalid := by
  refine ⟨fun d i rest h => decodeFrom_encode d true rest i h, fun d lead bs rest i hl h => ?_⟩
  have hinv : decode d (lead ++ 0xF0#8 :: bs) = .invalidOpcode := decodeFrom_lock_after hl h
  exact ⟨hinv, fun s hr hd hf => step_of_invalid_bytes s hr _ hf (hd ▸ hinv)⟩

end Sys2Proof.Machine

/-! ## Well-formedness and length of what is decoded (R52, R58, R59, R61) -/

namespace Sys2Proof

open Machine

/-! ### Addressing forms (R58, R59) -/

theorem take8_some_length {bs rest : List Byte} {v : Byte} (h : take8 bs = some (v, rest)) :
    bs.length = 1 + rest.length := by
  cases bs with
  | nil => cases h
  | cons b bs => cases h; exact Nat.add_comm _ _

theorem base16Of_ne_bp : ∀ rm : BitVec 3, rm ≠ 0b110#3 → base16Of rm ≠ .bp := by decide

theorem regOf_eq_esp : ∀ rm : BitVec 3, regOf rm = .esp → rm = 0b100#3 := by decide

theorem regOf_eq_ebp : ∀ rm : BitVec 3, regOf rm = .ebp → rm = 0b101#3 := by decide

theorem indexWellFormed_indexOf : ∀ n : BitVec 3, indexWellFormed (indexOf n) = true := by decide

theorem decodeAddr16_some {mod : BitVec 2} {rm : BitVec 3} {bs rest : List Byte} {a : Addr16}
    (h : decodeAddr16 mod rm bs = some (a, rest)) :
    a.wellFormed = true ∧ bs.length = addrLength (.a16 a) + rest.length := by
  unfold decodeAddr16 at h
  split_ifs at h with h0 h6 h1
  · obtain ⟨⟨v, r⟩, hv, ⟨⟩⟩ := Option.map_eq_some_iff.mp h
    exact ⟨rfl, by rw [take16_some_length hv, Nat.add_comm]; rfl⟩
  · cases h
    exact ⟨by simp [Addr16.wellFormed, base16Of_ne_bp rm h6], (Nat.zero_add _).symm⟩
  · obtain ⟨⟨v, r⟩, hv, ⟨⟩⟩ := Option.map_eq_some_iff.mp h
    exact ⟨by simp [Addr16.wellFormed], take8_some_length hv⟩
  · obtain ⟨⟨v, r⟩, hv, ⟨⟩⟩ := Option.map_eq_some_iff.mp h
    exact ⟨by simp [Addr16.wellFormed], by rw [take16_some_length hv, Nat.add_comm]; rfl⟩

/-- A displacement is none exactly under `mod = 00`, and its bytes are counted as those of any base register. -/
theorem decodeDisp32_some {mod : BitVec 2} {bs rest : List Byte} {disp : Disp32}
    (h : decodeDisp32 mod bs = some (disp, rest)) :
    (disp = .none → mod = 0b00#2) ∧ ∀ b, bs.length = addrLength (.a32 (.based b disp)) + rest.length := by
  unfold decodeDisp32 at h
  split_ifs at h with h0 h1
  · cases h
    exact ⟨fun _ => h0, fun _ => (Nat.zero_add _).symm⟩
  · obtain ⟨⟨v, r⟩, hv, ⟨⟩⟩ := Option.map_eq_some_iff.mp h
    exact ⟨nofun, fun _ => take8_some_length hv⟩
  · obtain ⟨⟨v, r⟩, hv, ⟨⟩⟩ := Option.map_eq_some_iff.mp h
    exact ⟨nofun, fun _ => by rw [take32_some_length hv, Nat.add_comm]; rfl⟩

theorem addrLength_sib (scale : BitVec 2) (index : Option Reg) (b : Reg) (disp : Disp32) :
    addrLength (.a32 (.sib scale index b disp)) = addrLength (.a32 (.based b disp)) + 1 := by
  cases disp <;> rfl

theorem decodeSib_some {mod : BitVec 2} {s : Byte} {bs rest : List Byte} {a : Addr32}
    (h : decodeSib mod s bs = some (a, rest)) :
    a.wellFormed = true ∧ bs.length + 1 = addrLength (.a32 a) + rest.length := by
  unfold decodeSib at h
  have hindex := indexWellFormed_indexOf (field53 s)
  split_ifs at h with hbase
  · obtain ⟨⟨v, r⟩, hv, ⟨⟩⟩ := Option.map_eq_some_iff.mp h
    exact ⟨hindex, by simp only [addrLength, take32_some_length hv]; omega⟩
  · obtain ⟨⟨disp, r⟩, hv, ⟨⟩⟩ := Option.map_eq_some_iff.mp h
    obtain ⟨hnone, hlen⟩ := decodeDisp32_some hv
    refine ⟨?_, by simp only [addrLength_sib, hlen (regOf (field20 s))]; omega⟩
    simp only [Addr32.wellFormed, hindex, Bool.true_and, Bool.not_eq_true', Bool.and_eq_false_imp, decide_eq_true_eq,
      decide_eq_false_iff_not]
    exact fun hebp hn => hbase ⟨regOf_eq_ebp _ hebp, hnone hn⟩

theorem decodeAddr32_some {mod : BitVec 2} {rm : BitVec 3} {bs rest : List Byte} {a : Addr32}
    (h : decodeAddr32 mod rm bs = some (a, rest)) :
    a.wellFormed = true ∧ bs.length = addrLength (.a32 a) + rest.length := by
  unfold decodeAddr32 at h
  split_ifs at h with hsib hbase
  · cases bs with
    | nil => cases h
    | cons s bs => exact decodeSib_some h
  · obtain ⟨⟨v, r⟩, hv, ⟨⟩⟩ := Option.map_eq_some_iff.mp h
    exact ⟨rfl, by rw [take32_some_length hv, Nat.add_comm]; rfl⟩
  · obtain ⟨⟨disp, r⟩, hv, ⟨⟩⟩ := Option.map_eq_some_iff.mp h
    obtain ⟨hnone, hlen⟩ := decodeDisp32_some hv
    refine ⟨?_, hlen _⟩
    simp only [Addr32.wellFormed, Bool.and_eq_true, Bool.not_eq_true', decide_eq_false_iff_not, Bool.and_eq_false_imp,
      decide_eq_true_eq]
    exact ⟨fun hesp => hsib (regOf_eq_esp rm hesp), fun hebp hn => hbase ⟨regOf_eq_ebp rm hebp, hnone hn⟩⟩

theorem decodeAddr_some {wide : Bool} {mod : BitVec 2} {rm : BitVec 3} {bs rest : List Byte} {a : Addr}
    (h : decodeAddr wide mod rm bs = some (a, rest)) :
    a.wide = wide ∧ a.wellFormed = true ∧ bs.length = addrLength a + rest.length := by
  unfold decodeAddr at h
  split_ifs at h with hw
  · obtain ⟨⟨a, r⟩, ha, ⟨⟩⟩ := Option.map_eq_some_iff.mp h
    exact ⟨hw.symm, decodeAddr32_some ha⟩
  · obtain ⟨⟨a, r⟩, ha, ⟨⟩⟩ := Option.map_eq_some_iff.mp h
    exact ⟨(Bool.eq_false_of_not_eq_true hw).symm, decodeAddr16_some ha⟩

/-! ### The prefixes are part of the length (R61) -/

/-- How many bytes before the opcode have been read. -/
def Prefixes.count (p : Prefixes) : Nat := p.opSize.toNat + p.addrSize.toNat + p.seg.isSome.toNat + p.lock.toNat

theorem Prefixes.Reads.count {p p' : Prefixes} {b : Byte} (h : p.Reads b p') : p'.count = p.count + 1 := by
  cases h <;> simp [Prefixes.count] <;> omega

theorem sizeLength_of_operandSize {d : Bool} {p : Prefixes} {os : OpSize} (h : operandSize d p = os) :
    sizeLength d os = p.opSize.toNat := by
  subst h
  obtain ⟨op, ad, sg, lock⟩ := p
  cases d <;> cases op <;> rfl

theorem decodeMem_some {d : Bool} {p : Prefixes} {m : Byte} {bs rest : List Byte} {mem : MemOperand}
    (h : decodeMem d p m bs = some (mem, rest)) :
    mem.addr.wellFormed = true ∧
      bs.length + 2 + p.addrSize.toNat + p.seg.isSome.toNat = memLength d mem + rest.length := by
  obtain ⟨⟨a, r⟩, ha, ⟨⟩⟩ := Option.map_eq_some_iff.mp h
  obtain ⟨hwide, hwf, hlen⟩ := decodeAddr_some ha
  refine ⟨hwf, ?_⟩
  have hsize : (if d = a.wide then 0 else 1) = p.addrSize.toNat := by
    rw [hwide, wideAddress]
    cases d <;> cases p.addrSize <;> rfl
  have hseg : (if p.seg.isSome then 1 else 0) = p.seg.isSome.toNat := by cases p.seg <;> rfl
  simp only [memLength, hsize, hseg, hlen]
  omega

/-! ### Instructions -/

/-- `i` is well-formed, and its length and the bytes left over are the prefixes and the `n` bytes it was read from. -/
def MadeFrom (d : Bool) (p : Prefixes) (n : Nat) (i : Instr) (rest : List Byte) : Prop :=
  i.wellFormed = true ∧ n + p.count = instrLength d i + rest.length

theorem accept_instr {p : Prefixes} {i j : Instr} {rest r : List Byte} (h : accept p j r = .instr i rest) :
    p.lock = false ∧ j = i ∧ r = rest := by
  unfold accept at h
  split_ifs at h with hl
  cases h
  exact ⟨Bool.eq_false_of_not_eq_true hl, rfl, rfl⟩

/-- A form with an immediate field was read after at most 66H, and from its field. -/
theorem decodeImmediate_instr {α : Type} {p : Prefixes} {field : Option (α × List Byte)} {form : α → Instr} {i : Instr}
    {rest : List Byte} (h : decodeImmediate p field form = .instr i rest) :
    p.count = p.opSize.toNat ∧ ∃ v, field = some (v, rest) ∧ i = form v := by
  unfold decodeImmediate at h
  split_ifs at h with hn
  cases field with
  | none => cases h
  | some v =>
    obtain ⟨hl, rfl, rfl⟩ := accept_instr h
    simp only [needsMemory, Bool.or_eq_true, not_or, Bool.not_eq_true] at hn
    obtain ⟨had, hsg⟩ := hn
    exact ⟨by simp only [Prefixes.count, hl, had, hsg]; rfl, v.1, rfl, rfl⟩

theorem decodeMemForm_instr {d : Bool} {p : Prefixes} {m : Byte} {bs rest : List Byte} {form : MemOperand → Instr}
    {i : Instr} (h : decodeMemForm d p m bs form = .instr i rest) :
    ∃ mem : MemOperand, mem.addr.wellFormed = true ∧ i = form mem ∧
      bs.length + 2 + p.count = p.opSize.toNat + memLength d mem + rest.length := by
  unfold decodeMemForm at h
  split at h
  · cases h
  next mem r hm =>
    obtain ⟨hl, rfl, rfl⟩ := accept_instr h
    obtain ⟨hwf, hlen⟩ := decodeMem_some hm
    refine ⟨mem, hwf, rfl, ?_⟩
    simp only [Prefixes.count, hl, Bool.toNat_false]
    omega

theorem nearIndirectForm_wellFormed (os : OpSize) (rm : RegMem) :
    (nearIndirectForm os rm).wellFormed = rm.wellFormed := by
  cases os <;> rfl

theorem farIndirectForm_wellFormed (os : OpSize) (m : MemOperand) :
    (farIndirectForm os m).wellFormed = m.addr.wellFormed := by
  cases os <;> rfl

theorem instrLength_nearIndirectForm (d : Bool) (os : OpSize) (rm : RegMem) :
    instrLength d (nearIndirectForm os rm) = sizeLength d os + regMemLength d rm := by
  cases os <;> rfl

theorem instrLength_farIndirectForm (d : Bool) (os : OpSize) (m : MemOperand) :
    instrLength d (farIndirectForm os m) = sizeLength d os + memLength d m := by
  cases os <;> rfl

section
variable {d : Bool} {p : Prefixes} {bs rest : List Byte} {i : Instr}

theorem decodeGroup_instr {m : Byte} (h : decodeGroup d p m bs = .instr i rest) :
    MadeFrom d p (bs.length + 2) i rest := by
  have hsize : sizeLength d (operandSize d p) = p.opSize.toNat := sizeLength_of_operandSize rfl
  unfold decodeGroup at h
  split_ifs at h with h4 h3 h5 h3
  · obtain ⟨hc, r, ⟨⟩, rfl⟩ := decodeImmediate_instr h
    refine ⟨nearIndirectForm_wellFormed _ _, ?_⟩
    rw [instrLength_nearIndirectForm, hsize, regMemLength, hc]
    omega
  · obtain ⟨mem, hwf, rfl, hlen⟩ := decodeMemForm_instr h
    refine ⟨(nearIndirectForm_wellFormed _ _).trans hwf, ?_⟩
    rw [instrLength_nearIndirectForm, hsize, regMemLength, hlen]
  · obtain ⟨mem, hwf, rfl, hlen⟩ := decodeMemForm_instr h
    refine ⟨(farIndirectForm_wellFormed _ _).trans hwf, ?_⟩
    rw [instrLength_farIndirectForm, hsize, hlen]

theorem takeFar16_some_length {v : BitVec 16 × Selector} (h : takeFar16 bs = some (v, rest)) :
    bs.length = rest.length + 4 := by
  obtain ⟨o, ho, hs⟩ := Option.bind_eq_some_iff.mp h
  obtain ⟨sel, hsel, ⟨⟩⟩ := Option.map_eq_some_iff.mp hs
  rw [take16_some_length ho, take16_some_length hsel]

theorem takeFar32_some_length {v : BitVec 32 × Selector} (h : takeFar32 bs = some (v, rest)) :
    bs.length = rest.length + 6 := by
  obtain ⟨o, ho, hs⟩ := Option.bind_eq_some_iff.mp h
  obtain ⟨sel, hsel, ⟨⟩⟩ := Option.map_eq_some_iff.mp hs
  rw [take32_some_length ho, take16_some_length hsel]

/-- An immediate form of operand size `os` whose field has `n` bytes: 66H, the opcode and the field (R61). -/
theorem madeFrom_of_immediate {α : Type} {field : Option (α × List Byte)} {form : α → Instr} {os : OpSize} {n : Nat}
    (hos : operandSize d p = os) (hwf : ∀ v, (form v).wellFormed = true)
    (hform : ∀ v, instrLength d (form v) = sizeLength d os + (n + 1))
    (hfield : ∀ v, field = some (v, rest) → bs.length = rest.length + n)
    (h : decodeImmediate p field form = .instr i rest) : MadeFrom d p (bs.length + 1) i rest := by
  obtain ⟨hc, v, hv, rfl⟩ := decodeImmediate_instr h
  refine ⟨hwf v, ?_⟩
  rw [hform, sizeLength_of_operandSize hos, hc, hfield v hv]
  omega

theorem decodeOpcode_instr {op : Byte} (h : decodeOpcode d p op bs = .instr i rest) :
    MadeFrom d p (bs.length + 1) i rest := by
  unfold decodeOpcode at h
  split_ifs at h with hEB hE9 hEA hFF
  · exact madeFrom_of_immediate rfl (fun _ => rfl) (fun _ => rfl)
      (fun _ hv => (take8_some_length hv).trans (Nat.add_comm _ _)) h
  · split at h
    next hos => exact madeFrom_of_immediate hos (fun _ => rfl) (fun _ => rfl) (fun _ => take16_some_length) h
    next hos => exact madeFrom_of_immediate hos (fun _ => rfl) (fun _ => rfl) (fun _ => take32_some_length) h
  · split at h
    next hos => exact madeFrom_of_immediate hos (fun _ => rfl) (fun _ => rfl) (fun _ => takeFar16_some_length) h
    next hos => exact madeFrom_of_immediate hos (fun _ => rfl) (fun _ => rfl) (fun _ => takeFar32_some_length) h
  · cases bs with
    | nil => cases h
    | cons m bs => exact decodeGroup_instr h

theorem decodeFrom_instr (h : decodeFrom d p bs = .instr i rest) : MadeFrom d p bs.length i rest := by
  induction bs generalizing p with
  | nil => cases h
  | cons b bs ih =>
    obtain ⟨p', hr, h'⟩ | ⟨_, h'⟩ := reads_or_opcode h
    · obtain ⟨hwf, hlen⟩ := ih h'
      refine ⟨hwf, ?_⟩
      rw [← hlen, hr.count, List.length_cons]
      omega
    · exact decodeOpcode_instr h'

end

/-- Settles O2: `decodeFrom_instr` from no prefixes. -/
theorem decodedIsWellFormedOfItsLength : Obligations.DecodedIsWellFormedOfItsLength := fun _ _ _ _ h =>
  decodeFrom_instr h

end Sys2Proof

/-! ## The effective address and the segment of a memory operand (R58 to R60) -/

namespace Sys2Proof.Machine

/-! ### Effective addresses modulo 2^16 and 2^32 (R58, R59, D45) -/

/-- A word is its signed value modulo its range. -/
theorem toNat_eq_toInt_emod {w : Nat} (v : BitVec w) : (v.toNat : Int) = v.toInt % (2 ^ w : Nat) := by
  rw [BitVec.toInt_eq_toNat_bmod, Int.bmod_emod, Int.emod_eq_of_lt (Int.natCast_nonneg _) (by exact_mod_cast v.isLt)]

/-- A sign-extended word is its signed value modulo the wider range. -/
theorem toNat_signExtend_eq {u : Nat} (w : Nat) (v : BitVec u) :
    ((v.signExtend w).toNat : Int) = v.toInt % (2 ^ w : Nat) := by
  rw [BitVec.signExtend, BitVec.toNat_ofInt]
  exact Int.toNat_of_nonneg (Int.emod_nonneg _ (by positivity))

theorem toNat_disp16Value (disp : Disp16) : ((disp16Value disp).toNat : Int) = disp16Int disp % 65536 := by
  cases disp with
  | none => rfl
  | d8 v => exact toNat_signExtend_eq 16 v
  | d16 v => exact toNat_eq_toInt_emod v

theorem toNat_disp32Value (disp : Disp32) : ((disp32Value disp).toNat : Int) = disp32Int disp % 4294967296 := by
  cases disp with
  | none => rfl
  | d8 v => exact toNat_signExtend_eq 32 v
  | d32 v => exact toNat_eq_toInt_emod v

theorem toNat_readReg16 (s : State) (r : Reg) : (readReg16 s r).toNat = (readReg s r).toNat % 65536 := by
  rw [readReg16, toNat_extractLsb'_eq, pow_zero, Nat.div_one]
  rfl

theorem toNat_base16Value (s : State) (b : Base16) :
    (base16Value s b).toNat = ((base16Regs b).map fun r => (readReg s r).toNat).sum % 65536 := by
  cases b <;> simp [base16Value, base16Regs, toNat_readReg16]

theorem toNat_indexValue (s : State) (scale : BitVec 2) (index : Option Reg) :
    (indexValue s scale index).toNat = indexNat s scale index % 4294967296 := by
  cases index with
  | none => rfl
  | some r => simp only [indexValue, indexNat, BitVec.toNat_shiftLeft, Nat.shiftLeft_eq]

/-- Settles O28: the registers' low halves and the displacement, each modulo 2^16. -/
theorem effectiveAddress16 : Obligations.EffectiveAddress16 := by
  intro s b disp v
  have hb := toNat_base16Value s b
  have hd := toNat_disp16Value disp
  simp only [effAddr, effAddr16, BitVec.toNat_setWidth, BitVec.toNat_add]
  omega

/-- Settles O29: base, scaled index and displacement, each modulo 2^32. -/
theorem effectiveAddress32 : Obligations.EffectiveAddress32 := by
  intro s scale index b disp v
  have hi := toNat_indexValue s scale index
  have hd := toNat_disp32Value disp
  refine ⟨?_, ?_, ?_, rfl⟩ <;>
  · simp only [effAddr, effAddr32, BitVec.toNat_add]
    omega

/-! ### The segment of a memory operand (R60, D44) -/

theorem baseSeg_eq_ite (b : Reg) : baseSeg b = if b ∈ [.esp, .ebp] then .ss else .ds := by cases b <;> rfl

theorem defaultSeg16_based (b : Base16) (disp : Disp16) :
    defaultSeg16 (.based b disp) = if .ebp ∈ base16Regs b then .ss else .ds := by cases b <;> rfl

/-- Settles O30: the override, or the default segment of each addressing form. -/
theorem operandSegment : Obligations.OperandSegment :=
  ⟨fun _ _ => rfl, defaultSeg16_based, fun _ => rfl, fun b _ => baseSeg_eq_ite b, fun _ _ b _ => baseSeg_eq_ite b,
    fun _ _ _ => rfl, fun _ => rfl⟩

/-! ### A register operand (R57, R74, R75) -/

/-- Settles O18: the operand is the register or its low half, and the jump to it passes the limit check. -/
theorem registerOperandIsTheTarget : Obligations.RegisterOperandIsTheTarget := by
  refine fun r s => ⟨fun t ht hle => ?_, fun hle => ?_⟩
  · have hrm : readRM16 s (.reg r) = .ok t := by
      refine congrArg Except.ok (BitVec.eq_of_toNat_eq ?_)
      rw [BitVec.toNat_setWidth, toNat_readReg16, ht]
      omega
    rw [exec, execJmpRM16, hrm, nearIndirect_of_le s t hle]
    rfl
  · rw [exec, execJmpRM32, readRM32, nearIndirect_of_le s _ hle]
    rfl

end Sys2Proof.Machine

/-! ## Bytes of the encoding, written out and refused (R52 to R59, R62 to R65) -/

namespace Sys2Proof

open Machine

/-- Settles O6: the decoder run on each word. -/
theorem specWordsDecode : Obligations.SpecWordsDecode := ⟨rfl, rfl, rfl, rfl, rfl, rfl, rfl, rfl, rfl⟩

/-- Settles O5: each kind of refused bytes after any leading bytes, one lemma each. -/
theorem notAdmittedBytesAreRefused : Obligations.NotAdmittedBytesAreRefused := fun d lead rest hl =>
  ⟨decode_notJmpOpcode d lead rest hl, decode_notJmpGroup d lead rest hl, decode_repPrefix d lead rest hl,
    decode_repeatedPrefix d lead rest hl, decode_twoOverrides d lead rest hl, fun hg =>
    ⟨decode_prefixWithoutMemory d lead rest hl hg, decode_prefixWithoutMemory_register d lead rest hl hg⟩⟩

end Sys2Proof

/-! ## Near jumps (R70 to R77) -/

namespace Sys2Proof.Machine

/-! ### The target check (R76) -/

section
variable (s : State) (t : Word)

theorem finish_nearTarget_of_le (h : t ≤ s.cs.limit) : finish s (nearTarget s t) = .next (setEip s t) :=
  congrArg (finish s) (nearIndirect_of_le s t h)

/-- A target beyond the limit of CS leaves the record of a limit violation, with the EIP of the JMP (R113, D7, D8). -/
theorem finish_nearTarget_of_lt (h : s.cs.limit < t) : finish s (nearTarget s t) = .next s.limitRecorded := by
  rw [nearTarget, if_pos h, finish_error, takeException_limitException]

end

/-! ### The relative forms: the length of the JMP by the default size of CS, and the displacement (R61, R70) -/

theorem nextEip_eq_ite (s : State) (i : Instr) : nextEip s i =
    s.eip + if s.cs.d then BitVec.ofNat 32 (instrLength true i) else BitVec.ofNat 32 (instrLength false i) := by
  rw [nextEip]
  cases s.cs.d <;> rfl

theorem exec_jmpRel8_o16 (rel : BitVec 8) (s : State) : exec (.jmpRel8 .o16 rel) s =
    finish s (nearTarget s ((s.eip + (if s.cs.d then 3#32 else 2#32) + rel.signExtend 32) &&& 0x0000FFFF#32)) := by
  rw [exec, execJmpRel8, nextEip_eq_ite]
  rfl

theorem exec_jmpRel8_o32 (rel : BitVec 8) (s : State) : exec (.jmpRel8 .o32 rel) s =
    finish s (nearTarget s (s.eip + (if s.cs.d then 2#32 else 3#32) + rel.signExtend 32)) := by
  rw [exec, execJmpRel8, nextEip_eq_ite]
  rfl

theorem exec_jmpRel16 (rel : BitVec 16) (s : State) : exec (.jmpRel16 rel) s =
    finish s (nearTarget s ((s.eip + (if s.cs.d then 4#32 else 3#32) + rel.signExtend 32) &&& 0x0000FFFF#32)) := by
  rw [exec, execJmpRel16, nextEip_eq_ite]
  rfl

theorem exec_jmpRel32 (rel : BitVec 32) (s : State) : exec (.jmpRel32 rel) s =
    finish s (nearTarget s (s.eip + (if s.cs.d then 5#32 else 6#32) + rel)) := by
  rw [exec, execJmpRel32, nextEip_eq_ite]
  rfl

/-- Clearing the upper half is reduction modulo 2^16 (R12). -/
theorem toNat_and_lowHalf (w : Word) : (w &&& 0x0000FFFF#32).toNat = w.toNat % 65536 := by
  rw [BitVec.toNat_and]
  exact Nat.and_two_pow_sub_one_eq_mod w.toNat 16

/-- Settles O15: the equation of each operand size, and the target check. -/
theorem shortJumpReachesItsTarget : Obligations.ShortJumpReachesItsTarget := fun rel s =>
  ⟨fun h => (exec_jmpRel8_o16 rel s).trans (finish_nearTarget_of_le s _ h),
    fun h => (exec_jmpRel8_o32 rel s).trans (finish_nearTarget_of_le s _ h)⟩

/-- Settles O16: the sign extension and the masked sum, each modulo 2^16. -/
theorem rel16JumpReachesItsTarget : Obligations.Rel16JumpReachesItsTarget := by
  intro rel s t ht hle
  have hrel := toNat_signExtend_eq 32 rel
  have htgt : (s.eip + (if s.cs.d then 4#32 else 3#32) + rel.signExtend 32) &&& 0x0000FFFF#32 = t := by
    apply BitVec.eq_of_toNat_eq
    rw [toNat_and_lowHalf, BitVec.toNat_add, BitVec.toNat_add, apply_ite BitVec.toNat,
      BitVec.toNat_ofNat, BitVec.toNat_ofNat]
    split_ifs at ht ⊢ <;> omega
  rw [exec_jmpRel16, htgt]
  exact finish_nearTarget_of_le s t hle

/-- Settles O17: the displacement and the sum, each modulo 2^32. -/
theorem rel32JumpReachesItsTarget : Obligations.Rel32JumpReachesItsTarget := by
  intro rel s t ht hle
  have hrel := toNat_eq_toInt_emod rel
  have htgt : s.eip + (if s.cs.d then 5#32 else 6#32) + rel = t := by
    apply BitVec.eq_of_toNat_eq
    rw [BitVec.toNat_add, BitVec.toNat_add, apply_ite BitVec.toNat,
      BitVec.toNat_ofNat, BitVec.toNat_ofNat]
    split_ifs at ht ⊢ <;> omega
  rw [exec_jmpRel32, htgt]
  exact finish_nearTarget_of_le s t hle

/-- Settles O21: the relative forms by their equations, the indirect ones by the operand they read; the target check
raises. -/
theorem nearTargetBeyondLimitRaises : Obligations.NearTargetBeyondLimitRaises := by
  refine fun s => ⟨fun rel h => ?_, fun rel h => ?_, fun rel h => ?_, fun rel h => ?_, fun rm t hrm h => ?_,
    fun rm t hrm h => ?_⟩
  · rw [exec_jmpRel8_o16, finish_nearTarget_of_lt s _ h]
  · rw [exec_jmpRel8_o32, finish_nearTarget_of_lt s _ h]
  · rw [exec_jmpRel16, finish_nearTarget_of_lt s _ h]
  · rw [exec_jmpRel32, finish_nearTarget_of_lt s _ h]
  · rw [exec, execJmpRM16, hrm, nearIndirect, finish_nearTarget_of_lt s t h]
  · rw [exec, execJmpRM32, hrm, nearIndirect, finish_nearTarget_of_lt s t h]

/-! ### The frame of the near forms (R77) -/

/-- `s` with other flags. -/
def setFlags (s : State) (f : Word) : State := { s with flags := f }

/-- No operand reads a flag (R33, R77). -/
theorem readOperand_setFlags (s : State) (f : Word) (m : MemOperand) (n : Nat) :
    readOperand (setFlags s f) m n = readOperand s m n := by
  have h := readLinear_congr s (setFlags s f) rfl rfl rfl rfl
  simp only [readOperand, segRead, h]
  rfl

theorem readRM16_setFlags (s : State) (f : Word) (rm : RegMem) : readRM16 (setFlags s f) rm = readRM16 s rm := by
  cases rm with
  | reg r => rfl
  | mem m => simp only [readRM16, readOperand_setFlags]

theorem readRM32_setFlags (s : State) (f : Word) (rm : RegMem) : readRM32 (setFlags s f) rm = readRM32 s rm := by
  cases rm with
  | reg r => rfl
  | mem m => exact readOperand_setFlags s f m 4

/-- Every near form jumps to a target, or raises the exception of its operand, and reads no flag for it (R77). -/
theorem exec_near_setFlags (i : Instr) (s : State) (h : isNear i = true) :
    ∃ r : Except Exception Word,
      ∀ f, exec i (setFlags s f) = finish (setFlags s f) (nearIndirect (setFlags s f) r) := by
  cases i with
  | jmpRel8 os rel => exact ⟨.ok (maskEip os (nextEip s (.jmpRel8 os rel) + rel.signExtend 32)), fun _ => rfl⟩
  | jmpRel16 rel => exact ⟨.ok (maskEip .o16 (nextEip s (.jmpRel16 rel) + rel.signExtend 32)), fun _ => rfl⟩
  | jmpRel32 rel => exact ⟨.ok (nextEip s (.jmpRel32 rel) + rel), fun _ => rfl⟩
  | jmpRM16 rm => exact ⟨readRM16 s rm, fun f => by rw [exec, execJmpRM16, readRM16_setFlags]⟩
  | jmpRM32 rm => exact ⟨readRM32 s rm, fun f => by rw [exec, execJmpRM32, readRM32_setFlags]⟩
  | jmpPtr16_16 | jmpPtr16_32 | jmpM16_16 | jmpM16_32 => cases h

/-- A near form writes EIP or the fault record, and writes the same under all flags (R76, R77). -/
theorem exec_near_writes (i : Instr) (s : State) (h : isNear i = true) :
    (∃ tgt, ∀ f, exec i (setFlags s f) = .next (setEip (setFlags s f) tgt)) ∨
      ∃ e, ∀ f, exec i (setFlags s f) = .next (takeException (setFlags s f) s.eip e) := by
  obtain ⟨r, hr⟩ := exec_near_setFlags i s h
  cases r with
  | error e => exact .inr ⟨e, hr⟩
  | ok tgt =>
    by_cases hlt : s.cs.limit < tgt
    · exact .inr ⟨limitException s, fun f => (hr f).trans (congrArg (finish _) (if_pos hlt))⟩
    · exact .inl ⟨tgt, fun f => (hr f).trans (finish_nearTarget_of_le (setFlags s f) tgt (BitVec.not_lt.mp hlt))⟩

/-- Settles O22: `exec_near_writes`, under the flags of the state for the frame and under any others. -/
theorem nearJumpWritesOnlyEip : Obligations.NearJumpWritesOnlyEip := by
  intro i s t hi h
  obtain ⟨tgt, hw⟩ | ⟨e, hw⟩ := exec_near_writes i s hi
  · obtain rfl : setEip s tgt = t := Host.Outcome.next.inj ((hw s.flags).symm.trans h)
    exact ⟨rfl, rfl, rfl, rfl, rfl, rfl, rfl, rfl, rfl, rfl, rfl, rfl, rfl, rfl, rfl, rfl, rfl, rfl, .inr rfl,
      fun _ => rfl, hw⟩
  · obtain rfl : takeException s s.eip e = t := Host.Outcome.next.inj ((hw s.flags).symm.trans h)
    exact ⟨rfl, rfl, rfl, rfl, rfl, rfl, rfl, rfl, rfl, rfl, rfl, rfl, rfl, rfl, rfl, rfl, rfl, rfl, .inl rfl,
      fun _ => rfl, hw⟩

/-! ### The jump to itself (R71, R127) -/

/-- A byte that is fetched lies within the limit of CS (R34). -/
theorem fetchOffset_le_of_fetchByte {s : State} {k : Nat} {b : Byte} (h : fetchByte s k = .ok b) :
    fetchOffset s k ≤ s.cs.limit := by
  by_contra hlt
  rw [fetchByte_beyond s k (BitVec.not_le.mp hlt)] at h
  cases h

/-- The displacement FEH is -2, the length of a short JMP of the default operand size. -/
theorem add_two_add_signExtend (w : Word) : w + 2#32 + (0xFE#8).signExtend 32 = w := by
  rw [BitVec.add_assoc]
  exact BitVec.add_zero w

/-- Settles O14: the operand size is the default, the target is EIP, and EIP was fetched from. -/
theorem jumpToItselfKeepsTheState : Obligations.JumpToItselfKeepsTheState := by
  intro s hr hf heip
  have hle : s.eip ≤ s.cs.limit := by
    simpa [fetchOffset] using fetchOffset_le_of_fetchByte (hf 0 (Nat.succ_pos _))
  rw [stepRunsTheDecodedBytes s _ (.jmpRel8 (operandSize s.cs.d .empty) 0xFE#8) hr rfl hf]
  have hstay := finish_nearTarget_of_le s s.eip hle
  cases hd : s.cs.d with
  | true =>
    refine (exec_jmpRel8_o32 0xFE#8 s).trans ?_
    rw [hd, if_pos rfl, add_two_add_signExtend]
    exact hstay
  | false =>
    have hlow : s.eip &&& 0x0000FFFF#32 = s.eip := by
      have h16 : s.eip.toNat ≤ 65535 := heip.resolve_left (by simp [hd])
      apply BitVec.eq_of_toNat_eq
      rw [toNat_and_lowHalf]
      omega
    refine (exec_jmpRel8_o16 0xFE#8 s).trans ?_
    rw [hd, if_neg Bool.false_ne_true, add_two_add_signExtend, hlow]
    exact hstay

end Sys2Proof.Machine

/-! ## Far jumps in real-address and V86 mode (R80 to R85, R119) -/

namespace Sys2Proof.Machine

/-! ### The load of CS and EIP without a descriptor (R85) -/

theorem farJump_of_not_prot {s : State} (hm : s.mode ≠ .prot) (os : OpSize) (sel : Selector) (off : Word) :
    farJump s os sel off = realOrV86 s sel off := by
  cases hmode : s.mode with
  | real | v86 => simp only [farJump, hmode]
  | prot => exact absurd hmode hm

/-- Sixteen times a selector does not pass 2^32, so the base of R85 is the product in natural numbers. -/
theorem eq_selector_mul_sixteen {sel : Selector} {base : Word} (h : base.toNat = sel.toNat * 16) :
    base = sel.setWidth 32 * 16#32 := by
  have hs := sel.isLt
  apply BitVec.eq_of_toNat_eq
  simp only [BitVec.toNat_mul, BitVec.toNat_setWidth, BitVec.toNat_ofNat]
  omega

/-- Settles O31: the far jump is `realOrV86`, which checks the offset against the limit of CS. -/
theorem unprotectedFarJump : Obligations.UnprotectedFarJump := by
  intro i os p s hi hm
  rw [exec_far s i os p hi, farJump_of_not_prot hm]
  refine ⟨fun hle base hbase => ?_, fun hlt => ?_⟩
  · rw [realOrV86, if_neg (BitVec.not_lt.mpr hle), eq_selector_mul_sixteen hbase]
    rfl
  · rw [realOrV86, if_pos hlt]
    rfl

/-! ### A JMP in two states that hold the same operands -/

/-- Two states with the same registers, EIP, CS and memory operands run the same near or far procedure, with the same
operand (R70 to R75, R80 to R83). -/
theorem exec_same_operand (i : Instr) {s u : State} (hop : ∀ m n, readOperand u m n = readOperand s m n)
    (hregs : u.regs = s.regs) (heip : u.eip = s.eip) (hcs : u.cs = s.cs) :
    (∃ r, exec i s = finish s (nearIndirect s r) ∧ exec i u = finish u (nearIndirect u r)) ∨
      ∃ os r, exec i s = finish s (farIndirect s os r) ∧ exec i u = finish u (farIndirect u os r) := by
  have hreg : ∀ r, readReg u r = readReg s r := fun r => by cases r <;> simp only [readReg, hregs]
  have hnext : nextEip u i = nextEip s i := by rw [nextEip, nextEip, heip, hcs]
  cases i with
  | jmpRel8 os rel => exact .inl ⟨.ok _, rfl, by rw [exec, execJmpRel8, hnext]; rfl⟩
  | jmpRel16 rel => exact .inl ⟨.ok _, rfl, by rw [exec, execJmpRel16, hnext]; rfl⟩
  | jmpRel32 rel => exact .inl ⟨.ok _, rfl, by rw [exec, execJmpRel32, hnext]; rfl⟩
  | jmpRM16 rm =>
    have hrm : readRM16 u rm = readRM16 s rm := by cases rm <;> simp only [readRM16, readReg16, hreg, hop]
    exact .inl ⟨_, rfl, by rw [exec, execJmpRM16, hrm]⟩
  | jmpRM32 rm =>
    have hrm : readRM32 u rm = readRM32 s rm := by cases rm <;> simp only [readRM32, hreg, hop]
    exact .inl ⟨_, rfl, by rw [exec, execJmpRM32, hrm]⟩
  | jmpPtr16_16 off sel => exact .inr ⟨_, .ok ⟨sel, off.setWidth 32⟩, rfl, rfl⟩
  | jmpPtr16_32 off sel => exact .inr ⟨_, .ok ⟨sel, off⟩, rfl, rfl⟩
  | jmpM16_16 m => exact .inr ⟨_, _, rfl, by rw [exec, execJmpM16_16, readFar16, hop, ← readFar16]⟩
  | jmpM16_32 m => exact .inr ⟨_, _, rfl, by rw [exec, execJmpM16_32, readFar32, hop, ← readFar32]⟩

/-! ### No descriptor table is consulted outside protected mode (R85, R119) -/

/-- `s` with another GDTR and LDTR. -/
def setTables (s : State) (g : Config.TableReg) (l : Config.LdtReg) : State := { s with gdtr := g, ldtr := l }

section
variable (s : State) (g : Config.TableReg) (l : Config.LdtReg)

/-- No memory operand is read through a descriptor table (R33). -/
theorem readOperand_setTables (m : MemOperand) (n : Nat) : readOperand (setTables s g l) m n = readOperand s m n := by
  have h := readLinear_congr s (setTables s g l) rfl rfl rfl rfl
  simp only [readOperand, segRead, h]
  rfl

theorem finish_setTables {r : Except Exception State} {t : State} (h : finish s r = .next t) :
    finish (setTables s g l) (r.map (setTables · g l)) = .next (setTables t g l) := by
  cases r <;> cases h <;> rfl

theorem nearIndirect_setTables (r : Except Exception Word) :
    nearIndirect (setTables s g l) r = (nearIndirect s r).map (setTables · g l) := by
  cases r with
  | error e => rfl
  | ok tgt =>
    rw [nearIndirect, nearIndirect, nearTarget, nearTarget, apply_ite (Except.map _)]
    rfl

theorem farIndirect_setTables (hm : s.mode ≠ .prot) (os : OpSize) (r : Except Exception FarPointer) :
    farIndirect (setTables s g l) os r = (farIndirect s os r).map (setTables · g l) := by
  cases r with
  | error e => rfl
  | ok p =>
    rw [farIndirect, farIndirect, farJump_of_not_prot hm, farJump_of_not_prot (s := setTables s g l) hm,
      realOrV86, realOrV86, apply_ite (Except.map _)]
    rfl

end

/-- Settles O32: the operands and the near and far procedures are the same with other table registers. -/
theorem unprotectedModesIgnoreTheTables : Obligations.UnprotectedModesIgnoreTheTables := by
  intro i s t g l hm ht
  rcases exec_same_operand i (u := setTables s g l) (readOperand_setTables s g l) rfl rfl rfl with
    ⟨r, hs, hu⟩ | ⟨os, r, hs, hu⟩
  · rw [nearIndirect_setTables] at hu
    exact hu.trans (finish_setTables s g l (hs.symm.trans ht))
  · rw [farIndirect_setTables s g l hm] at hu
    exact hu.trans (finish_setTables s g l (hs.symm.trans ht))

end Sys2Proof.Machine

/-! ## Far jumps in protected mode, check by check (R86 to R94) -/

namespace Sys2Proof.Machine

/-! ### The prologue (R86) -/

section
variable {s : State} {i : Instr} {os : OpSize} {p : FarPointer}

theorem exec_of_prot (hi : farOperand s i = some (os, .ok p)) (hm : s.mode = .prot) :
    exec i s = finish s (protectedJump s os p.sel p.off) := by
  simp only [exec_far s i os p hi, farJump, hm]

end

/-- Settles O36: the checks of `protectedJump` before a class is known, and the illegal class. -/
theorem protectedPrologueRaises : Obligations.ProtectedPrologueRaises := by
  intro i os p s hi hm
  have notNull : 3 < p.sel.toNat → selNull p.sel = false := fun h => by
    rw [← Bool.not_eq_true, selNull_iff]; omega
  refine ⟨fun hn => ?null, fun hn ht => ?outside, fun hn ht => ?found⟩
  case null =>
    rw [exec_of_prot hi hm, protectedJump, if_pos ((selNull_iff p.sel).mpr hn)]
    rfl
  case outside =>
    rw [exec_of_prot hi hm, protectedJump, if_neg (by simp [notNull hn]), if_pos ht]
    rfl
  case found =>
    obtain ⟨hfault, hdesc⟩ := exec_of_withinTable hi hm (notNull hn) ht
    cases hd : readDesc s p.sel with
    | error e => exact hfault e hd
    | ok d =>
      intro hk
      rw [hdesc d hd, farByClass, hk]
      rfl

/-! ### The load of a code segment (R89, R94) -/

section
variable {s : State} {sel : Selector} {d : Descriptor}

theorem loadCs_of_accessed (ha : arAccessed (descAr d) = true) (off phys : Word) :
    loadCs s sel d off = .ok (s.jumpedTo sel d off phys) := by
  rw [loadCs, if_neg (by simp [writesAccessed, ha]), State.jumpedTo, if_pos ha]
  rfl

section
variable (ha : arAccessed (descAr d) = false)
include ha

theorem loadCs_of_translate (off : Word) {phys : Word}
    (ht : translate s (descAddr s sel + 5#32) .write .supervisor = .ok phys) :
    loadCs s sel d off = .ok (s.jumpedTo sel d off phys) := by
  simp only [loadCs, writesAccessed, ha, Config.setAccessed, arAddr, ht, State.jumpedTo]
  rfl

theorem loadCs_of_translate_error (off : Word) {code : HalfWord}
    (ht : translate s (descAddr s sel + 5#32) .write .supervisor = .error code) :
    loadCs s sel d off = .error (.pf code) := by
  simp only [loadCs, writesAccessed, ha, Config.setAccessed, arAddr, ht]
  rfl

end

theorem loadCs_of_accessedReady (off : Word) {phys : Word} (h : accessedReady s sel d phys) :
    loadCs s sel d off = .ok (s.jumpedTo sel d off phys) := by
  cases ha : arAccessed (descAr d) with
  | true => exact loadCs_of_accessed ha off phys
  | false => exact loadCs_of_translate ha off (h.resolve_left (by simp [ha]))

end

/-- The end that the three ways to a code segment share: present, the offset within its limit, and the load (R87, R88,
R90). -/
def loadPresent (s : State) (sel : Selector) (d : Descriptor) (off : Word) : Except Exception State :=
  if arPresent (descAr d) = false then .error (.np (errCode sel))
  else if descLimit d < off then .error (.gp 0#16)
  else loadCs s sel d off

section
variable {s : State} {sel : Selector} {d : Descriptor} {off : Word}

theorem loadPresent_of_le (hp : arPresent (descAr d) = true) (hle : off ≤ descLimit d) :
    loadPresent s sel d off = loadCs s sel d off := by
  rw [loadPresent, if_neg (by simp [hp]), if_neg (BitVec.not_lt.mpr hle)]

variable {i : Instr} (he : exec i s = finish s (loadPresent s sel d off))
include he

/-- A jump that has come to a code segment: the last two checks, and the completed jump. -/
theorem exec_of_loadPresent :
    (arPresent (descAr d) = false → exec i s = .next (s.recorded 11 (some (sel &&& 0xFFFC#16)))) ∧
    (arPresent (descAr d) = true → descLimit d < off → exec i s = .next (s.recorded 13 (some 0#16))) ∧
    (arPresent (descAr d) = true → off ≤ descLimit d → ∀ phys, accessedReady s sel d phys →
      exec i s = .next (s.jumpedTo sel d off phys)) := by
  rw [he]
  refine ⟨fun hp => ?_, fun hp hlt => ?_, fun hp hle phys hr => ?_⟩
  · rw [loadPresent, if_pos hp]
    rfl
  · rw [loadPresent, if_neg (by simp [hp]), if_pos hlt]
    rfl
  · rw [loadPresent_of_le hp hle, loadCs_of_accessedReady off hr, finish_ok]

/-- The accessed-bit write of a jump that passed every check (R94, R117, R121). -/
theorem exec_of_loadPresent_not_accessed (hp : arPresent (descAr d) = true) (hle : off ≤ descLimit d)
    (ha : arAccessed (descAr d) = false) :
    match translate s (descAddr s sel + 5#32) .write .supervisor with
    | .error code => exec i s = .next (s.recorded 14 (some code))
    | .ok phys => exec i s = .next (s.jumpedTo sel d off phys) := by
  cases ht : translate s (descAddr s sel + 5#32) .write .supervisor with
  | error code =>
    rw [loadPresent_of_le hp hle, loadCs_of_translate_error ha off ht] at he
    exact he
  | ok phys => exact (exec_of_loadPresent he).2.2 hp hle phys (.inr ht)

end

/-! ### Code segments named by the pointer (R87, R88) -/

section
variable {s : State} {i : Instr} {os : OpSize} {p : FarPointer} {d : Descriptor} (h : farFinds s i os p d)
include h

theorem exec_nonconforming (hk : classify (descAr d) = .nonconforming) :
    exec i s = finish s (nonconforming s p.sel d p.off) := by
  rw [exec_of_farFinds h, farByClass, hk]

theorem exec_conforming (hk : classify (descAr d) = .conforming) :
    exec i s = finish s (conforming s p.sel d p.off) := by
  rw [exec_of_farFinds h, farByClass, hk]

theorem exec_nonconforming_passed (hk : classify (descAr d) = .nonconforming) (hrpl : selRpl p.sel ≤ s.cpl)
    (hdpl : arDpl (descAr d) = s.cpl) : exec i s = finish s (loadPresent s p.sel d p.off) := by
  rw [exec_nonconforming h hk, nonconforming, if_neg (BitVec.not_lt.mpr hrpl), if_neg (not_not.mpr hdpl), loadPresent]

theorem exec_conforming_passed (hk : classify (descAr d) = .conforming) (hdpl : arDpl (descAr d) ≤ s.cpl) :
    exec i s = finish s (loadPresent s p.sel d p.off) := by
  rw [exec_conforming h hk, conforming, if_neg (BitVec.not_lt.mpr hdpl), loadPresent]

end

/-- Settles O37: the two privilege checks, and `exec_of_loadPresent` for what comes after them. -/
theorem nonconformingSegmentJump : Obligations.NonconformingSegmentJump := by
  intro i os p s d h hk
  refine ⟨fun hrpl => ?_, fun hrpl hdpl => ?_, fun hrpl hdpl =>
    exec_of_loadPresent (exec_nonconforming_passed h hk hrpl hdpl)⟩
  · rw [exec_nonconforming h hk, nonconforming, if_pos hrpl]
    rfl
  · rw [exec_nonconforming h hk, nonconforming, if_neg (BitVec.not_lt.mpr hrpl), if_pos hdpl]
    rfl

/-- Settles O38: the privilege check, and `exec_of_loadPresent` for what comes after it. -/
theorem conformingSegmentJump : Obligations.ConformingSegmentJump := by
  intro i os p s d h hk
  refine ⟨fun hdpl => ?_, fun hdpl => exec_of_loadPresent (exec_conforming_passed h hk hdpl)⟩
  rw [exec_conforming h hk, conforming, if_pos hdpl]
  rfl

/-! ### The checks of a gate (R90, R91) -/

section
variable {s : State} {gsel : Selector} {g : Descriptor}

theorem gateCheck_of_dpl_lt (h : arDpl (descAr g) < s.cpl ∨ arDpl (descAr g) < selRpl gsel) :
    gateCheck s gsel g = some (.gp (errCode gsel)) := by
  rw [gateCheck, ← ite_or, if_pos h]

theorem gateCheck_of_not_present (hcpl : s.cpl ≤ arDpl (descAr g)) (hrpl : selRpl gsel ≤ arDpl (descAr g))
    (hp : arPresent (descAr g) = false) : gateCheck s gsel g = some (.np (errCode gsel)) := by
  rw [gateCheck, if_neg (BitVec.not_lt.mpr hcpl), if_neg (BitVec.not_lt.mpr hrpl), if_pos hp]

end

/-! ### Call gates (R90) -/

section
variable {s : State} {i : Instr} {os : OpSize} {p : FarPointer} {g : Descriptor} (h : farFinds s i os p g)
  (hk : classify (descAr g) = .callGate)
include h hk

theorem exec_callGate : exec i s = finish s (callGate s os p.sel g) := by
  rw [exec_of_farFinds h, farByClass, hk]

theorem exec_callGate_of_gateCheck {e : Exception} (he : gateCheck s p.sel g = some e) :
    exec i s = finish s (.error e) := by
  rw [exec_callGate h hk, callGate, he]

/-- A call gate that passes its checks hands over to the code segment it names. -/
theorem exec_callGate_target {c : Descriptor} (hg : gateCheck s p.sel g = none)
    (hn : selNull (gateSelector g) = false) (ht : withinTable s (gateSelector g) = true)
    (hc : readDesc s (gateSelector g) = .ok c) :
    exec i s = finish s (callGateTarget s (gateSelector g) c (gateTarget os g)) := by
  simp [exec_callGate h hk, callGate, hg, hn, ht, hc]

end

/-- Settles O39: the checks of the gate, then those of the selector it holds. -/
theorem callGateChecks : Obligations.CallGateChecks := by
  intro i os p s g h hk
  refine ⟨fun hdpl => exec_callGate_of_gateCheck h hk (gateCheck_of_dpl_lt hdpl), fun hcpl hrpl =>
    ⟨fun hp => exec_callGate_of_gateCheck h hk (gateCheck_of_not_present hcpl hrpl hp), fun hp hn => ?null,
      fun hp hn ht => ?outside⟩⟩
  case null =>
    simp only [exec_callGate h hk, callGate, gateCheck_eq_none hcpl hrpl hp, hn]
    rfl
  case outside =>
    simp only [exec_callGate h hk, callGate, gateCheck_eq_none hcpl hrpl hp, hn, ht]
    rfl

/-- The offset a call gate gives, in natural numbers (R90, D33). -/
theorem gateTarget_eq {os : OpSize} {g : Descriptor} {t : Word}
    (h : t.toNat = if os = .o32 then (gateOffset g).toNat else (gateOffset g).toNat % 65536) : gateTarget os g = t := by
  apply BitVec.eq_of_toNat_eq
  rw [h]
  cases os with
  | o32 => rfl
  | o16 =>
    simp only [gateTarget, BitVec.toNat_setWidth, toNat_extractLsb'_eq, reduceCtorEq, if_false]
    omega

section
variable {s : State} {csel : Selector} {c : Descriptor} {t : Word}

theorem callGateTarget_of_not_code (hc : classify (descAr c) ≠ .conforming)
    (hn : classify (descAr c) ≠ .nonconforming) : callGateTarget s csel c t = .error (.gp (errCode csel)) := by
  rw [callGateTarget, if_pos]
  by_contra hcode
  rw [classify_of_arCode _ (by simpa using hcode)] at hc hn
  split at hc <;> simp_all

theorem callGateTarget_of_nonconforming (hk : classify (descAr c) = .nonconforming) :
    callGateTarget s csel c t =
      if arDpl (descAr c) ≠ s.cpl then .error (.gp (errCode csel)) else loadPresent s csel c t := by
  obtain ⟨hcode, hconf⟩ := classify_nonconforming _ hk
  simp [callGateTarget, hcode, hconf, loadPresent]

theorem callGateTarget_of_conforming (hk : classify (descAr c) = .conforming) :
    callGateTarget s csel c t =
      if s.cpl < arDpl (descAr c) then .error (.gp (errCode csel)) else loadPresent s csel c t := by
  obtain ⟨hcode, hconf⟩ := classify_conforming _ hk
  simp [callGateTarget, hcode, hconf, loadPresent]

theorem callGateTarget_passed
    (h : classify (descAr c) = .nonconforming ∧ arDpl (descAr c) = s.cpl ∨
      classify (descAr c) = .conforming ∧ arDpl (descAr c) ≤ s.cpl) :
    callGateTarget s csel c t = loadPresent s csel c t := by
  rcases h with ⟨hk, hdpl⟩ | ⟨hk, hdpl⟩
  · rw [callGateTarget_of_nonconforming hk, if_neg (not_not.mpr hdpl)]
  · rw [callGateTarget_of_conforming hk, if_neg (BitVec.not_lt.mpr hdpl)]

end

/-- Settles O40: the gate hands over to `callGateTarget`, whose checks depend on the class of the segment. -/
theorem callGateJump : Obligations.CallGateJump := by
  intro i os p s g c h hk hcpl hrpl hp hn ht hc t htgt
  have he := exec_callGate_target h hk (gateCheck_eq_none hcpl hrpl hp) hn ht hc
  rw [gateTarget_eq htgt] at he
  refine ⟨fun hconf hnon => ?_, fun hnon hdpl => ?_, fun hconf hdpl => ?_, fun hpass => ?_⟩
  · rw [he, callGateTarget_of_not_code hconf hnon]
    rfl
  · rw [he, callGateTarget_of_nonconforming hnon, if_pos hdpl]
    rfl
  · rw [he, callGateTarget_of_conforming hconf, if_pos hdpl]
    rfl
  · exact exec_of_loadPresent (he.trans (congrArg _ (callGateTarget_passed hpass)))

/-- Settles O45: a segment that passed its checks, named by the pointer or by a call gate, comes to the accessed-bit
write. -/
theorem accessedBitPageFaultRaises : Obligations.AccessedBitPageFaultRaises := by
  refine ⟨fun i os p s d h hpass hp hle ha => ?pointer,
    fun i os p s g c h hk hcpl hrpl hpg hn ht hc hpass t htgt hp hle ha => ?gate⟩
  case pointer =>
    refine exec_of_loadPresent_not_accessed ?_ hp hle ha
    rcases hpass with ⟨hk, hrpl, hdpl⟩ | ⟨hk, hdpl⟩
    · exact exec_nonconforming_passed h hk hrpl hdpl
    · exact exec_conforming_passed h hk hdpl
  case gate =>
    have he := exec_callGate_target h hk (gateCheck_eq_none hcpl hrpl hpg) hn ht hc
    rw [gateTarget_eq htgt, callGateTarget_passed hpass] at he
    exact exec_of_loadPresent_not_accessed he hp hle ha

/-! ### Task gates and task state segments (R91 to R93) -/

/-- A jump that has come to a TSS: the checks of an available, present TSS, and the switch. -/
theorem exec_of_switchToTss {s : State} {i : Instr} {tsel : Selector} {td : Descriptor}
    (he : exec i s = finish s (switchToTss s tsel td)) :
    (arAvailableTss (descAr td) = false → exec i s = .next (s.recorded 13 (some (tsel &&& 0xFFFC#16)))) ∧
    (arAvailableTss (descAr td) = true → arPresent (descAr td) = false →
      exec i s = .next (s.recorded 11 (some (tsel &&& 0xFFFC#16)))) ∧
    (arAvailableTss (descAr td) = true → arPresent (descAr td) = true → exec i s = .next (enterTask s tsel td)) := by
  rw [he]
  refine ⟨fun hav => ?_, fun hav hp => ?_, fun hav hp => ?_⟩
  · rw [switchToTss, if_pos hav]
    rfl
  · rw [switchToTss, if_neg (by simp [hav]), if_pos hp]
    rfl
  · rw [switchToTss, if_neg (by simp [hav]), if_neg (by simp [hp]), finish_ok]

section
variable {s : State} {i : Instr} {os : OpSize} {p : FarPointer} {g : Descriptor} (h : farFinds s i os p g)
include h

theorem exec_taskGate (hk : classify (descAr g) = .taskGate) : exec i s = finish s (taskGate s p.sel g) := by
  rw [exec_of_farFinds h, farByClass, hk]

theorem exec_taskGate_of_gateCheck (hk : classify (descAr g) = .taskGate) {e : Exception}
    (he : gateCheck s p.sel g = some e) : exec i s = finish s (.error e) := by
  rw [exec_taskGate h hk, taskGate, he]

theorem exec_taskState (hk : classify (descAr g) = .taskState) : exec i s = finish s (taskStateSegment s p.sel g) := by
  rw [exec_of_farFinds h, farByClass, hk]

end

/-- Settles O42: the checks of the gate and of the selector it holds, then `exec_of_switchToTss`. -/
theorem taskGateJump : Obligations.TaskGateJump := by
  intro i os p s g h hk
  refine ⟨fun hdpl => exec_taskGate_of_gateCheck h hk (gateCheck_of_dpl_lt hdpl), fun hcpl hrpl =>
    ⟨fun hp => exec_taskGate_of_gateCheck h hk (gateCheck_of_not_present hcpl hrpl hp), fun hp => ?_⟩⟩
  have hg := gateCheck_eq_none hcpl hrpl hp
  refine ⟨fun hl => ?localTable, fun hl hlt => ?outside, fun hl hle td htd => ?found⟩
  case localTable =>
    simp only [exec_taskGate h hk, taskGate, hg, hl]
    rfl
  case outside =>
    simp only [exec_taskGate h hk, taskGate, hg, hl, if_pos hlt]
    rfl
  case found =>
    refine exec_of_switchToTss ?_
    simp [exec_taskGate h hk, taskGate, hg, hl, Nat.not_lt.mpr hle, htd]

/-- Settles O43: the privilege checks, then `exec_of_switchToTss`. -/
theorem taskStateSegmentJump : Obligations.TaskStateSegmentJump := by
  intro i os p s td h hk
  refine ⟨fun hdpl => ?_, fun hcpl hrpl => exec_of_switchToTss ?_⟩
  · rw [exec_taskState h hk, taskStateSegment, ← ite_or, if_pos hdpl]
    rfl
  · rw [exec_taskState h hk, taskStateSegment, if_neg (BitVec.not_lt.mpr hcpl), if_neg (BitVec.not_lt.mpr hrpl)]

/-! ### The pointer of a jump to a gate or a TSS (R97) -/

/-- Settles O41: the other JMP finds the same descriptor, and no procedure of these three classes takes the offset. -/
theorem gateIgnoresThePointerOffset : Obligations.GateIgnoresThePointerOffset := by
  rintro i j os p ⟨qsel, qoff⟩ s d h hj rfl hk
  have h' : farFinds s j os ⟨p.sel, qoff⟩ d := ⟨hj, h.2⟩
  simp only [List.mem_cons, List.not_mem_nil, or_false] at hk
  rcases hk with hk | hk | hk
  · rw [exec_callGate h hk, exec_callGate h' hk]
  · rw [exec_taskGate h hk, exec_taskGate h' hk]
  · rw [exec_taskState h hk, exec_taskState h' hk]

/-! ### The accessed bit in memory (R94) -/

theorem arAccessed_loadedAr (ar : Byte) : arAccessed (loadedAr ar) = true := by
  simp [arAccessed, loadedAr, Config.setAccessed]

theorem loadedAr_of_accessed (ar : Byte) (h : arAccessed ar = true) : loadedAr ar = ar := by
  revert ar
  decide

/-- Without paging the AR byte of a descriptor is byte 5 of its entry in memory (R33, R41). -/
theorem descAr_eq_memRead {s : State} {sel : Selector} {d : Descriptor} (hpg : s.paging = false)
    (hd : readDesc s sel = .ok d) : descAr d = memRead s.mem (descAddr s sel + 5#32).toNat := by
  obtain ⟨d', hd', har, _⟩ := descriptorFields s sel (fun j => descAddr s sel + BitVec.ofNat 32 j)
    fun _ _ => translate_identity s (by simp [hpg]) _ _ _
  rw [Except.ok.inj (hd.symm.trans hd'), har]

/-- Settles O47: the byte was written, or it was set already and is the one the descriptor was read with. -/
theorem accessedBitIsSetInMemory : Obligations.AccessedBitIsSetInMemory := by
  intro i s t h hfar hm hpg hwf _ hf hn
  obtain ⟨os, r, hr⟩ := exec_eq_farIndirect i s hfar
  obtain ⟨sel, d, off, hc, hload⟩ := loadsChecked_farIndirect s hm os r t (eq_ok_of_finish (hr ▸ h) hf) hn
  have har : t.cs.ar = loadedAr (descAr d) := by rw [loadCs_cs hload]; rfl
  rw [loadCs_descAddr hload, har]
  refine ⟨?_, arAccessed_loadedAr _⟩
  rcases loadCs_ok s t sel d off hload with ⟨_, phys, hp, rfl⟩ | ⟨hw, rfl⟩
  · rw [translate_identity s (by simp [hpg])] at hp
    cases hp
    exact memRead_memWrite_same s.mem _ _ hwf
  · rw [loadedAr_of_accessed _ (by simpa [writesAccessed, Config.setAccessed] using hw)]
    exact (descAr_eq_memRead hpg hc.read).symm

end Sys2Proof.Machine

/-! ## Flags (R19, R95) -/

namespace Sys2Proof.Machine

/-- The results of one procedure of a JMP from `s` and from `s` with the flags `f`: the same exception, the same state
but for the flags, or the same task switch, which replaces them (R95). -/
inductive SameUnderFlags (s : State) (f : Word) : (r r' : Except Exception State) → Prop where
  | raised (e : Exception) : SameUnderFlags s f (.error e) (.error e)
  | kept (t : State) (hn : t.taskSwitches = s.taskSwitches) : SameUnderFlags s f (.ok t) (.ok (setFlags t f))
  | switched (tsel : Selector) (td : Descriptor) :
      SameUnderFlags s f (.ok (enterTask s tsel td)) (.ok (enterTask (setFlags s f) tsel td))

section
variable (s : State) (f : Word)

/-! ### No check and no load reads a flag (R95) -/

/-- A check that raises, before the rest of a procedure. -/
theorem sameUnderFlags_check (c : Prop) [Decidable c] (e : Exception) (r r' : Except Exception State)
    (h : SameUnderFlags s f r r') :
    SameUnderFlags s f (if c then .error e else r) (if c then .error e else r') := by
  split
  · exact .raised e
  · exact h

theorem readDesc_setFlags (sel : Selector) : readDesc (setFlags s f) sel = readDesc s sel := by
  rw [readDesc, readLinear_congr s (setFlags s f) rfl rfl rfl rfl, readDesc]
  rfl

theorem sameUnderFlags_loadCs (sel : Selector) (d : Descriptor) (off : Word) :
    SameUnderFlags s f (loadCs s sel d off) (loadCs (setFlags s f) sel d off) := by
  have ht : translate (setFlags s f) (arAddr (setFlags s f) sel) .write .supervisor =
      translate s (arAddr s sel) .write .supervisor := rfl
  rw [loadCs, loadCs, ht]
  split
  · cases translate s (arAddr s sel) .write .supervisor with
    | error code => exact .raised _
    | ok phys => exact .kept _ rfl
  · exact .kept _ rfl

theorem sameUnderFlags_conforming (sel : Selector) (d : Descriptor) (off : Word) :
    SameUnderFlags s f (conforming s sel d off) (conforming (setFlags s f) sel d off) :=
  sameUnderFlags_check s f _ _ _ _ <| sameUnderFlags_check s f _ _ _ _ <| sameUnderFlags_check s f _ _ _ _ <|
    sameUnderFlags_loadCs s f sel d off

theorem sameUnderFlags_nonconforming (sel : Selector) (d : Descriptor) (off : Word) :
    SameUnderFlags s f (nonconforming s sel d off) (nonconforming (setFlags s f) sel d off) :=
  sameUnderFlags_check s f _ _ _ _ <| sameUnderFlags_check s f _ _ _ _ <| sameUnderFlags_check s f _ _ _ _ <|
    sameUnderFlags_check s f _ _ _ _ <| sameUnderFlags_loadCs s f sel d off

theorem sameUnderFlags_callGateTarget (csel : Selector) (c : Descriptor) (tgt : Word) :
    SameUnderFlags s f (callGateTarget s csel c tgt) (callGateTarget (setFlags s f) csel c tgt) :=
  sameUnderFlags_check s f _ _ _ _ <| sameUnderFlags_check s f _ _ _ _ <| sameUnderFlags_check s f _ _ _ _ <|
    sameUnderFlags_check s f _ _ _ _ <| sameUnderFlags_check s f _ _ _ _ <| sameUnderFlags_loadCs s f csel c tgt

theorem sameUnderFlags_callGate (os : OpSize) (gsel : Selector) (g : Descriptor) :
    SameUnderFlags s f (callGate s os gsel g) (callGate (setFlags s f) os gsel g) := by
  have hg : gateCheck (setFlags s f) gsel g = gateCheck s gsel g := rfl
  simp only [callGate, hg, readDesc_setFlags]
  cases gateCheck s gsel g with
  | some e => exact .raised e
  | none =>
    refine sameUnderFlags_check s f _ _ _ _ <| sameUnderFlags_check s f _ _ _ _ ?_
    cases readDesc s (gateSelector g) with
    | error e => exact .raised e
    | ok c => exact sameUnderFlags_callGateTarget s f _ c _

theorem sameUnderFlags_switchToTss (tsel : Selector) (td : Descriptor) :
    SameUnderFlags s f (switchToTss s tsel td) (switchToTss (setFlags s f) tsel td) :=
  sameUnderFlags_check s f _ _ _ _ <| sameUnderFlags_check s f _ _ _ _ <| .switched tsel td

theorem sameUnderFlags_taskGate (gsel : Selector) (g : Descriptor) :
    SameUnderFlags s f (taskGate s gsel g) (taskGate (setFlags s f) gsel g) := by
  have hg : gateCheck (setFlags s f) gsel g = gateCheck s gsel g := rfl
  simp only [taskGate, hg, readDesc_setFlags]
  cases gateCheck s gsel g with
  | some e => exact .raised e
  | none =>
    refine sameUnderFlags_check s f _ _ _ _ <| sameUnderFlags_check s f _ _ _ _ ?_
    cases readDesc s (gateSelector g) with
    | error e => exact .raised e
    | ok td => exact sameUnderFlags_switchToTss s f _ td

theorem sameUnderFlags_taskStateSegment (tsel : Selector) (td : Descriptor) :
    SameUnderFlags s f (taskStateSegment s tsel td) (taskStateSegment (setFlags s f) tsel td) :=
  sameUnderFlags_check s f _ _ _ _ <| sameUnderFlags_check s f _ _ _ _ <| sameUnderFlags_switchToTss s f tsel td

theorem sameUnderFlags_farByClass (os : OpSize) (sel : Selector) (off : Word) (d : Descriptor) :
    SameUnderFlags s f (farByClass s os sel off d) (farByClass (setFlags s f) os sel off d) := by
  simp only [farByClass]
  cases classify (descAr d) with
  | conforming => exact sameUnderFlags_conforming s f sel d off
  | nonconforming => exact sameUnderFlags_nonconforming s f sel d off
  | callGate => exact sameUnderFlags_callGate s f os sel d
  | taskGate => exact sameUnderFlags_taskGate s f sel d
  | taskState => exact sameUnderFlags_taskStateSegment s f sel d
  | illegal => exact .raised _

theorem sameUnderFlags_protectedJump (os : OpSize) (sel : Selector) (off : Word) :
    SameUnderFlags s f (protectedJump s os sel off) (protectedJump (setFlags s f) os sel off) := by
  simp only [protectedJump, readDesc_setFlags]
  refine sameUnderFlags_check s f _ _ _ _ <| sameUnderFlags_check s f _ _ _ _ ?_
  cases readDesc s sel with
  | error e => exact .raised e
  | ok d => exact sameUnderFlags_farByClass s f os sel off d

theorem sameUnderFlags_realOrV86 (sel : Selector) (off : Word) :
    SameUnderFlags s f (realOrV86 s sel off) (realOrV86 (setFlags s f) sel off) :=
  sameUnderFlags_check s f _ _ _ _ <| .kept _ rfl

theorem sameUnderFlags_farIndirect (os : OpSize) (r : Except Exception FarPointer) :
    SameUnderFlags s f (farIndirect s os r) (farIndirect (setFlags s f) os r) := by
  cases r with
  | error e => exact .raised e
  | ok p =>
    have hm : (setFlags s f).mode = s.mode := rfl
    simp only [farIndirect, farJump, hm]
    cases s.mode with
    | real | v86 => exact sameUnderFlags_realOrV86 s f p.sel p.off
    | prot => exact sameUnderFlags_protectedJump s f os p.sel p.off

theorem sameUnderFlags_nearIndirect (r : Except Exception Word) :
    SameUnderFlags s f (nearIndirect s r) (nearIndirect (setFlags s f) r) := by
  cases r with
  | error e => exact .raised e
  | ok tgt => exact sameUnderFlags_check s f _ _ _ _ <| .kept _ rfl

/-- Every JMP does the same under other flags (R95). -/
theorem exec_sameUnderFlags (i : Instr) :
    ∃ r r', exec i s = finish s r ∧ exec i (setFlags s f) = finish (setFlags s f) r' ∧ SameUnderFlags s f r r' := by
  rcases exec_same_operand i (u := setFlags s f) (readOperand_setFlags s f) rfl rfl rfl with
    ⟨r, hs, hu⟩ | ⟨os, r, hs, hu⟩
  · exact ⟨_, _, hs, hu, sameUnderFlags_nearIndirect s f r⟩
  · exact ⟨_, _, hs, hu, sameUnderFlags_farIndirect s f os r⟩

end

/-- The next states a JMP leaves from `s` and from `s` with the flags `f`: the same but for the flags, or both left by a
task switch (R95). -/
theorem exec_setFlags {i : Instr} {s t : State} (f : Word) (h : exec i s = .next t) :
    ∃ t', exec i (setFlags s f) = .next t' ∧
      (t.taskSwitches = s.taskSwitches → t' = setFlags t f) ∧
      (t.taskSwitches ≠ s.taskSwitches → t'.taskSwitches ≠ s.taskSwitches) := by
  obtain ⟨r, r', hs, hu, hsame⟩ := exec_sameUnderFlags s f i
  rw [hs] at h
  rw [hu]
  cases hsame with
  | raised e =>
    cases h
    exact ⟨_, rfl, fun _ => rfl, id⟩
  | kept t hn =>
    cases h
    exact ⟨_, rfl, fun _ => rfl, absurd hn⟩
  | switched tsel td =>
    cases h
    exact ⟨_, rfl, fun hn => absurd hn (taskSwitches_ne_of_enterTask rfl),
      fun _ => taskSwitches_ne_of_enterTask (s := setFlags s f) rfl⟩

theorem enterTask_flags (s : State) (tsel : Selector) (td : Descriptor) :
    (enterTask s tsel td).flags = (switchOutcome s tsel td).context.flags := by
  rcases enterTask_cases s tsel td with ⟨e, h⟩ | ⟨h, _⟩ <;> rw [h] <;> rfl

/-- A JMP that is counted as a task switch is one, and leaves the flags of the new task (R93, R95). -/
theorem Effect.flags_of_switched {s t : State} (h : Effect s t) (hn : t.taskSwitches ≠ s.taskSwitches) :
    ∃ tsel td, t.flags = (switchOutcome s tsel td).context.flags := by
  cases h with
  | raised _ _ h | near _ _ h | unprotected _ _ _ _ h => exact absurd (by rw [h]; rfl) hn
  | loaded sel d off _ _ h => exact absurd (loadCs_keeps s t sel d off h).2.2.taskSwitches hn
  | task tsel td _ h => exact ⟨tsel, td, by rw [h, enterTask_flags]⟩

/-- Settles O51: the flags a JMP leaves by its effect, and `exec_setFlags` for the flags it does not read. -/
theorem flagsChangeOnlyByTaskSwitch : Obligations.FlagsChangeOnlyByTaskSwitch := by
  intro i s t h
  have he := effect_of_exec i s t h
  refine ⟨fun hn => ⟨?kept, fun f => ?unread⟩, fun hn => ⟨he.flags_of_switched hn, fun f => ?switched⟩⟩
  case kept =>
    obtain ⟨eip, cs, mem, fr, rfl⟩ := he.frame hn
    rfl
  case unread =>
    obtain ⟨t', ht', hsame, _⟩ := exec_setFlags f h
    rw [hsame hn] at ht'
    exact ht'
  case switched =>
    obtain ⟨t', ht', _, hne⟩ := exec_setFlags f h
    exact ⟨t', ht', hne hn⟩

end Sys2Proof.Machine

/-! ## The exceptions of each mode (R110 to R119) -/

namespace Sys2Proof.Machine

/-! ### The vectors and codes of the exceptions a mode allows (R111, R115, R118, R119) -/

section
variable {s : State} {e : Exception} (h : ExceptionAllowed s e)
include h

theorem vector_and_code_of_real (hm : s.mode = .real) : vectorOf e ∈ [6, 13] ∧ codeOf s.pe e = none := by
  simp only [ExceptionAllowed, hm] at h
  rw [(mode_real_iff s).mp hm]
  rcases h with rfl | rfl <;> decide

theorem vector_and_code_of_v86 (hm : s.mode = .v86) :
    vectorOf e = 6 ∧ codeOf s.pe e = none ∨ vectorOf e = 13 ∧ codeOf s.pe e = some 0#16 ∨
      vectorOf e = 14 ∧ (codeOf s.pe e).isSome = true := by
  simp only [ExceptionAllowed, hm] at h
  rw [((mode_v86_iff s).mp hm).1]
  rcases h with rfl | rfl | ⟨c, rfl⟩
  · exact .inr (.inl ⟨rfl, rfl⟩)
  · exact .inl ⟨rfl, rfl⟩
  · exact .inr (.inr ⟨rfl, rfl⟩)

theorem vector_and_code_of_prot (hm : s.mode = .prot) :
    vectorOf e = 6 ∧ codeOf s.pe e = none ∨ vectorOf e ∈ [11, 13, 14] ∧ (codeOf s.pe e).isSome = true ∨
      vectorOf e = 12 ∧ codeOf s.pe e = some 0#16 := by
  simp only [ExceptionAllowed, hm] at h
  rcases h with rfl | rfl | ⟨c, rfl⟩ | ⟨c, rfl⟩ | ⟨c, rfl⟩
  · exact .inl ⟨rfl, rfl⟩
  · exact .inr (.inr ⟨rfl, rfl⟩)
  all_goals exact .inr (.inl ⟨by simp [vectorOf], rfl⟩)

end

/-! ### The fault record a step leaves -/

/-- Without a task switch the fault record a JMP leaves is that of an exception its mode allows (R22, R110). -/
theorem Effect.allowed_of_faultRecord {s t : State} {r : FaultRecord} (h : Effect s t)
    (hn : t.taskSwitches = s.taskSwitches) (hs : s.faultRecord = none) (hr : t.faultRecord = some r) :
    ∃ e, ExceptionAllowed s e ∧ r = ⟨vectorOf e, codeOf s.pe e, s.eip, s.cs.sel⟩ := by
  cases h with
  | raised e ha h =>
    rw [h, takeException_faultRecord] at hr
    exact ⟨e, ha, (Option.some.inj hr).symm⟩
  | near _ _ h | unprotected _ _ _ _ h =>
    have hkept : t.faultRecord = s.faultRecord := by rw [h]; rfl
    simp [hkept, hs] at hr
  | loaded _ _ _ _ _ h => simp [loadCs_faultRecord h, hs] at hr
  | task _ _ _ h => exact absurd hn (taskSwitches_ne_of_enterTask h)

theorem allowed_of_step {s t : State} {r : FaultRecord} (h : step s = .next t)
    (hn : t.taskSwitches = s.taskSwitches) (hr : t.faultRecord = some r) :
    ∃ e, ExceptionAllowed s e ∧ r = ⟨vectorOf e, codeOf s.pe e, s.eip, s.cs.sel⟩ := by
  obtain ⟨hs, _, he | ⟨r', rfl⟩⟩ := effect_of_step s t h
  · exact he.allowed_of_faultRecord hn hs hr
  · simp [hs] at hr

theorem taskSwitches_of_step_not_prot {s t : State} (h : step s = .next t) (hm : s.mode ≠ .prot) :
    t.taskSwitches = s.taskSwitches := by
  obtain ⟨_, _, ⟨hp, _⟩ | hk⟩ := step_keeps s t h
  · exact absurd hp hm
  · exact hk.taskSwitches

/-! ### The exceptions of a task switch (R93, R116; log entry 6) -/

theorem switchException_vector_and_code (f : Config.SwitchFault) (pe : Bool) :
    vectorOf (switchException f) ∈ [10, 11, 12, 13, 14] ∧ (codeOf pe (switchException f)).isSome = true := by
  cases f <;> exact ⟨by simp [switchException, vectorOf], rfl⟩

/-- A task switch keeps the fault record, or it raised one of its five exceptions: the limit check after it raises #GP(0)
(R93). -/
theorem enterTask_faultRecord (s : State) (tsel : Selector) (td : Descriptor) :
    (enterTask s tsel td).faultRecord = s.faultRecord ∨ ∃ r, (enterTask s tsel td).faultRecord = some r ∧
      r.vector ∈ [10, 11, 12, 13, 14] ∧ r.code.isSome = true := by
  unfold enterTask
  simp only
  cases (switchOutcome s tsel td).raised with
  | some f => exact .inr ⟨_, takeException_faultRecord _ _ _, switchException_vector_and_code f _⟩
  | none =>
    dsimp only
    split
    · exact .inr ⟨_, takeException_faultRecord _ _ _, switchException_vector_and_code (.gp 0#16) s.pe⟩
    · exact .inl (applySwitch_faultRecord s _)

/-- A step that is counted as a task switch is one. -/
theorem enterTask_of_step {s t : State} (h : step s = .next t) (hn : t.taskSwitches ≠ s.taskSwitches) :
    ∃ tsel td, t = enterTask s tsel td := by
  obtain ⟨_, _, he | ⟨r, rfl⟩⟩ := effect_of_step s t h
  · cases he with
    | raised _ _ h | near _ _ h | unprotected _ _ _ _ h => exact absurd (by rw [h]; rfl) hn
    | loaded sel d off _ _ h => exact absurd (loadCs_keeps s t sel d off h).2.2.taskSwitches hn
    | task tsel td _ h => exact ⟨tsel, td, h⟩
  · exact absurd rfl hn

/-- Settles O50: `allowed_of_step` with the vectors and codes of each mode, and `enterTask_faultRecord`. -/
theorem exceptionsOfEachMode : Obligations.ExceptionsOfEachMode := by
  refine fun s t h => ⟨fun hm r hr => ?real, fun hm r hr => ?v86, fun hm hn r hr => ?prot, fun hn => ?switch⟩
  case real =>
    obtain ⟨e, ha, rfl⟩ := allowed_of_step h (taskSwitches_of_step_not_prot h (by simp [hm])) hr
    exact vector_and_code_of_real ha hm
  case v86 =>
    obtain ⟨e, ha, rfl⟩ := allowed_of_step h (taskSwitches_of_step_not_prot h (by simp [hm])) hr
    exact vector_and_code_of_v86 ha hm
  case prot =>
    obtain ⟨e, ha, rfl⟩ := allowed_of_step h hn hr
    exact vector_and_code_of_prot ha hm
  case switch =>
    obtain ⟨tsel, td, rfl⟩ := enterTask_of_step h hn
    obtain ⟨hs, _⟩ := running_of_step s _ h
    exact hs ▸ enterTask_faultRecord s tsel td

end Sys2Proof.Machine
